-- ==== Sys2Proof/Word.lean ====
section
/-! DEFINITION. The word types of SPIM-FB (00_scope.md R6): a byte is 8 bits, a FIFO data word, an operand and an
address are 32 bits. -/

namespace Sys2Proof

/-- One byte of buffer memory or of the built header (R6). -/
abbrev Byte := BitVec 8

/-- A 32-bit word: CW, OPA, OPB, a FIFO data word, a buffer address, RESULT (R6, R10). -/
abbrev Word := BitVec 32

end Sys2Proof
end

