-- ==== Sys2Proof/Syntax.lean ====
section
/-! DEFINITION. The syntax of SPIM-FB: the command triple the port takes (00_scope.md R10, 30_encoding.md R90) and the
ten commands of the opcode map (R97), one constructor a row. -/

namespace Sys2Proof

/-- A command as the port takes it: the command word and two operand words (R10, R90). -/
structure Command where
  cw  : Word
  opa : Word
  opb : Word
  deriving DecidableEq, Repr

/-- A decoded command. Lengths, counts, times and the CSR index are the unsigned numbers R96 calls them; values
software sees as bits (the command value, addresses) are bit vectors. An operand word a command does not use (R95) is
no field of it (log 17). -/
inductive Instr where
  /-- SET_HEADER (R151): CL, AL, DB from CW, cmd = OPA[15:0], addr = OPB. -/
  | setHeader (cl al db : Nat) (cmd : BitVec 16) (addr : Word)
  /-- SET_ENDIAN (R230): E = CW[8], true for big-endian. -/
  | setEndian (e : Bool)
  /-- BUILD_HEADER (R155). -/
  | buildHeader
  /-- FILL_HDR (R156). -/
  | fillHdr
  /-- FILL_TX (R191): source address OPA, requested byte count OPB. -/
  | fillTx (src : Word) (len : Nat)
  /-- DRAIN_RX (R192): destination address OPA, capacity in bytes OPB. -/
  | drainRx (dst : Word) (remaining : Nat)
  /-- FIFO_CLEAR (R193). -/
  | fifoClear
  /-- TMR_START (R122): timeout_us OPA, clock_mhz OPB. -/
  | tmrStart (timeoutUs clockMhz : Nat)
  /-- TMR_POLL (R123). -/
  | tmrPoll
  /-- READ_CSR (R231): IDX = CW[23:8]. -/
  | readCsr (idx : Nat)
  deriving DecidableEq, Repr

end Sys2Proof
end

