-- ==== Sys2Proof/WellFormed.lean ====
section
/-! DEFINITION. A well-formed instruction is one whose numbers fit the fields and operand words of 30_encoding.md R92 to
R95. CL = 3 and AL = 5, 6, 7 are encodable, so they are well formed: the command itself rejects them (R92, R151). -/

namespace Sys2Proof

/-- The numbers fit their fields: CL 2 bits, AL 3, DB 16 (R92), IDX 16 (R94), operands 32 (R95). -/
def Instr.wf : Instr → Bool
  | .setHeader cl al db _ _ => decide (cl < 2 ^ 2) && decide (al < 2 ^ 3) && decide (db < 2 ^ 16)
  | .setEndian _            => true
  | .buildHeader            => true
  | .fillHdr                => true
  | .fillTx _ len           => decide (len < 2 ^ 32)
  | .drainRx _ remaining    => decide (remaining < 2 ^ 32)
  | .fifoClear              => true
  | .tmrStart t c           => decide (t < 2 ^ 32) && decide (c < 2 ^ 32)
  | .tmrPoll                => true
  | .readCsr idx            => decide (idx < 2 ^ 16)

end Sys2Proof
end

