-- ==== Sys2Proof/Decode.lean ====
section
/-! DEFINITION. Decoding and encoding (30_encoding.md R90 to R99): the opcode map as a table of rows (mask, match), a
total decoder that rejects by name, and the encoder written from the same table and the field positions of R91 to R95. -/

namespace Sys2Proof

/-- The ten operations of the opcode map R97, by name. -/
inductive Op where
  | setHeader | setEndian | buildHeader | fillHdr | fillTx
  | drainRx | fifoClear | tmrStart | tmrPoll | readCsr
  deriving DecidableEq, Repr

/-- One row of R97. -/
structure Row where
  op    : Op
  value : Word   -- the column "match"
  mask  : Word
  deriving DecidableEq, Repr

/-- Why a command word selects no row (R99). Either way the outcome is ILLEGAL_COMMAND; the name is the
model's (log 15). -/
inductive Reject where
  /-- CW[7:0] is 0x00 or 0x0B to 0xFF. -/
  | unassignedOpcode
  /-- CW[7:0] is assigned and a reserved bit of its format is 1. -/
  | reservedBits
  deriving DecidableEq, Repr

/-- The opcode map, R97. -/
def opcodeRows : List Row :=
  [ ⟨.setHeader,   0x00000001, 0x0000E0FF⟩,
    ⟨.setEndian,   0x00000002, 0xFFFFFEFF⟩,
    ⟨.buildHeader, 0x00000003, 0xFFFFFFFF⟩,
    ⟨.fillHdr,     0x00000004, 0xFFFFFFFF⟩,
    ⟨.fillTx,      0x00000005, 0xFFFFFFFF⟩,
    ⟨.drainRx,     0x00000006, 0xFFFFFFFF⟩,
    ⟨.fifoClear,   0x00000007, 0xFFFFFFFF⟩,
    ⟨.tmrStart,    0x00000008, 0xFFFFFFFF⟩,
    ⟨.tmrPoll,     0x00000009, 0xFFFFFFFF⟩,
    ⟨.readCsr,     0x0000000A, 0xFF0000FF⟩ ]

/-- A CW selects a row when (CW & mask) = match (R97). -/
def Row.selects (r : Row) (cw : Word) : Bool := (cw &&& r.mask) == r.value

/-- The operation a CW selects, if any (R98). -/
def selectOp (cw : Word) : Option Op := (opcodeRows.find? (·.selects cw)).map (·.op)

/-- `v[lo+n-1 : lo]` as an unsigned number (R7, R96). -/
def bitField (v : Word) (lo n : Nat) : Nat := (v.extractLsb' lo n).toNat

/-- CW[7:0], the opcode (R90). -/
def opcodeOf (cw : Word) : Nat := bitField cw 0 8

/-- The fields and operands of a command whose CW selects `op` (R91 to R96). -/
def operandsOf (op : Op) (c : Command) : Instr :=
  match op with
  | .setHeader   =>
    .setHeader (bitField c.cw 8 2) (bitField c.cw 10 3) (bitField c.cw 16 16) (c.opa.extractLsb' 0 16) c.opb
  | .setEndian   => .setEndian (c.cw.getLsbD 8)
  | .buildHeader => .buildHeader
  | .fillHdr     => .fillHdr
  | .fillTx      => .fillTx c.opa c.opb.toNat
  | .drainRx     => .drainRx c.opa c.opb.toNat
  | .fifoClear   => .fifoClear
  | .tmrStart    => .tmrStart c.opa.toNat c.opb.toNat
  | .tmrPoll     => .tmrPoll
  | .readCsr     => .readCsr (bitField c.cw 8 16)

/-- The decoder: total on command words (R98); a CW matching no row is rejected by name (R99). -/
def decode (c : Command) : Except Reject Instr :=
  match selectOp c.cw with
  | some op => .ok (operandsOf op c)
  | none    =>
    if opcodeRows.any (fun r => opcodeOf r.value == opcodeOf c.cw) then .error .reservedBits
    else .error .unassignedOpcode

/-- The row's operation of an instruction. -/
def Instr.op : Instr → Op
  | .setHeader _ _ _ _ _ => .setHeader
  | .setEndian _         => .setEndian
  | .buildHeader         => .buildHeader
  | .fillHdr             => .fillHdr
  | .fillTx _ _          => .fillTx
  | .drainRx _ _         => .drainRx
  | .fifoClear           => .fifoClear
  | .tmrStart _ _        => .tmrStart
  | .tmrPoll             => .tmrPoll
  | .readCsr _           => .readCsr

/-- The column "match" of an operation's row (R97). -/
def matchValue (op : Op) : Word := ((opcodeRows.find? (·.op == op)).map (·.value)).getD 0

/-- The column "mask" of an operation's row (R97). -/
def maskValue (op : Op) : Word := ((opcodeRows.find? (·.op == op)).map (·.mask)).getD 0

/-- The CW fields of an instruction at the positions of R92 to R94. -/
def cwFields : Instr → Word
  | .setHeader cl al db _ _ =>
    (BitVec.ofNat 32 cl <<< 8) ||| (BitVec.ofNat 32 al <<< 10) ||| (BitVec.ofNat 32 db <<< 16)
  | .setEndian e  => (if e then 1 else 0) <<< 8
  | .readCsr idx  => BitVec.ofNat 32 idx <<< 8
  | .buildHeader | .fillHdr | .fillTx _ _ | .drainRx _ _ | .fifoClear | .tmrStart _ _ | .tmrPoll => 0

/-- The encoder, R100: CW = match | fields at their positions, and the operands of R95; an operand word or a part of one
that the command ignores is 0. -/
def encode (i : Instr) : Command where
  cw  := matchValue i.op ||| cwFields i
  opa := match i with
    | .setHeader _ _ _ cmd _ => cmd.setWidth 32
    | .fillTx src _          => src
    | .drainRx dst _         => dst
    | .tmrStart t _          => BitVec.ofNat 32 t
    | .setEndian _ | .buildHeader | .fillHdr | .fifoClear | .tmrPoll | .readCsr _ => 0
  opb := match i with
    | .setHeader _ _ _ _ addr => addr
    | .fillTx _ len           => BitVec.ofNat 32 len
    | .drainRx _ remaining    => BitVec.ofNat 32 remaining
    | .tmrStart _ c           => BitVec.ofNat 32 c
    | .setEndian _ | .buildHeader | .fillHdr | .fifoClear | .tmrPoll | .readCsr _ => 0

/-- The command whose bits are the low `nbits` of `w`, every bit above them 0: CW is bits 31..0 (the first word), OPA
bits 63..32, OPB bits 95..64. The port takes whole words (R90), so there is no byte order to lay out. -/
def commandOfBits (nbits w : Nat) : Command :=
  let v := w % 2 ^ nbits
  { cw := BitVec.ofNat 32 v, opa := BitVec.ofNat 32 (v / 2 ^ 32), opb := BitVec.ofNat 32 (v / 2 ^ 64) }

/-- The instruction the decoder reads from the bits `w`; none where it rejects them. -/
def decodeTableWord (nbits w : Nat) : Option Instr :=
  match decode (commandOfBits nbits w) with
  | .ok i    => some i
  | .error _ => none

end Sys2Proof
end

