-- ==== Sys2Proof/Config.lean ====
section
/-! DEFINITION. What is fixed for one machine: the implementation parameters of 00_scope.md R5, the wiring of the
Shift Engine (60_exceptions.md R271), the addresses the platform memory admits (20_memory.md R64), and the one value
the spec leaves to a free draw (93_implementation_defined.md U5). A Config is plain data held in `State.cfg`, and no
step changes it, so a statement over all states is a statement over all parameters. R5 and R282 say that of the parameters;
that the wiring and what the platform admits stay as well is the model's choice (log 13, log 5). -/

namespace Sys2Proof

/-- A range of buffer addresses the platform memory admits, and for which kind of access (R64). -/
structure Region where
  base     : Nat
  size     : Nat
  readable : Bool
  writable : Bool
  deriving DecidableEq, Repr

/-- The parameters of R5 and the platform the block is built into. -/
structure Config where
  /-- FIFO_DEPTH, the capacity in bytes of each FIFO. -/
  fifoDepth    : Nat
  /-- TICK_RELOAD, the number R of distinct tick values. -/
  tickReload   : Nat
  /-- NUM_INSTANCES (R42, R263). -/
  numInstances : Nat
  /-- The loopback configuration of R271. -/
  loopback     : Bool
  /-- What the platform memory admits (R64); an address in no region is not admitted. Fixed for a run by address and kind of
  access, so a bus error does not come and go at one address: DESIGN CHOICE (log 5). -/
  regions      : List Region
  deriving DecidableEq, Repr

/-- The legal values of R5's table. -/
abbrev Config.Legal (c : Config) : Prop :=
  4 ∣ c.fifoDepth ∧ 4 ≤ c.fifoDepth ∧ c.fifoDepth ≤ 65532 ∧
  2 ≤ c.tickReload ∧ c.tickReload ≤ 2 ^ 32 ∧ 1 ≤ c.numInstances

/-- The parameters of the spec's own test vectors (95_test_vectors.md: FIFO_DEPTH 32, R 1000, one copy of the block),
no loopback, and a platform that admits the whole 2^32-byte space of R60. DESIGN CHOICE (log 4, log 5). -/
def Config.testVectors : Config where
  fifoDepth    := 32
  tickReload   := 1000
  numInstances := 1
  loopback     := false
  regions      := [{ base := 0, size := 2 ^ 32, readable := true, writable := true }]

/-- The value READ_CSR gives for an HDR_BUF word at or beyond HDR_LEN: "any value, drawn at each read" (U5). The n-th
draw of a copy of the block is `freeWord n`; nothing constrains it (log 12). -/
opaque Config.freeWord : Nat → Word

end Sys2Proof
end

