-- ==== Sys2Proof/Machine/State.lean ====
section
/-! DEFINITION. The state of SPIM-FB (10_state.md): every element of R20, the environment's inputs (R36), buffer memory
(20_memory.md R60), the parameters (00_scope.md R5), and the schedule of what the agents do next (R4). Plain data. -/

namespace Sys2Proof.Machine

/-- Byte-addressed storage in one canonical form: (address, byte) pairs with strictly rising addresses, none of them
holding the byte an unlisted address reads as. Used for buffer memory and for HDR_BUF. -/
abbrev Memory := List Host.Cell

/-- A FIFO entry (R30): a data word and the number of bytes of it that carry data, 1 to 4. -/
structure Entry where
  word  : Word
  count : Nat
  deriving DecidableEq, Repr

/-- The status codes of R251; codes 6 and 7 are never produced and FAILED is raised by no command (R256). -/
inductive Status where
  | ok | invalidParam | timeout | failed | alreadyBusy | illegalCommand
  deriving DecidableEq, Repr

/-- TMR_STATE (R33). -/
inductive TmrState where
  | idle | running | doneOk | doneTimeout
  deriving DecidableEq, Repr

/-- TMR_MODE (R34). -/
inductive TmrMode where
  | direct | crossing
  deriving DecidableEq, Repr

/-- The header fields (R24 to R26). -/
structure Header where
  cmd       : BitVec 16
  addr      : Word
  cmdLen    : BitVec 2
  addrLen   : BitVec 3
  dummyBits : BitVec 16
  deriving DecidableEq, Repr

/-- The built header (R28): HDR_BUF (8192 bytes, addresses 0 to 8191), HDR_RAW, HDR_LEN, HDR_POS. -/
structure Built where
  buf : Memory
  raw : BitVec 14
  len : BitVec 14
  pos : BitVec 14
  deriving DecidableEq, Repr

/-- The comparator (R33 to R35). -/
structure Timer where
  state     : TmrState
  mode      : TmrMode
  startTick : Word
  budget    : Word
  cross     : Word
  prevTick  : Word
  deriving DecidableEq, Repr

/-- What one agent does in one step (R4, R299). -/
inductive Event where
  /-- The Controller issues a command (R10). -/
  | command (c : Command)
  /-- The Shift Engine removes the head entry of TXQ (R266; R271 in the loopback configuration). -/
  | shiftOut
  /-- The Shift Engine's receive step RX_PUSH(w, c) (R267, R268). -/
  | rxPush (word : Word) (count : Nat)
  /-- The Shift Engine drives BUSY (R269). -/
  | setBusy (b : Bool)
  /-- The Tick Counter steps (R270). -/
  | tick
  /-- The platform resets the block (R280). -/
  | blockReset
  /-- Another agent writes a byte of buffer memory between commands (R299, row "buffer memory"). -/
  | bufWrite (addr : Word) (value : Byte)
  deriving DecidableEq, Repr

/-- The state of one block with its environment. -/
structure State where
  /-- The parameters and the platform (R5); no step changes them. -/
  cfg           : Config
  /-- CFG.BE, true for big-endian (R23). -/
  be            : Bool
  hdr           : Header
  built         : Built
  /-- RX_INVALID_BITS (R29). -/
  rxInvalidBits : BitVec 16
  /-- TXQ, head first (R31). -/
  txq           : List Entry
  /-- RXQ, head first (R32). -/
  rxq           : List Entry
  tmr           : Timer
  status        : Status
  result        : Word
  /-- The sticky mark RX_OVERFLOW (R37, R268). -/
  rxOverflow    : Bool
  /-- The sticky mark BUS_FAULT (R37, R64). -/
  busFault      : Bool
  /-- The input TICK (R36). -/
  tick          : Word
  /-- The input BUSY (R36). -/
  busy          : Bool
  /-- Buffer memory (R60, R63). -/
  mem           : Memory
  /-- The model's own: what the agents do next, head first (log 1). -/
  schedule      : List Event
  /-- The model's own: how many free values have been drawn (log 12). -/
  draws         : Nat
  deriving DecidableEq, Repr

/-- Why a step stops with a fault. -/
inductive Fault where
  /-- Raised by `issueCommand` when the Controller issues a command after BUS_FAULT was set: "the Controller is stuck"
  (R64). Safe: nothing is claimed of what follows. -/
  | controllerStuck
  deriving DecidableEq, Repr

/-- Why a step is refused. The refusals of `shiftOut` and `rxPush` are moves the spec gives the Shift Engine no step for
(93_implementation_defined.md U15: "refuse", "no step exists for it"); all are safe. -/
inductive Refusal where
  /-- An instruction with no meaning yet; raised by `exec` alone. Safe. -/
  | notModelled (mnemonic : String)
  /-- `shiftOut` on an empty TXQ: the transmit step is enabled when TXQ is non-empty (R266). Safe. -/
  | shiftOutEmpty
  /-- A receive step after a partial entry not yet drained (R267). Safe. -/
  | pushAfterPartial
  /-- `rxPush` with a count outside 1 to 4 (R267). Safe. -/
  | badCount
  /-- `rxPush` in the loopback configuration, where the receive step is part of the transmit step (R271). Safe. -/
  | rxPushInLoopback
  /-- `System.stepAt` for an index that is none of the NUM_INSTANCES copies of the block (R42). Safe. -/
  | noSuchBlock
  deriving DecidableEq, Repr

/-- No header set (R40). -/
def Header.zero : Header := { cmd := 0, addr := 0, cmdLen := 0, addrLen := 0, dummyBits := 0 }

/-- No header built (R40). HDR_BUF is unspecified there: every byte reads 0 here, DESIGN CHOICE (log 7). -/
def Built.zero : Built := { buf := [], raw := 0, len := 0, pos := 0 }

/-- The comparator at reset (R40). -/
def Timer.zero : Timer :=
  { state := .idle, mode := .direct, startTick := 0, budget := 0, cross := 0, prevTick := 0 }

/-- The machine right after reset: the table of R40 and the launch premise of R296 (marks clear, log 19). TICK and BUSY, which
reset does not define, are 0 (DESIGN CHOICE, log 8); the parameters are the test vectors' (log 4, log 5); nothing is
scheduled (log 3) and no free value is drawn (log 12). -/
def State.reset : State where
  cfg           := Config.testVectors
  be            := false
  hdr           := Header.zero
  built         := Built.zero
  rxInvalidBits := 0
  txq           := []
  rxq           := []
  tmr           := Timer.zero
  status        := .ok
  result        := 0
  rxOverflow    := false
  busFault      := false
  tick          := 0
  busy          := false
  mem           := []
  schedule      := []
  draws         := 0

end Sys2Proof.Machine
end

