-- ==== Sys2Proof/Machine/Ops.lean ====
section
/-! DEFINITION. The named operations over memory, FIFO words and FIFOs (20_memory.md, 10_state.md R30 to R32), the steps
of the environment agents (60_exceptions.md R266 to R271) and the block's reset (70_reset_and_hazards.md R280).
SPIM-FB takes no exception and has no return from one (R250, R258, R259): every error is a status code, written by
`finish` and `raiseStatus` of Machine/Flags.lean. -/

namespace Sys2Proof.Machine

/-- `ceil(a / b)` for b ≥ 1 (R9). -/
def ceilDiv (a b : Nat) : Nat := (a + b - 1) / b

/-! ### Byte-addressed storage -/

/-- What a byte nothing has written reads as: 0 in buffer memory (log 6) and in HDR_BUF (log 7). DESIGN CHOICE. -/
def unlistedByte : Byte := 0

/-- `MemRead(addr, 1)` (R8). -/
def Memory.read : Memory → Nat → Byte
  | [], _ => unlistedByte
  | (b, v) :: m, a => if a = b then v else Memory.read m a

/-- `MemWrite(addr, 1, v)` (R8): only the byte written changes (R63); the canonical form is kept. -/
def Memory.write : Memory → Nat → Byte → Memory
  | [], a, v => if v = unlistedByte then [] else [(a, v)]
  | (b, w) :: m, a, v =>
    if a < b then (if v = unlistedByte then (b, w) :: m else (a, v) :: (b, w) :: m)
    else if a = b then (if v = unlistedByte then m else (a, v) :: m)
    else (b, w) :: Memory.write m a v

/-- The canonical form: addresses strictly rising, no entry equal to what an unlisted address reads as. -/
abbrev Memory.wf (m : Memory) : Prop :=
  m.Pairwise (fun c d => c.1 < d.1) ∧ ∀ c ∈ m, c.2 ≠ unlistedByte

/-- Every listed address lies below `bound`. -/
abbrev Memory.below (bound : Nat) (m : Memory) : Prop := ∀ c ∈ m, c.1 < bound

/-- The cells of consecutive bytes from address `a` on, in canonical form. -/
def cellsFrom : Nat → List Byte → Memory
  | _, [] => []
  | a, v :: vs => if v = unlistedByte then cellsFrom (a + 1) vs else (a, v) :: cellsFrom (a + 1) vs

/-- Bytes 0, 1, … become `bs`; every byte above them keeps what it held. -/
def Memory.storeLow (m : Memory) (bs : List Byte) : Memory :=
  cellsFrom 0 bs ++ m.filter (fun c => decide (bs.length ≤ c.1))

/-! ### Byte order: pack, unpack, hdrword -/

/-- Byte lane j of a word, `w[8j+7:8j]` (R7). -/
def lane (w : Word) (j : Nat) : Byte := w.extractLsb' (8 * j) 8

/-- The word whose lane i is byte i of the list. -/
def packLow : List Byte → Word
  | []      => 0
  | b :: bs => b.setWidth 32 ||| (packLow bs <<< 8)

/-- `pack(be, b, k)`, k the length of the list (R66): little-endian puts b0 in lane 0, big-endian in lane k-1; the
lanes from k on are zero. -/
def pack (be : Bool) (bs : List Byte) : Word := packLow (if be then bs.reverse else bs)

/-- `unpack(be, w, k)` (R67): lanes 0 to k-1, in the same order; the lanes from k on are ignored. -/
def unpack (be : Bool) (w : Word) (k : Nat) : List Byte :=
  let lanes := (List.range k).map (lane w)
  if be then lanes.reverse else lanes

/-- `hdrword(g)` (R69): the little-endian word of a group, whatever CFG.BE is. -/
def hdrword (g : List Byte) : Word := pack false g

/-- The byte sequence an entry carries (R70). -/
def Entry.bytes (be : Bool) (e : Entry) : List Byte := unpack be e.word e.count

/-- The byte sequence of a list of entries, head first (R70). -/
def entriesBytes (be : Bool) (es : List Entry) : List Byte := es.flatMap (Entry.bytes be)

/-! ### FIFOs -/

/-- TX_LEVEL: every entry takes one 4-byte slot (R31). -/
def State.txLevel (s : State) : Nat := 4 * s.txq.length

/-- The sum of the counts of a list of entries. -/
def countSum (es : List Entry) : Nat := (es.map (·.count)).sum

/-- RX_LEVEL: the sum of the counts (R32). -/
def State.rxLevel (s : State) : Nat := countSum s.rxq

/-- FIFO_DEPTH - TX_LEVEL, "computes free space as `fifo_depth - current_tx_level`" (R156, R191). -/
def State.txFree (s : State) : Nat := s.cfg.fifoDepth - s.txLevel

/-- `Push(TXQ, e)` for each entry in turn (R8, R71). -/
def State.pushTx (es : List Entry) (s : State) : State := { s with txq := s.txq ++ es }

/-- The last entry is partial, so nothing may be received after it (R267). -/
def tailPartial (q : List Entry) : Bool :=
  match q.getLast? with
  | none   => false
  | some e => decide (e.count ≠ 4)

/-! ### The platform memory -/

/-- Some region admits reading address `a` (R64), the same throughout a run. DESIGN CHOICE (log 5). -/
def admitsRead (c : Config) (a : Nat) : Bool :=
  c.regions.any (fun r => r.readable && decide (r.base ≤ a) && decide (a < r.base + r.size))

/-- Some region admits writing address `a` (R64), the same throughout a run. DESIGN CHOICE (log 5). -/
def admitsWrite (c : Config) (a : Nat) : Bool :=
  c.regions.any (fun r => r.writable && decide (r.base ≤ a) && decide (a < r.base + r.size))

/-- A buffer access the platform memory does not admit: the mark BUS_FAULT is set, no STATUS is written and nothing else
changes (R64; log 9). -/
def busError (s : State) : State := { s with busFault := true }

/-! ### Environment agents and reset -/

/-- The receive step for an entry that may be received: appended, or dropped with the mark RX_OVERFLOW (R267, R268). -/
def receive (e : Entry) (s : State) : State :=
  if s.rxLevel + e.count ≤ s.cfg.fifoDepth then { s with rxq := s.rxq ++ [e] } else { s with rxOverflow := true }

/-- The receive step RX_PUSH(w, c) (R267): only for a count of 1 to 4, only after a full entry, and not by itself in the
loopback configuration (log 11, log 13). -/
def rxPush (w : Word) (c : Nat) (s : State) : Host.Outcome State Fault Refusal :=
  if s.cfg.loopback then .refused .rxPushInLoopback
  else if c < 1 ∨ 4 < c then .refused .badCount
  else if tailPartial s.rxq then .refused .pushAfterPartial
  else .next (receive { word := w, count := c } s)

/-- The transmit step: the head entry of TXQ is removed (R266); in the loopback configuration it is received in the same
atomic step, which is enabled only when the receive step is (R271). -/
def shiftOut (s : State) : Host.Outcome State Fault Refusal :=
  match s.txq with
  | []      => .refused .shiftOutEmpty
  | e :: es =>
    if s.cfg.loopback then
      if tailPartial s.rxq then .refused .pushAfterPartial else .next (receive e { s with txq := es })
    else .next { s with txq := es }

/-- The busy step (R269). -/
def driveBusy (b : Bool) (s : State) : State := { s with busy := b }

/-- The Tick Counter step, `TICK ← (TICK + 1) mod R` (R270). -/
def tickStep (s : State) : State :=
  { s with tick := BitVec.ofNat 32 ((s.tick.toNat + 1) % s.cfg.tickReload) }

/-- Another agent writes one byte of buffer memory between commands (R299; log 20). -/
def platformWrite (a : Word) (v : Byte) (s : State) : State := { s with mem := Memory.write s.mem a.toNat v }

/-- Reset of the block (R280): every element of R20 takes its value of R40; buffer memory, the inputs TICK and BUSY, the
marks, the parameters and what is scheduled stay (R280, R282, R283). -/
def resetBlock (s : State) : State :=
  { s with
    be := false, hdr := Header.zero, built := Built.zero, rxInvalidBits := 0, txq := [], rxq := []
    tmr := Timer.zero, status := .ok, result := 0 }

end Sys2Proof.Machine
end

