-- ==== Sys2Proof/Machine/Flags.lean ====
section
/-! DEFINITION. STATUS and RESULT, the block's only flags (10_state.md R22, 60_exceptions.md R251 to R253), the predicates
of R27, and the comparator's conditions (41_timer.md R120 to R125). -/

namespace Sys2Proof.Machine

/-- The code of a status (R251). -/
def Status.code : Status → BitVec 3
  | .ok => 0 | .invalidParam => 1 | .timeout => 2 | .failed => 3 | .alreadyBusy => 4 | .illegalCommand => 5

/-- `finish(status, result)`: RESULT is 0 when the status is not OK (R252). -/
def finish (st : Status) (r : Word) (s : State) : State :=
  { s with status := st, result := if st = .ok then r else 0 }

/-- `raise S`: `finish(S, 0)` with no other state change (R8, R253). -/
def raiseStatus (st : Status) (s : State) : State := finish st 0 s

/-- The outcome of a command word that matches no row (R99). -/
def illegalCommand (s : State) : State := raiseStatus .illegalCommand s

/-- `header_set`: a header waits to be built (R27). -/
def State.headerSet (s : State) : Bool :=
  decide (s.hdr.cmdLen ≠ 0) || decide (s.hdr.addrLen ≠ 0) || decide (s.hdr.dummyBits ≠ 0)

/-- `header_unsent`: a built header is not yet wholly pushed (R27). -/
def State.headerUnsent (s : State) : Bool := decide (s.built.pos.toNat < s.built.len.toNat)

/-- TMR_STATE's code (R33). -/
def TmrState.code : TmrState → BitVec 2
  | .idle => 0 | .running => 1 | .doneOk => 2 | .doneTimeout => 3

/-- TMR_MODE's code (R34). -/
def TmrMode.code : TmrMode → BitVec 1
  | .direct => 0 | .crossing => 1

/-- M, SUB003's max_support_us: `R div c` (R120). -/
def maxSupportUs (cfg : Config) (c : Nat) : Nat := cfg.tickReload / c

/-- mid, the reload-midpoint: `R div 2` (R120). -/
def midTick (cfg : Config) : Nat := cfg.tickReload / 2

/-- `(t - p) mod R`, in 0 to R-1 (R9). -/
def tickDelta (cfg : Config) (t p : Nat) : Nat := (((t : Int) - (p : Int)) % (cfg.tickReload : Int)).toNat

/-- `direct_expired(t)`: the elapsed ticks exceed the budget strictly (R124). -/
def directExpired (s : State) (t : Nat) : Bool :=
  decide (s.tmr.budget.toNat < tickDelta s.cfg t s.tmr.startTick.toNat)

/-- A crossing: `p < mid ≤ t` between the previous sample p and the sample t (R121, R125). -/
def crossed (cfg : Config) (p t : Nat) : Bool := decide (p < midTick cfg) && decide (midTick cfg ≤ t)

end Sys2Proof.Machine
end

