-- ==== Sys2Proof/Machine/Operands.lean ====
section
/-! DEFINITION. The operand forms: a buffer named by its start address (20_memory.md R61, R62, 43_fifo_bridge.md R190) and
a register named by its CSR index (10_state.md R38). -/

namespace Sys2Proof.Machine

/-! ### Buffers -/

/-- The address of byte i of a buffer: `(a + i) mod 2^32` (R62). -/
def bufAddr (base : Word) (i : Nat) : Nat := (base.toNat + i) % 2 ^ 32

/-- `n` bytes of a buffer from byte `off` on (R61). -/
def readBuf (m : Memory) (base : Word) (off n : Nat) : List Byte :=
  (List.range n).map (fun i => Memory.read m (bufAddr base (off + i)))

/-- Bytes `off`, `off + 1`, … of a buffer become the list (R61). -/
def writeBuf (m : Memory) (base : Word) (off : Nat) : List Byte → Memory
  | []      => m
  | v :: vs => writeBuf (Memory.write m (bufAddr base off) v) base (off + 1) vs

/-- The platform memory admits reading each of the first `n` bytes of a buffer (R64). -/
def bufReadable (cfg : Config) (base : Word) (n : Nat) : Bool :=
  (List.range n).all (fun i => admitsRead cfg (bufAddr base i))

/-- The platform memory admits writing each of the first `n` bytes of a buffer (R64). -/
def bufWritable (cfg : Config) (base : Word) (n : Nat) : Bool :=
  (List.range n).all (fun i => admitsWrite cfg (bufAddr base i))

/-- A null pointer with a non-zero length (R191, R192). -/
def nullBuffer (base : Word) (n : Nat) : Bool := decide (0 < n) && decide (base = 0)

/-! ### The CSR map -/

/-- The registers of the map R38, by name. -/
inductive Csr where
  | cfg | hdrCmd | hdrAddr | hdrCtrl | rxInvalidBits | hdrLen | hdrPos | hdrRaw | txLevel | rxLevel
  | tmrCtrl | tmrStartTick | tmrBudget | tmrCross | tmrPrevTick | paramFifoDepth | paramTickMax | tick | busy
  /-- HDR_BUF word j, index 0x1000 + j. -/
  | hdrBufWord (j : Nat)
  deriving DecidableEq, Repr

/-- The indexes of R38 below the HDR_BUF window, in order from 0x0000. -/
def lowCsrs : List Csr :=
  [.cfg, .hdrCmd, .hdrAddr, .hdrCtrl, .rxInvalidBits, .hdrLen, .hdrPos, .hdrRaw, .txLevel, .rxLevel,
   .tmrCtrl, .tmrStartTick, .tmrBudget, .tmrCross, .tmrPrevTick, .paramFifoDepth, .paramTickMax, .tick, .busy]

/-- The register at an index; none where the index is unassigned (R38). -/
def Csr.ofIndex (idx : Nat) : Option Csr :=
  if idx < 0x1000 then lowCsrs[idx]?
  else if idx < 0x1000 + 2048 then some (.hdrBufWord (idx - 0x1000))
  else none

/-- Bytes a, a+1, a+2, a+3 of HDR_BUF. -/
def hdrGroup (b : Built) (a : Nat) : List Byte :=
  [Memory.read b.buf a, Memory.read b.buf (a + 1), Memory.read b.buf (a + 2), Memory.read b.buf (a + 3)]

/-- The value of a register, its fields at the places of R38 and every other bit 0. -/
def csrValue (s : State) : Csr → Word
  | .cfg            => (BitVec.ofBool s.be).setWidth 32
  | .hdrCmd         => s.hdr.cmd.setWidth 32
  | .hdrAddr        => s.hdr.addr
  | .hdrCtrl        =>
    s.hdr.cmdLen.setWidth 32 ||| (s.hdr.addrLen.setWidth 32 <<< 4) ||| (s.hdr.dummyBits.setWidth 32 <<< 16)
  | .rxInvalidBits  => s.rxInvalidBits.setWidth 32
  | .hdrLen         => s.built.len.setWidth 32
  | .hdrPos         => s.built.pos.setWidth 32
  | .hdrRaw         => s.built.raw.setWidth 32
  | .txLevel        => (BitVec.ofNat 16 s.txLevel).setWidth 32
  | .rxLevel        => (BitVec.ofNat 16 s.rxLevel).setWidth 32
  | .tmrCtrl        => s.tmr.state.code.setWidth 32 ||| (s.tmr.mode.code.setWidth 32 <<< 4)
  | .tmrStartTick   => s.tmr.startTick
  | .tmrBudget      => s.tmr.budget
  | .tmrCross       => s.tmr.cross
  | .tmrPrevTick    => s.tmr.prevTick
  | .paramFifoDepth => (BitVec.ofNat 16 s.cfg.fifoDepth).setWidth 32
  | .paramTickMax   => BitVec.ofNat 32 (s.cfg.tickReload - 1)
  | .tick           => s.tick
  | .busy           => (BitVec.ofBool s.busy).setWidth 32
  | .hdrBufWord j   => hdrword (hdrGroup s.built (4 * j))

/-- The value of register `c` is unspecified: an HDR_BUF word at or beyond HDR_LEN (R38, R231, U5). -/
def csrUnspecified (s : State) : Csr → Bool
  | .hdrBufWord j => decide (s.built.len.toNat ≤ 4 * j)
  | .cfg | .hdrCmd | .hdrAddr | .hdrCtrl | .rxInvalidBits | .hdrLen | .hdrPos | .hdrRaw | .txLevel | .rxLevel
  | .tmrCtrl | .tmrStartTick | .tmrBudget | .tmrCross | .tmrPrevTick | .paramFifoDepth | .paramTickMax | .tick
  | .busy => false

end Sys2Proof.Machine
end

