-- ==== Sys2Proof/Machine/Comparator.lean ====
section
/-! DEFINITION. The tick-counter elapsed-time comparator TMR (41_timer.md): TMR_START and TMR_POLL. -/

namespace Sys2Proof.Machine

/-- TMR_START accepts its operands: T > 0, c > 0 and M = R div c > 0 (R122). -/
def timerAccepted (cfg : Config) (t c : Nat) : Bool :=
  decide (c ≠ 0) && decide (t ≠ 0) && decide (maxSupportUs cfg c ≠ 0)

/-- The strategy: DIRECT when T < M, else CROSSING (R121). -/
def timerMode (cfg : Config) (t c : Nat) : TmrMode := if t < maxSupportUs cfg c then .direct else .crossing

/-- TMR_BUDGET: T·c ticks for DIRECT, ceil(T / M) crossings for CROSSING (R122). -/
def timerBudget (cfg : Config) (t c : Nat) : Nat :=
  match timerMode cfg t c with
  | .direct   => t * c
  | .crossing => ceilDiv t (maxSupportUs cfg c)

/-- TMR_START (R122): accepted in every TMR_STATE. -/
def execTmrStart (timeoutUs clockMhz : Nat) (s : State) : Host.Outcome State Fault Refusal :=
  if timerAccepted s.cfg timeoutUs clockMhz then
    .next (finish .ok 0
      { s with tmr :=
        { state := .running, mode := timerMode s.cfg timeoutUs clockMhz, startTick := s.tick
          budget := BitVec.ofNat 32 (timerBudget s.cfg timeoutUs clockMhz), cross := 0, prevTick := s.tick } })
  else .next (raiseStatus .invalidParam s)

/-- One DIRECT sample of TICK while busy (R123, R124). -/
def pollDirect (s : State) : State :=
  if directExpired s s.tick.toNat then
    finish .timeout 0 { s with tmr := { s.tmr with prevTick := s.tick, state := .doneTimeout } }
  else finish .ok 1 { s with tmr := { s.tmr with prevTick := s.tick } }

/-- One CROSSING sample of TICK while busy (R123, R125): a crossing is counted once, and the one that finds the count at
the budget ends the wait. -/
def pollCrossing (s : State) : State :=
  if crossed s.cfg s.tmr.prevTick.toNat s.tick.toNat then
    if s.tmr.cross = s.tmr.budget then
      finish .timeout 0 { s with tmr := { s.tmr with prevTick := s.tick, state := .doneTimeout } }
    else finish .ok 1 { s with tmr := { s.tmr with prevTick := s.tick, cross := s.tmr.cross + 1 } }
  else finish .ok 1 { s with tmr := { s.tmr with prevTick := s.tick } }

/-- TMR_POLL (R123): BUSY is tested before TICK; both outcomes are sticky. -/
def execTmrPoll (s : State) : Host.Outcome State Fault Refusal :=
  match s.tmr.state with
  | .idle        => .next (raiseStatus .illegalCommand s)
  | .doneOk      => .next (finish .ok 0 s)
  | .doneTimeout => .next (finish .timeout 0 s)
  | .running     =>
    if s.busy then
      match s.tmr.mode with
      | .direct   => .next (pollDirect s)
      | .crossing => .next (pollCrossing s)
    else .next (finish .ok 0 { s with tmr := { s.tmr with state := .doneOk } })

end Sys2Proof.Machine
end

