-- ==== Sys2Proof/Machine/Control.lean ====
section
/-! DEFINITION. Configuration and register access (44_control.md): SET_ENDIAN and READ_CSR. -/

namespace Sys2Proof.Machine

/-- Data packed under the current byte order is in flight: a FIFO entry or an unsent header (R230). -/
def inFlight (s : State) : Bool := !s.txq.isEmpty || !s.rxq.isEmpty || s.headerUnsent

/-- SET_ENDIAN (R230). -/
def execSetEndian (e : Bool) (s : State) : Host.Outcome State Fault Refusal :=
  if inFlight s then .next (raiseStatus .alreadyBusy s)
  else .next (finish .ok 0 { s with be := e })

/-- READ_CSR (R231). A register whose value is unspecified reads as the next free draw (U5, log 12). Each
copy of the block counts its own draws, so two copies with equal counts draw the same value: DESIGN CHOICE (log 12). -/
def execReadCsr (idx : Nat) (s : State) : Host.Outcome State Fault Refusal :=
  match Csr.ofIndex idx with
  | none   => .next (raiseStatus .invalidParam s)
  | some c =>
    if csrUnspecified s c then .next (finish .ok (Config.freeWord s.draws) { s with draws := s.draws + 1 })
    else .next (finish .ok (csrValue s c) s)

end Sys2Proof.Machine
end

