-- ==== Sys2Proof/Machine/FifoBridge.lean ====
section
/-! DEFINITION. The FIFO byte packer and unpacker PKR (43_fifo_bridge.md): FILL_TX, DRAIN_RX, FIFO_CLEAR. -/

namespace Sys2Proof.Machine

/-- The number of bytes FILL_TX writes: the lesser of the request and the free space (R191). -/
def fillTxCount (len : Nat) (s : State) : Nat := min len s.txFree

/-- The entries that carry the first `n` bytes of a buffer: whole words, then a zero-filled partial word for the tail
(R191). -/
def packedEntries (be : Bool) (m : Memory) (src : Word) (n : Nat) : List Entry :=
  (List.range (n / 4)).map (fun j => { word := pack be (readBuf m src (4 * j) 4), count := 4 }) ++
  (if n % 4 = 0 then []
   else [{ word := pack be (readBuf m src (4 * (n / 4)) (n % 4)), count := n % 4 }])

/-- FILL_TX (R191). -/
def execFillTx (src : Word) (len : Nat) (s : State) : Host.Outcome State Fault Refusal :=
  if nullBuffer src len then .next (raiseStatus .invalidParam s)
  else if s.headerUnsent then .next (raiseStatus .alreadyBusy s)
  else
    let n := fillTxCount len s
    if bufReadable s.cfg src n then
      .next (finish .ok (BitVec.ofNat 32 n) (State.pushTx (packedEntries s.be s.mem src n) s))
    else .next (busError s)

/-- The number of bytes DRAIN_RX reads: the lesser of the level and the capacity (R192). -/
def drainRxCount (remaining : Nat) (s : State) : Nat := min s.rxLevel remaining

/-- The bytes DRAIN_RX takes: four from each whole entry popped, then the first `n mod 4` of one more entry (R192;
log 17). -/
def drainedBytes (be : Bool) (q : List Entry) (n : Nat) : List Byte :=
  (q.take (n / 4)).flatMap (fun e => unpack be e.word 4) ++
  (if n % 4 = 0 then []
   else match q[n / 4]? with
     | some e => (unpack be e.word e.count).take (n % 4)
     | none   => [])

/-- The entries DRAIN_RX leaves: `ceil(n / 4)` are popped (R192). -/
def drainedRest (q : List Entry) (n : Nat) : List Entry := q.drop (ceilDiv n 4)

/-- DRAIN_RX (R192). -/
def execDrainRx (dst : Word) (remaining : Nat) (s : State) : Host.Outcome State Fault Refusal :=
  if nullBuffer dst remaining then .next (raiseStatus .invalidParam s)
  else
    let n := drainRxCount remaining s
    if n = 0 then .next (finish .ok 0 s)
    else if bufWritable s.cfg dst n then
      .next (finish .ok (BitVec.ofNat 32 n)
        { s with
          mem := writeBuf s.mem dst 0 (drainedBytes s.be s.rxq n)
          rxq := drainedRest s.rxq n
          rxInvalidBits := 0 })
    else .next (busError s)

/-- FIFO_CLEAR (R193). -/
def execFifoClear (s : State) : Host.Outcome State Fault Refusal :=
  .next (finish .ok 0
    { s with txq := [], rxq := [], built := { s.built with pos := s.built.len }, rxInvalidBits := 0 })

end Sys2Proof.Machine
end

