-- ==== Sys2Proof/Machine/Framing.lean ====
section
/-! DEFINITION. The framing builder HDR (42_framing.md): SET_HEADER, BUILD_HEADER, FILL_HDR and the header functions of
R152 to R154. -/

namespace Sys2Proof.Machine

/-- L, the un-padded header length in bytes (R152). -/
def headerRaw (cl al db : Nat) : Nat := cl + al + ceilDiv db 8

/-- P, a length padded up to the next multiple of 4 (R152). -/
def headerPadded (l : Nat) : Nat := 4 * ceilDiv l 4

/-- ib, the invalid-bit count (R152). -/
def headerInvalidBits (cl al db : Nat) : Nat := 8 * cl + 8 * al + db

/-- The low `n` bytes of a value, most significant byte first (R153). -/
def msbFirst (v : Word) (n : Nat) : List Byte := (List.range n).map (fun i => lane v (n - 1 - i))

/-- The filler of padding and dummy bytes (R153). -/
def filler : Byte := 0xFF

/-- `layout(CL, AL, DB, cmd, addr)`: P bytes, the command bytes, the address bytes, then the filler (R153). -/
def layout (cl al db : Nat) (cmd : BitVec 16) (addr : Word) : List Byte :=
  msbFirst (cmd.setWidth 32) cl ++ msbFirst addr al ++
    List.replicate (headerPadded (headerRaw cl al db) - cl - al) filler

/-- Each group of four bytes reversed (R154). -/
def reverseGroups : List Byte → List Byte
  | a :: b :: c :: d :: rest => d :: c :: b :: a :: reverseGroups rest
  | short                    => short

/-- The byte-order step `order(be, buf, L, P)`, P the length of buf (R154). -/
def order (be : Bool) (buf : List Byte) (l : Nat) : List Byte :=
  if be then (if l < 4 then (buf.take l).reverse ++ buf.drop l else reverseGroups buf) else buf

/-- SET_HEADER accepts the fields: CL and AL in range and the invalid-bit count in 16 bits (R151). -/
def headerAccepted (cl al db : Nat) : Bool :=
  decide (cl ≤ 2) && decide (al ≤ 4) && decide (headerInvalidBits cl al db ≤ 65535)

/-- SET_HEADER (R151). -/
def execSetHeader (cl al db : Nat) (cmd : BitVec 16) (addr : Word) (s : State) : Host.Outcome State Fault Refusal :=
  if headerAccepted cl al db then
    .next (finish .ok 0
      { s with hdr :=
        { cmd := cmd, addr := addr, cmdLen := BitVec.ofNat 2 cl, addrLen := BitVec.ofNat 3 al
          dummyBits := BitVec.ofNat 16 db } })
  else .next (raiseStatus .invalidParam s)

/-- The header L, P, ib and bytes of the fields a state holds (R152 to R154). -/
def Header.raw (h : Header) : Nat := headerRaw h.cmdLen.toNat h.addrLen.toNat h.dummyBits.toNat
def Header.padded (h : Header) : Nat := headerPadded (Header.raw h)
def Header.invalidBits (h : Header) : Nat := headerInvalidBits h.cmdLen.toNat h.addrLen.toNat h.dummyBits.toNat
def Header.layout (h : Header) : List Byte :=
  Sys2Proof.Machine.layout h.cmdLen.toNat h.addrLen.toNat h.dummyBits.toNat h.cmd h.addr

/-- BUILD_HEADER (R155): builds the header in HDR_BUF and consumes its fields. -/
def execBuildHeader (s : State) : Host.Outcome State Fault Refusal :=
  if s.headerUnsent then .next (raiseStatus .alreadyBusy s)
  else
    let h := s.hdr
    .next (finish .ok (BitVec.ofNat 16 (Header.invalidBits h) ++ BitVec.ofNat 16 (Header.padded h))
      { s with
        built :=
          { buf := Memory.storeLow s.built.buf (order s.be (Header.layout h) (Header.raw h))
            raw := BitVec.ofNat 14 (Header.raw h), len := BitVec.ofNat 14 (Header.padded h), pos := 0 }
        rxInvalidBits := BitVec.ofNat 16 (Header.invalidBits h)
        hdr := Header.zero })

/-- The number of header bytes FILL_HDR pushes (R156). -/
def fillHdrCount (s : State) : Nat := min (s.built.len.toNat - s.built.pos.toNat) s.txFree

/-- The count of every header entry: HDR_RAW when it is below 4, else 4 (R157). -/
def headerEntryCount (b : Built) : Nat := if b.raw.toNat < 4 then b.raw.toNat else 4

/-- The header words from HDR_POS on, `n` bytes of them (R156). -/
def headerEntries (b : Built) (n : Nat) : List Entry :=
  (List.range (n / 4)).map fun j =>
    { word := hdrword (hdrGroup b (b.pos.toNat + 4 * j)), count := headerEntryCount b }

/-- FILL_HDR (R156). -/
def execFillHdr (s : State) : Host.Outcome State Fault Refusal :=
  if s.built.pos = s.built.len then .next (finish .ok 0 s)
  else
    let n := fillHdrCount s
    .next (finish .ok (BitVec.ofNat 32 n)
      (State.pushTx (headerEntries s.built n)
        { s with built := { s.built with pos := BitVec.ofNat 14 (s.built.pos.toNat + n) } }))

end Sys2Proof.Machine
end

