-- ==== Sys2Proof/Machine/Dispatch.lean ====
section
/-! DEFINITION. What each command does: one arm per constructor of Instr (30_encoding.md R97). -/

namespace Sys2Proof.Machine

def exec (i : Instr) (s : State) : Host.Outcome State Fault Refusal :=
  match i with
  | .setHeader cl al db cmd addr => Sys2Proof.Machine.execSetHeader cl al db cmd addr s
  | .setEndian e => Sys2Proof.Machine.execSetEndian e s
  | .buildHeader => Sys2Proof.Machine.execBuildHeader s
  | .fillHdr => Sys2Proof.Machine.execFillHdr s
  | .fillTx src len => Sys2Proof.Machine.execFillTx src len s
  | .drainRx dst remaining => Sys2Proof.Machine.execDrainRx dst remaining s
  | .fifoClear => Sys2Proof.Machine.execFifoClear s
  | .tmrStart timeoutUs clockMhz => Sys2Proof.Machine.execTmrStart timeoutUs clockMhz s
  | .tmrPoll => Sys2Proof.Machine.execTmrPoll s
  | .readCsr idx => Sys2Proof.Machine.execReadCsr idx s

end Sys2Proof.Machine
end

