-- ==== Sys2Proof/Machine/Agents.lean ====
section
/-! DEFINITION. One step of one agent (00_scope.md R4, R10; 60_exceptions.md R265 to R271; 70_reset_and_hazards.md R280,
R299), and a run of such steps. -/

namespace Sys2Proof.Machine

/-- The Controller issues a command (R10): stuck once BUS_FAULT is set (R64, log 9); else the command is decoded and
executed, and one that matches no row ends with ILLEGAL_COMMAND (R99). -/
def issueCommand (c : Command) (s : State) : Host.Outcome State Fault Refusal :=
  if s.busFault then .fault .controllerStuck
  else match decode c with
    | .ok i    => exec i s
    | .error _ => .next (illegalCommand s)

/-- One step of the agent the event names. -/
def agentStep (e : Event) (s : State) : Host.Outcome State Fault Refusal :=
  match e with
  | .command c    => issueCommand c s
  | .shiftOut     => shiftOut s
  | .rxPush w c   => rxPush w c s
  | .setBusy b    => .next (driveBusy b s)
  | .tick         => .next (tickStep s)
  | .blockReset   => .next (resetBlock s)
  | .bufWrite a v => .next (platformWrite a v s)

/-- One outcome after another: the second runs from the next state of the first; a fault or a refusal ends it. -/
def andThen (o : Host.Outcome State Fault Refusal) (f : State → Host.Outcome State Fault Refusal) :
    Host.Outcome State Fault Refusal :=
  match o with
  | .next s    => f s
  | .fault r   => .fault r
  | .refused r => .refused r

/-- The steps of a list of events, one after another, stopping at the first fault or refusal. -/
def runEvents : List Event → State → Host.Outcome State Fault Refusal
  | [], s      => .next s
  | e :: es, s => andThen (agentStep e s) (fun s' => runEvents es s')

/-- The first scheduled event taken off, if there is one. -/
def takeEvent (s : State) : Option (Event × State) :=
  match s.schedule with
  | []      => none
  | e :: es => some (e, { s with schedule := es })

/-- An event put before everything scheduled. -/
def scheduleFirst (e : Event) (s : State) : State := { s with schedule := e :: s.schedule }

end Sys2Proof.Machine
end

