-- ==== Sys2Proof/Machine/Step.lean ====
section
/-! DEFINITION. One step of the model: the agent the schedule names next takes its step (00_scope.md R4, R11; log 1).
With nothing scheduled no agent moves and the state stays as it is (R4, 70_reset_and_hazards.md R281; log 2). -/

namespace Sys2Proof.Machine

def step (s : State) : Host.Outcome State Fault Refusal :=
  match takeEvent s with
  | none         => .next s
  | some (e, s') => agentStep e s'

/-- The command whose bits are the low `nbits` of `w` (every bit above them 0) is the next the Controller issues. -/
def State.withFetchWord (s : State) (nbits w : Nat) : State :=
  scheduleFirst (.command (commandOfBits nbits w)) s

end Sys2Proof.Machine
end

