-- ==== Sys2Proof/Machine/Pseudo.lean ====
section
/-! DEFINITION. The pseudo-commands of 30_encoding.md R101 to R103: Controller loops over the block's commands. What the
other agents do before each command of a loop is an argument, a list of events. The first pass is always made (both loops
test at the bottom); a loop that has used up the passes it was given stops after its last one (log 16). -/

namespace Sys2Proof.Machine

/-- The Controller issues an instruction through the command port. -/
def issue (i : Instr) (s : State) : Host.Outcome State Fault Refusal := issueCommand (encode i) s

/-- Other agents' events, then a command. -/
def issueAfter (gap : List Event) (i : Instr) (s : State) : Host.Outcome State Fault Refusal :=
  andThen (runEvents gap s) (issue i)

/-- One pass of WAIT_IDLE's loop (R101): TMR_POLL, then on with the next pass unless STATUS is not OK or RESULT is 0. -/
def pollPass (gap : List Event) (s : State) (again : State → Host.Outcome State Fault Refusal) :
    Host.Outcome State Fault Refusal :=
  andThen (issueAfter gap .tmrPoll s) fun s₁ => if s₁.status ≠ .ok ∨ s₁.result = 0 then .next s₁ else again s₁

/-- The loop of WAIT_IDLE (R101): the first pass's gap, and those of the passes that may follow. -/
def pollLoop : List Event → List (List Event) → State → Host.Outcome State Fault Refusal
  | gap, [], s           => pollPass gap s .next
  | gap, gap' :: gaps, s => pollPass gap s (pollLoop gap' gaps)

/-- WAIT_IDLE timeout_us=T, clock_mhz=C (R101). -/
def waitIdle (timeoutUs clockMhz : Nat) (gap : List Event) (gaps : List (List Event)) (s : State) :
    Host.Outcome State Fault Refusal :=
  andThen (issue (.tmrStart timeoutUs clockMhz) s) fun s₁ =>
    if s₁.status = .ok then pollLoop gap gaps s₁ else .next s₁

/-- What the other agents do before each of the three commands of a pass of SEND_HEADER's loop. -/
structure PassGaps where
  beforeFill : List Event
  beforePos  : List Event
  beforeLen  : List Event
  deriving DecidableEq, Repr

/-- One pass of SEND_HEADER's loop (R102): FILL_HDR; then HDR_POS (index 0x0006) and HDR_LEN (index 0x0005) read with
READ_CSR, and on with the next pass unless STATUS is not OK or the two are equal. -/
def headerPass (g : PassGaps) (s : State) (again : State → Host.Outcome State Fault Refusal) :
    Host.Outcome State Fault Refusal :=
  andThen (issueAfter g.beforeFill .fillHdr s) fun s₁ =>
    if s₁.status ≠ .ok then .next s₁
    else
      andThen (issueAfter g.beforePos (.readCsr 0x0006) s₁) fun s₂ =>
        andThen (issueAfter g.beforeLen (.readCsr 0x0005) s₂) fun s₃ =>
          if s₂.result = s₃.result then .next s₃ else again s₃

/-- The loop of SEND_HEADER (R102): the first pass, and those that may follow. -/
def headerLoop : PassGaps → List PassGaps → State → Host.Outcome State Fault Refusal
  | g, [], s       => headerPass g s .next
  | g, g' :: gs, s => headerPass g s (headerLoop g' gs)

/-- SEND_HEADER (R102). -/
def sendHeader (g : PassGaps) (gs : List PassGaps) (s : State) : Host.Outcome State Fault Refusal :=
  andThen (issue .buildHeader s) fun s₁ => if s₁.status = .ok then headerLoop g gs s₁ else .next s₁

/-- CLEAR_HEADER (R103): SET_HEADER with every field 0. -/
def clearHeader : Instr := .setHeader 0 0 0 0 0

end Sys2Proof.Machine
end

