-- ==== Sys2Proof/Machine/System.lean ====
section
/-! DEFINITION. Several copies of the block (00_scope.md R5 NUM_INSTANCES, 10_state.md R42, 60_exceptions.md R263). Each
copy is a `State` of its own with its own command port and Shift Engine; buffer memory is the platform's and is the same
for all; the Tick Counter may be shared (log 14). -/

namespace Sys2Proof.Machine

/-- The copies of the block on one platform. -/
structure System where
  /-- All copies read one Tick Counter (R42: "The Tick Counter may be shared"). -/
  sharedTick : Bool
  blocks     : List State
  deriving DecidableEq, Repr

/-- What another copy sees of a step that left one copy at `t`: buffer memory, and TICK if it is shared. -/
def seeShared (sharedTick : Bool) (t s : State) : State :=
  { s with mem := t.mem, tick := if sharedTick then t.tick else s.tick }

/-- The system after copy `k` stepped to `t`. -/
def System.update (k : Nat) (t : State) (sys : System) : System :=
  { sys with blocks := sys.blocks.mapIdx fun j s => if j = k then t else seeShared sys.sharedTick t s }

/-- One step of copy `k` (R42, R263). -/
def System.stepAt (k : Nat) (sys : System) : Host.Outcome System Fault Refusal :=
  match sys.blocks[k]? with
  | none   => .refused .noSuchBlock
  | some s =>
    match step s with
    | .next t    => .next (System.update k t sys)
    | .fault r   => .fault r
    | .refused r => .refused r

/-- `n` copies of the block at launch, n = NUM_INSTANCES (R5, R42). -/
def System.launch (sharedTick : Bool) (s : State) : System :=
  { sharedTick := sharedTick, blocks := List.replicate s.cfg.numInstances s }

end Sys2Proof.Machine
end

