-- ==== Sys2Proof/Safety.lean ====
section
/-! DEFINITION. What counts as a safe run, in the terms the statements use: the invariants every step keeps (10_state.md
R41 and what other rules say of registers), the launch premise (70_reset_and_hazards.md R296), the marks (R37), and what
a list of events holds. -/

namespace Sys2Proof.Machine

/-- Only the last entry of a FIFO is partial (R32). -/
abbrev onlyLastPartial (q : List Entry) : Prop := ∀ e ∈ q.dropLast, e.count = 4

/-- Every entry carries 1 to 4 bytes (R30). -/
abbrev countsLegal (q : List Entry) : Prop := ∀ e ∈ q, 1 ≤ e.count ∧ e.count ≤ 4

/-- The invariants of R41 and the bounds other rules give the same registers. -/
structure Invariants (s : State) : Prop where
  /-- R5. -/
  cfg        : s.cfg.Legal
  /-- R41, R26. -/
  cmdLen     : s.hdr.cmdLen.toNat ≤ 2
  addrLen    : s.hdr.addrLen.toNat ≤ 4
  bits       : 8 * s.hdr.cmdLen.toNat + 8 * s.hdr.addrLen.toNat + s.hdr.dummyBits.toNat ≤ 65535
  /-- R41, R28. -/
  posLe      : s.built.pos.toNat ≤ s.built.len.toNat
  lenLe      : s.built.len.toNat ≤ 8192
  posMod     : s.built.pos.toNat % 4 = 0
  lenMod     : s.built.len.toNat % 4 = 0
  lenRaw     : s.built.len.toNat = 4 * ceilDiv s.built.raw.toNat 4
  /-- R41, R31, R32, R30. -/
  txLevel    : s.txLevel ≤ s.cfg.fifoDepth
  rxLevel    : s.rxLevel ≤ s.cfg.fifoDepth
  rxTail     : onlyLastPartial s.rxq
  txCounts   : countsLegal s.txq
  rxCounts   : countsLegal s.rxq
  /-- R41, R35, R36. -/
  tick       : s.tick.toNat < s.cfg.tickReload
  startTick  : s.tmr.startTick.toNat < s.cfg.tickReload
  prevTick   : s.tmr.prevTick.toNat < s.cfg.tickReload
  cross      : s.tmr.cross.toNat ≤ s.tmr.budget.toNat
  /-- R124: "Because TMR_BUDGET < R". -/
  direct     : s.tmr.mode = .direct → s.tmr.budget.toNat < s.cfg.tickReload
  /-- R252, R256. -/
  result     : s.status ≠ .ok → s.result = 0
  notFailed  : s.status ≠ .failed
  /-- The canonical form of buffer memory (2^32 bytes, R60) and of HDR_BUF (8192 bytes, R28). -/
  mem        : Memory.wf s.mem
  memBelow   : Memory.below (2 ^ 32) s.mem
  hdrBuf     : Memory.wf s.built.buf
  hdrBelow   : Memory.below 8192 s.built.buf

/-- No model mark is set (R37: "every claim about a run takes "no mark set" as a premise"). -/
abbrev marksClear (s : State) : Prop := s.rxOverflow = false ∧ s.busFault = false

/-- The launch premise `clean_entry` (R296): the reset state of R280 (HDR_BUF any bytes, R40), marks clear, TICK any value
below R, BUSY any value, buffer memory any content, and any legal parameters. -/
structure CleanEntry (s : State) : Prop where
  cfg    : s.cfg.Legal
  reset  : resetBlock s = { s with built := { s.built with buf := [] } }
  hdrBuf : Memory.wf s.built.buf ∧ Memory.below 8192 s.built.buf
  marks  : marksClear s
  tick   : s.tick.toNat < s.cfg.tickReload
  mem    : Memory.wf s.mem ∧ Memory.below (2 ^ 32) s.mem

/-- An event of an environment agent: the Shift Engine or the Tick Counter (R265). -/
def Event.environment : Event → Bool
  | .shiftOut | .rxPush _ _ | .setBusy _ | .tick   => true
  | .command _ | .blockReset | .bufWrite _ _       => false

/-- The event issues a command that decodes to a SET_HEADER. -/
def Event.setsHeader : Event → Bool
  | .command c =>
    match decode c with
    | .ok (.setHeader _ _ _ _ _) => true
    | _                          => false
  | _ => false

/-- The event issues a command that decodes to a TMR_START, or resets the block: what may end a wait's outcome (R128). -/
def Event.restartsTimer : Event → Bool
  | .command c =>
    match decode c with
    | .ok (.tmrStart _ _) => true
    | _                   => false
  | .blockReset => true
  | _           => false

/-- E, the number of Tick Counter increments in a list of events (R126). -/
def tickCount (es : List Event) : Nat := es.count .tick

/-- Every byte of buffer memory reads as before. -/
abbrev sameMemory (s t : State) : Prop := ∀ a, Memory.read t.mem a = Memory.read s.mem a

/-- The parameters, the environment's inputs, the mark RX_OVERFLOW and what is scheduled are as before. -/
abbrev sameSurroundings (s t : State) : Prop :=
  t.cfg = s.cfg ∧ t.tick = s.tick ∧ t.busy = s.busy ∧ t.rxOverflow = s.rxOverflow ∧ t.schedule = s.schedule

/-- An event of an environment agent that leaves a set BUSY set (R126 (b): "If BUSY stays 1"). -/
def Event.keepsBusy : Event → Bool
  | .setBusy b                                 => b
  | .shiftOut | .rxPush _ _ | .tick            => true
  | .command _ | .blockReset | .bufWrite _ _   => false

/-- Everything the other agents do in a pass of SEND_HEADER's loop. -/
def PassGaps.events (g : PassGaps) : List Event := g.beforeFill ++ g.beforePos ++ g.beforeLen

end Sys2Proof.Machine
end

