-- ==== Sys2Proof/Certificates/Slice0/Obligations.lean ====
section
/-! DEFINITION. The statements about SPIM-FB that are to be proved. Each docstring names the rules of spec/ it formalises;
a "spec" value that is the model's own choice is named with its log entry. -/

open Sys2Proof Sys2Proof.Machine

/-! ### Encoding (30_encoding.md) -/

/-- Decoding an encoded well-formed instruction gives it back, every operand at every value the encoding admits (R90 to
R97). -/
def Obligations.DecodeOfEncode : Prop :=
  ∀ i : Instr, i.wf = true → decode (encode i) = .ok i

/-- Every word that decodes is the command word of the instruction it decodes to, and that instruction is well formed: no
bit of CW is dropped or ignored (R91 to R94, R97). -/
def Obligations.EncodeOfDecode : Prop :=
  ∀ (c : Command) (i : Instr), decode c = .ok i → i.wf = true ∧ (encode i).cw = c.cw

/-- R98: at most one row of the opcode map matches a CW, and the decoder, total, rejects a CW matching no row. -/
def Obligations.OneRowAtMostSelects : Prop :=
  (∀ (cw : Word) (r r' : Row), r ∈ opcodeRows → r' ∈ opcodeRows → r.selects cw = true → r'.selects cw = true → r = r') ∧
  (∀ c : Command, (∀ r ∈ opcodeRows, r.selects c.cw = false) → ∃ e, decode c = .error e)

/-- R99: the illegal command words, by opcode and reserved bits, and their one outcome. -/
def Obligations.IllegalCommandWordOutcome : Prop :=
  ∀ c : Command,
    ((∃ e, decode c = .error e) ↔
      (c.cw.toNat % 2 ^ 8 = 0 ∨ 0x0B ≤ c.cw.toNat % 2 ^ 8 ∨
       (c.cw.toNat % 2 ^ 8 = 0x01 ∧ c.cw.toNat / 2 ^ 13 % 2 ^ 3 ≠ 0) ∨
       (c.cw.toNat % 2 ^ 8 = 0x02 ∧ c.cw.toNat / 2 ^ 9 ≠ 0) ∨
       (0x03 ≤ c.cw.toNat % 2 ^ 8 ∧ c.cw.toNat % 2 ^ 8 ≤ 0x09 ∧ c.cw.toNat / 2 ^ 8 ≠ 0) ∨
       (c.cw.toNat % 2 ^ 8 = 0x0A ∧ c.cw.toNat / 2 ^ 24 ≠ 0))) ∧
    (∀ (s : State) (e : Reject), decode c = .error e → s.busFault = false →
      issueCommand c s = .next { s with status := .illegalCommand, result := 0 })

/-- R95: which command uses which operand word, and that an unused operand word, or OPA[31:16] of SET_HEADER, may hold any
value. -/
def Obligations.OperandUse : Prop :=
  ∀ cw a b a' b' : Word,
    (selectOp cw = some .setHeader → a.toNat % 2 ^ 16 = a'.toNat % 2 ^ 16 → decode ⟨cw, a, b⟩ = decode ⟨cw, a', b⟩) ∧
    (selectOp cw = some .setHeader →
      ∃ cl al db cmd, decode ⟨cw, a, b⟩ = .ok (.setHeader cl al db cmd b) ∧ cmd.toNat = a.toNat % 2 ^ 16) ∧
    (selectOp cw = some .fillTx → decode ⟨cw, a, b⟩ = .ok (.fillTx a b.toNat)) ∧
    (selectOp cw = some .drainRx → decode ⟨cw, a, b⟩ = .ok (.drainRx a b.toNat)) ∧
    (selectOp cw = some .tmrStart → decode ⟨cw, a, b⟩ = .ok (.tmrStart a.toNat b.toNat)) ∧
    (∀ op ∈ [Op.setEndian, .buildHeader, .fillHdr, .fifoClear, .tmrPoll, .readCsr],
      selectOp cw = some op → decode ⟨cw, a, b⟩ = decode ⟨cw, a', b'⟩)

/-- Words written out from the formats of R91 to R94 decode to the commands they stand for, and two illegal words are
rejected; R99 gives no names of reasons, the two names are the model's choice (log 15). -/
def Obligations.SampleWordsDecode : Prop :=
  decode ⟨0x00080D01, 0x03, 0x10⟩ = .ok (.setHeader 1 3 8 0x03 0x10) ∧
  decode ⟨0xFFCF1201, 0x12345678, 0xCAFEBABE⟩ = .ok (.setHeader 2 4 65487 0x5678 0xCAFEBABE) ∧
  decode ⟨0x00000102, 0, 0⟩ = .ok (.setEndian true) ∧
  decode ⟨0x00000005, 0x2000, 10⟩ = .ok (.fillTx 0x2000 10) ∧
  decode ⟨0x00000008, 500, 1⟩ = .ok (.tmrStart 500 1) ∧
  decode ⟨0x0010010A, 0, 0⟩ = .ok (.readCsr 0x1001) ∧
  decode ⟨0x00002001, 5, 5⟩ = .error .reservedBits ∧
  decode ⟨0x0000000B, 5, 5⟩ = .error .unassignedOpcode

/-! ### One step (00_scope.md R4, R10, R11) -/

/-- When the next event is a command that decodes to i and the Controller is not stuck, step is exec of i, at the state with
that command taken off the schedule; a word placed by withFetchWord is that next command (R10, R11). That the waiting
commands are a schedule held in the state is the model's choice (log 1), and so is withFetchWord, which stands for the
Controller choosing its next command (log 3). -/
def Obligations.StepRunsDecodedCommand : Prop :=
  (∀ (s : State) (c : Command) (rest : List Event) (i : Instr),
    s.schedule = .command c :: rest → s.busFault = false → decode c = .ok i →
    step s = exec i { s with schedule := rest }) ∧
  (∀ (s : State) (nbits w : Nat) (i : Instr),
    decodeTableWord nbits w = some i → s.busFault = false → step (s.withFetchWord nbits w) = exec i s)

/-- The next event, whichever agent's it is, is the step; with nothing scheduled nothing changes (log 1, log 2: the
model's choice of how an interleaving of R4 is written down). -/
def Obligations.StepRunsScheduledEvent : Prop :=
  (∀ (s : State) (e : Event) (rest : List Event),
    s.schedule = e :: rest → step s = agentStep e { s with schedule := rest }) ∧
  (∀ s : State, s.schedule = [] → step s = .next s)

/-- R64: a buffer access the platform does not admit sets BUS_FAULT and writes no STATUS; after it the Controller is
stuck. That nothing else changes is the model's choice (log 9). -/
def Obligations.BusFaultSticksController : Prop :=
  (∀ (src : Word) (len : Nat) (s : State),
    ¬ (0 < len ∧ src = 0) → ¬ s.built.pos.toNat < s.built.len.toNat →
    (∃ i, i < min len (s.cfg.fifoDepth - 4 * s.txq.length) ∧ admitsRead s.cfg ((src.toNat + i) % 2 ^ 32) = false) →
    exec (.fillTx src len) s = .next { s with busFault := true }) ∧
  (∀ (dst : Word) (remaining : Nat) (s : State),
    ¬ (0 < remaining ∧ dst = 0) →
    (∃ i, i < min s.rxLevel remaining ∧ admitsWrite s.cfg ((dst.toNat + i) % 2 ^ 32) = false) →
    exec (.drainRx dst remaining) s = .next { s with busFault := true }) ∧
  (∀ (c : Command) (s : State), s.busFault = true → issueCommand c s = .fault .controllerStuck)

/-! ### The framing builder (42_framing.md) -/

/-- R151: SET_HEADER, its encoding and its two outcomes. -/
def Obligations.SetHeaderResult : Prop :=
  (∀ c : Command, c.cw &&& 0x0000E0FF = 0x00000001 →
    decode c = .ok (.setHeader (c.cw.toNat / 2 ^ 8 % 2 ^ 2) (c.cw.toNat / 2 ^ 10 % 2 ^ 3) (c.cw.toNat / 2 ^ 16)
      (c.opa.setWidth 16) c.opb)) ∧
  (∀ (cl al db : Nat) (cmd : BitVec 16) (addr : Word) (s : State),
    (cl ≤ 2 ∧ al ≤ 4 ∧ 8 * cl + 8 * al + db ≤ 65535 →
      ∃ h : Header, exec (.setHeader cl al db cmd addr) s = .next { s with hdr := h, status := .ok, result := 0 } ∧
        h.cmd = cmd ∧ h.addr = addr ∧ h.cmdLen.toNat = cl ∧ h.addrLen.toNat = al ∧ h.dummyBits.toNat = db) ∧
    (2 < cl ∨ 4 < al ∨ 65535 < 8 * cl + 8 * al + db →
      exec (.setHeader cl al db cmd addr) s = .next { s with status := .invalidParam, result := 0 }))

/-- R152: L, P and ib, and their bounds under the condition of R26. -/
def Obligations.HeaderLengths : Prop :=
  ∀ cl al db : Nat, 8 * cl + 8 * al + db ≤ 65535 →
    headerRaw cl al db = cl + al + (db + 7) / 8 ∧
    headerPadded (headerRaw cl al db) = 4 * ((headerRaw cl al db + 3) / 4) ∧
    headerInvalidBits cl al db = 8 * cl + 8 * al + db ∧ headerInvalidBits cl al db < 2 ^ 16 ∧
    headerRaw cl al db = (headerInvalidBits cl al db + 7) / 8 ∧
    headerRaw cl al db ≤ 8192 ∧ headerPadded (headerRaw cl al db) ≤ 8192 ∧
    headerInvalidBits cl al db ≤ 8 * headerRaw cl al db ∧
    (1 ≤ headerRaw cl al db → 8 * (headerRaw cl al db - 1) < headerInvalidBits cl al db)

/-- R153: the layout has P bytes; byte by byte the command value, the address value, most significant byte first, and the
filler. -/
def Obligations.LayoutBytes : Prop :=
  ∀ (cl al db : Nat) (cmd : BitVec 16) (addr : Word), cl ≤ 2 → al ≤ 4 →
    (layout cl al db cmd addr).length = headerPadded (headerRaw cl al db) ∧
    (∀ i, i < cl →
      ((layout cl al db cmd addr)[i]?).map (·.toNat) = some (cmd.toNat / 2 ^ (8 * (cl - 1 - i)) % 256)) ∧
    (∀ i, i < al →
      ((layout cl al db cmd addr)[cl + i]?).map (·.toNat) = some (addr.toNat / 2 ^ (8 * (al - 1 - i)) % 256)) ∧
    (∀ i, cl + al ≤ i → i < headerPadded (headerRaw cl al db) → (layout cl al db cmd addr)[i]? = some 0xFF)

/-- R154: the byte-order step, byte by byte. -/
def Obligations.OrderBytes : Prop :=
  ∀ (buf : List Byte) (l : Nat), buf.length = 4 * ((l + 3) / 4) →
    order false buf l = buf ∧ (order true buf l).length = buf.length ∧
    (l < 4 → (∀ i, i < l → (order true buf l)[i]? = buf[l - 1 - i]?) ∧
      (∀ i, l ≤ i → (order true buf l)[i]? = buf[i]?)) ∧
    (4 ≤ l → ∀ g i, i < 4 → 4 * g < buf.length → (order true buf l)[4 * g + i]? = buf[4 * g + (3 - i)]?)

/-- R155: BUILD_HEADER. Bytes of HDR_BUF at P and above keep what they held. -/
def Obligations.BuildHeaderResult : Prop :=
  (∀ a b : Word, decode ⟨0x00000003, a, b⟩ = .ok .buildHeader) ∧
  (∀ s : State, s.built.pos.toNat < s.built.len.toNat →
    exec .buildHeader s = .next { s with status := .alreadyBusy, result := 0 }) ∧
  (∀ (s : State) (cl al db : Nat), Invariants s → ¬ s.built.pos.toNat < s.built.len.toNat →
    cl = s.hdr.cmdLen.toNat → al = s.hdr.addrLen.toNat → db = s.hdr.dummyBits.toNat →
    ∃ (b : Built) (ib : BitVec 16) (r : Word),
      exec .buildHeader s = .next
        { s with built := b, rxInvalidBits := ib, hdr := ⟨0, 0, 0, 0, 0⟩, status := .ok, result := r } ∧
      ib.toNat = 8 * cl + 8 * al + db ∧
      r.toNat = ib.toNat * 65536 + b.len.toNat ∧
      b.raw.toNat = headerRaw cl al db ∧ b.len.toNat = headerPadded (headerRaw cl al db) ∧ b.pos = 0 ∧
      (∀ i, i < b.len.toNat →
        some (Memory.read b.buf i) =
          (order s.be (layout cl al db s.hdr.cmd s.hdr.addr) (headerRaw cl al db))[i]?) ∧
      (∀ i, b.len.toNat ≤ i → Memory.read b.buf i = Memory.read s.built.buf i))

/-- R156, R157: FILL_HDR. Entry j is the little-endian word (R69) of bytes HDR_POS + 4j to HDR_POS + 4j + 3, with the
count of R157. -/
def Obligations.FillHdrResult : Prop :=
  (∀ a b : Word, decode ⟨0x00000004, a, b⟩ = .ok .fillHdr) ∧
  (∀ s : State, s.built.pos = s.built.len → exec .fillHdr s = .next { s with status := .ok, result := 0 }) ∧
  (∀ (s : State) (n : Nat), Invariants s → s.built.pos ≠ s.built.len →
    n = min (s.built.len.toNat - s.built.pos.toNat) (s.cfg.fifoDepth - 4 * s.txq.length) →
    ∃ (es : List Entry) (p : BitVec 14) (r : Word),
      exec .fillHdr s = .next
        { s with txq := s.txq ++ es, built := { s.built with pos := p }, status := .ok, result := r } ∧
      p.toNat = s.built.pos.toNat + n ∧ r.toNat = n ∧ n % 4 = 0 ∧ es.length = n / 4 ∧
      ∀ (j : Nat) (e : Entry), es[j]? = some e →
        e.word.toNat =
          (Memory.read s.built.buf (s.built.pos.toNat + 4 * j)).toNat +
          (Memory.read s.built.buf (s.built.pos.toNat + 4 * j + 1)).toNat * 2 ^ 8 +
          (Memory.read s.built.buf (s.built.pos.toNat + 4 * j + 2)).toNat * 2 ^ 16 +
          (Memory.read s.built.buf (s.built.pos.toNat + 4 * j + 3)).toNat * 2 ^ 24 ∧
        e.count = if s.built.raw.toNat < 4 then s.built.raw.toNat else 4)

/-- R159: the bytes of the entries FILL_HDR pushes are the natural layout's, whatever CFG.BE is: any chunk of a header of
four bytes or more, the first L bytes of a shorter one; so a header that fits the free space at once is sent whole. -/
def Obligations.HeaderByteSequence : Prop :=
  ∀ (s s₁ s₂ s₃ : State) (lay : List Byte) (l : Nat), Invariants s →
    lay = layout s.hdr.cmdLen.toNat s.hdr.addrLen.toNat s.hdr.dummyBits.toNat s.hdr.cmd s.hdr.addr →
    l = headerRaw s.hdr.cmdLen.toNat s.hdr.addrLen.toNat s.hdr.dummyBits.toNat →
    exec .buildHeader s = .next s₁ → s₁.status = .ok →
    Invariants s₂ → s₂.be = s.be → s₂.built.buf = s₁.built.buf → s₂.built.raw = s₁.built.raw → s₂.built.len = s₁.built.len →
    exec .fillHdr s₂ = .next s₃ →
    ∃ es, s₃.txq = s₂.txq ++ es ∧
      (4 ≤ l → entriesBytes s.be es =
        (lay.drop s₂.built.pos.toNat).take (s₃.built.pos.toNat - s₂.built.pos.toNat)) ∧
      (l < 4 → entriesBytes s.be es = if s₃.built.pos = s₂.built.pos then [] else lay.take l) ∧
      (s₂.built.pos = 0 → s₂.built.len.toNat ≤ s₂.txFree →
        s₃.built.pos = s₃.built.len ∧ entriesBytes s.be es = if l < 4 then lay.take l else lay)

/-- R158: once a header is built, every later BUILD_HEADER with no SET_HEADER between builds the empty header, whatever
else happens. -/
def Obligations.HeaderBuiltExactlyOnce : Prop :=
  ∀ (s s₁ s₂ t : State) (es : List Event),
    exec .buildHeader s = .next s₁ → s₁.status = .ok →
    (∀ e ∈ es, e.setsHeader = false) → runEvents es s₁ = .next s₂ →
    exec .buildHeader s₂ = .next t → t.status = .ok →
    t.built.raw = 0 ∧ t.built.len = 0 ∧ t.built.pos = 0 ∧ t.rxInvalidBits = 0 ∧ t.result = 0 ∧
    (∀ a, Memory.read t.built.buf a = Memory.read s₂.built.buf a)

/-- Nothing but HDR_BUF's own bytes at and above HDR_LEN depends on them: two states that differ only there run alike (R28:
"bytes at HDR_LEN and above are unspecified"). A READ_CSR of such bytes gives a free value, drawn by a count that is equal in
the two, so that it is the same in both is the model's choice (log 12). -/
def Obligations.StaleHeaderBytesUnobservable : Prop :=
  ∀ (i : Instr) (s t : State) (m : Memory), Invariants s → exec i s = .next t →
    (∀ a, a < s.built.len.toNat → Memory.read m a = Memory.read s.built.buf a) →
    ∃ m', exec i { s with built := { s.built with buf := m } } = .next { t with built := { t.built with buf := m' } } ∧
      ∀ a, a < t.built.len.toNat → Memory.read m' a = Memory.read t.built.buf a

/-! ### Byte order (20_memory.md) -/

/-- R66: where `pack` puts each byte. -/
def Obligations.PackLanes : Prop :=
  ∀ (b : List Byte) (k : Nat), b.length = k → 1 ≤ k → k ≤ 4 →
    (∀ i, i < k → b[i]? = some (lane (pack false b) i)) ∧
    (∀ i, i < k → b[i]? = some (lane (pack true b) (k - 1 - i))) ∧
    (∀ (be : Bool) (j : Nat), k ≤ j → lane (pack be b) j = 0)

/-- R67, R68: of any 32-bit word, unpack gives k bytes, byte i from lane i (little-endian) or lane k-1-i (big-endian), and
ignores lanes k to 3; so it gives back what pack packed. -/
def Obligations.UnpackOfPack : Prop :=
  (∀ (w : Word) (k : Nat), 1 ≤ k → k ≤ 4 →
    (∀ be, (unpack be w k).length = k) ∧
    (∀ i, i < k → ((unpack false w k)[i]?).map (·.toNat) = some (w.toNat / 2 ^ (8 * i) % 256)) ∧
    (∀ i, i < k → ((unpack true w k)[i]?).map (·.toNat) = some (w.toNat / 2 ^ (8 * (k - 1 - i)) % 256)) ∧
    (∀ (be : Bool) (w' : Word), w'.toNat % 2 ^ (8 * k) = w.toNat % 2 ^ (8 * k) → unpack be w' k = unpack be w k)) ∧
  (∀ (be : Bool) (k : Nat) (b : List Byte), 1 ≤ k → k ≤ 4 → b.length = k → unpack be (pack be b) k = b)

/-! ### The FIFO bridge (43_fifo_bridge.md) -/

/-- R191: FILL_TX, its three outcomes on a buffer the platform admits. -/
def Obligations.FillTxResult : Prop :=
  (∀ a b : Word, decode ⟨0x00000005, a, b⟩ = .ok (.fillTx a b.toNat)) ∧
  (∀ (src : Word) (len : Nat) (s : State), 0 < len → src = 0 →
    exec (.fillTx src len) s = .next { s with status := .invalidParam, result := 0 }) ∧
  (∀ (src : Word) (len : Nat) (s : State), ¬ (0 < len ∧ src = 0) → s.built.pos.toNat < s.built.len.toNat →
    exec (.fillTx src len) s = .next { s with status := .alreadyBusy, result := 0 }) ∧
  (∀ (src : Word) (len n : Nat) (s : State), Invariants s → ¬ (0 < len ∧ src = 0) →
    ¬ s.built.pos.toNat < s.built.len.toNat →
    n = min len (s.cfg.fifoDepth - 4 * s.txq.length) →
    (∀ i, i < n → admitsRead s.cfg ((src.toNat + i) % 2 ^ 32) = true) →
    ∃ (es : List Entry) (r : Word),
      exec (.fillTx src len) s = .next { s with txq := s.txq ++ es, status := .ok, result := r } ∧
      r.toNat = n ∧ es.length = (n + 3) / 4 ∧
      ∀ (j : Nat) (e : Entry), es[j]? = some e →
        e.count = min 4 (n - 4 * j) ∧
        e.word = pack s.be
          ((List.range e.count).map fun i => Memory.read s.mem ((src.toNat + (4 * j + i)) % 2 ^ 32)))

/-- The byte sequence of the entries FILL_TX pushes is the source buffer's, in either byte order (R68, R70, R191). -/
def Obligations.FillTxCarriesBufferBytes : Prop :=
  ∀ (src : Word) (len : Nat) (s t : State), Invariants s →
    exec (.fillTx src len) s = .next t → t.status = .ok → t.busFault = false →
    ∃ es, t.txq = s.txq ++ es ∧
      entriesBytes s.be es = (List.range t.result.toNat).map fun i => Memory.read s.mem ((src.toNat + i) % 2 ^ 32)

/-- R192: DRAIN_RX. The bytes written are the first n of the byte sequence of RXQ, every other byte of memory is as
before, and ceil(n / 4) entries are popped. -/
def Obligations.DrainRxResult : Prop :=
  (∀ a b : Word, decode ⟨0x00000006, a, b⟩ = .ok (.drainRx a b.toNat)) ∧
  (∀ (dst : Word) (remaining : Nat) (s : State), 0 < remaining → dst = 0 →
    exec (.drainRx dst remaining) s = .next { s with status := .invalidParam, result := 0 }) ∧
  (∀ (dst : Word) (remaining : Nat) (s : State), ¬ (0 < remaining ∧ dst = 0) → min s.rxLevel remaining = 0 →
    exec (.drainRx dst remaining) s = .next { s with status := .ok, result := 0 }) ∧
  (∀ (dst : Word) (remaining n : Nat) (s : State), Invariants s → ¬ (0 < remaining ∧ dst = 0) →
    n = min s.rxLevel remaining → n ≠ 0 →
    (∀ i, i < n → admitsWrite s.cfg ((dst.toNat + i) % 2 ^ 32) = true) →
    ∃ (m : Memory) (r : Word),
      exec (.drainRx dst remaining) s = .next
        { s with mem := m, rxq := s.rxq.drop ((n + 3) / 4), rxInvalidBits := 0, status := .ok, result := r } ∧
      r.toNat = n ∧
      (∀ i, i < n → some (Memory.read m ((dst.toNat + i) % 2 ^ 32)) = (entriesBytes s.be s.rxq)[i]?) ∧
      (∀ a, (∀ i, i < n → a ≠ (dst.toNat + i) % 2 ^ 32) → Memory.read m a = Memory.read s.mem a))

/-- R195: for n bytes at most RX_LEVEL, RXQ begins with n / 4 full entries and, for a tail, one more with at least the
bytes asked of it; and those are the entries DRAIN_RX pops, ceil(n / 4) of them, for n the lesser of RX_LEVEL and its
capacity. -/
def Obligations.DrainPopsExpectedEntries : Prop :=
  (∀ (s : State) (n : Nat), Invariants s → n ≤ s.rxLevel →
    n / 4 ≤ s.rxq.length ∧
    (∀ (j : Nat) (e : Entry), j < n / 4 → s.rxq[j]? = some e → e.count = 4) ∧
    (n % 4 ≠ 0 → ∃ e, s.rxq[n / 4]? = some e ∧ n % 4 ≤ e.count)) ∧
  (∀ (dst : Word) (remaining n : Nat) (s : State), Invariants s → ¬ (0 < remaining ∧ dst = 0) →
    n = min s.rxLevel remaining → (∀ i, i < n → admitsWrite s.cfg ((dst.toNat + i) % 2 ^ 32) = true) →
    ∃ (t : State) (popped : List Entry),
      exec (.drainRx dst remaining) s = .next t ∧ s.rxq = popped ++ t.rxq ∧ popped.length = (n + 3) / 4 ∧
      (∀ (j : Nat) (e : Entry), j < n / 4 → popped[j]? = some e → e.count = 4) ∧
      (n % 4 ≠ 0 → ∃ e, popped[n / 4]? = some e ∧ n % 4 ≤ e.count))

/-- R193: FIFO_CLEAR. -/
def Obligations.FifoClearResult : Prop :=
  (∀ a b : Word, decode ⟨0x00000007, a, b⟩ = .ok .fifoClear) ∧
  (∀ s : State, exec .fifoClear s = .next
    { s with txq := [], rxq := [], built := { s.built with pos := s.built.len }, rxInvalidBits := 0
             status := .ok, result := 0 })

/-- R194: no command lets the transmit FIFO overflow, and FILL_TX and FILL_HDR push at most a quarter of the free bytes. -/
def Obligations.TransmitFifoNeverOverflows : Prop :=
  ∀ (i : Instr) (s t : State), Invariants s → exec i s = .next t →
    4 * t.txq.length ≤ t.cfg.fifoDepth ∧
    t.txq.length - s.txq.length ≤ (s.cfg.fifoDepth - 4 * s.txq.length) / 4

/-- R196: one round of the loopback round trip, in either byte order: what FILL_TX took from a buffer DRAIN_RX writes to
the other, byte for byte, with nothing lost and no overflow. That memory still admits at the drain what it admitted at the
start is the model's choice (log 5). -/
def Obligations.LoopbackRoundTrip : Prop :=
  ∀ (src dst : Word) (len remaining n : Nat) (s : State), Invariants s →
    s.cfg.loopback = true → s.txq = [] → s.rxq = [] → ¬ s.built.pos.toNat < s.built.len.toNat →
    src ≠ 0 → dst ≠ 0 → n = min len s.cfg.fifoDepth → n ≤ remaining →
    (∀ i, i < n → admitsRead s.cfg ((src.toNat + i) % 2 ^ 32) = true) →
    (∀ i, i < n → admitsWrite s.cfg ((dst.toNat + i) % 2 ^ 32) = true) →
    ∃ s₁ s₂ s₃ : State,
      exec (.fillTx src len) s = .next s₁ ∧
      runEvents (List.replicate s₁.txq.length .shiftOut) s₁ = .next s₂ ∧
      exec (.drainRx dst remaining) s₂ = .next s₃ ∧
      s₁.status = .ok ∧ s₁.result.toNat = n ∧ s₃.status = .ok ∧ s₃.result.toNat = n ∧
      s₃.txq = [] ∧ s₃.rxq = [] ∧ s₃.rxOverflow = s.rxOverflow ∧ s₃.busFault = s.busFault ∧
      ∀ i, i < n →
        Memory.read s₃.mem ((dst.toNat + i) % 2 ^ 32) = Memory.read s.mem ((src.toNat + i) % 2 ^ 32)

/-! ### Configuration and register access (44_control.md, 10_state.md R38) -/

/-- R230: SET_ENDIAN. -/
def Obligations.SetEndianResult : Prop :=
  (∀ c : Command, c.cw &&& 0xFFFFFEFF = 0x00000002 → decode c = .ok (.setEndian (c.cw.getLsbD 8))) ∧
  (∀ (e : Bool) (s : State), (s.txq ≠ [] ∨ s.rxq ≠ [] ∨ s.built.pos.toNat < s.built.len.toNat) →
    exec (.setEndian e) s = .next { s with status := .alreadyBusy, result := 0 }) ∧
  (∀ (e : Bool) (s : State), s.txq = [] → s.rxq = [] → ¬ s.built.pos.toNat < s.built.len.toNat →
    exec (.setEndian e) s = .next { s with be := e, status := .ok, result := 0 })

/-- R231 with the map of R38: READ_CSR of every index. The fields of a register are written as a concatenation, every bit
not listed 0. An HDR_BUF word at or beyond HDR_LEN reads as a free value, whatever that is, and only the model's count of
draws changes (log 12). -/
def Obligations.ReadCsrResult : Prop :=
  (∀ c : Command, c.cw &&& 0xFF0000FF = 0x0000000A → decode c = .ok (.readCsr (c.cw.toNat / 2 ^ 8 % 2 ^ 16))) ∧
  (∀ s : State, Invariants s →
    (∀ p ∈ ([ (0x0000, 0#31 ++ BitVec.ofBool s.be),
              (0x0001, 0#16 ++ s.hdr.cmd),
              (0x0002, s.hdr.addr),
              (0x0003, s.hdr.dummyBits ++ 0#9 ++ s.hdr.addrLen ++ 0#2 ++ s.hdr.cmdLen),
              (0x0004, 0#16 ++ s.rxInvalidBits),
              (0x0005, 0#18 ++ s.built.len),
              (0x0006, 0#18 ++ s.built.pos),
              (0x0007, 0#18 ++ s.built.raw),
              (0x0008, BitVec.ofNat 32 (4 * s.txq.length)),
              (0x0009, BitVec.ofNat 32 s.rxLevel),
              (0x000A, 0#27 ++ s.tmr.mode.code ++ 0#2 ++ s.tmr.state.code),
              (0x000B, s.tmr.startTick),
              (0x000C, s.tmr.budget),
              (0x000D, s.tmr.cross),
              (0x000E, s.tmr.prevTick),
              (0x000F, BitVec.ofNat 32 s.cfg.fifoDepth),
              (0x0010, BitVec.ofNat 32 (s.cfg.tickReload - 1)),
              (0x0011, s.tick),
              (0x0012, 0#31 ++ BitVec.ofBool s.busy) ] : List (Nat × Word)),
      exec (.readCsr p.1) s = .next { s with status := .ok, result := p.2 }) ∧
    (∀ j, j < 2048 → 4 * j < s.built.len.toNat →
      exec (.readCsr (0x1000 + j)) s = .next
        { s with
          status := .ok
          result := Memory.read s.built.buf (4 * j + 3) ++ Memory.read s.built.buf (4 * j + 2) ++
            Memory.read s.built.buf (4 * j + 1) ++ Memory.read s.built.buf (4 * j) }) ∧
    (∀ j, j < 2048 → s.built.len.toNat ≤ 4 * j →
      ∃ v d, exec (.readCsr (0x1000 + j)) s = .next { s with status := .ok, result := v, draws := d }) ∧
    (∀ idx, (0x0013 ≤ idx ∧ idx < 0x1000) ∨ 0x1800 ≤ idx →
      exec (.readCsr idx) s = .next { s with status := .invalidParam, result := 0 }))

/-! ### The comparator (41_timer.md) -/

/-- R120, R121, R122: TMR_START, its selection of a strategy, its budgets (which fit 32 bits) and its refusals. -/
def Obligations.TmrStartResult : Prop :=
  (∀ a b : Word, decode ⟨0x00000008, a, b⟩ = .ok (.tmrStart a.toNat b.toNat)) ∧
  (∀ (t c : Nat) (s : State), c = 0 ∨ t = 0 ∨ s.cfg.tickReload / c = 0 →
    exec (.tmrStart t c) s = .next { s with status := .invalidParam, result := 0 }) ∧
  (∀ (t c : Nat) (s : State), Invariants s → t < 2 ^ 32 → c ≠ 0 → t ≠ 0 → s.cfg.tickReload / c ≠ 0 →
    ∃ (mode : TmrMode) (budget : Word),
      exec (.tmrStart t c) s = .next
        { s with
          tmr := { state := .running, mode := mode, startTick := s.tick, budget := budget, cross := 0, prevTick := s.tick }
          status := .ok, result := 0 } ∧
      (t < s.cfg.tickReload / c → mode = .direct ∧ budget.toNat = t * c ∧ t * c < s.cfg.tickReload) ∧
      (s.cfg.tickReload / c ≤ t →
        mode = .crossing ∧ 1 ≤ budget.toNat ∧
        t ≤ budget.toNat * (s.cfg.tickReload / c) ∧ (budget.toNat - 1) * (s.cfg.tickReload / c) < t))

/-- R123, R124, R125: TMR_POLL in every TMR_STATE, BUSY and mode. -/
def Obligations.TmrPollResult : Prop :=
  (∀ a b : Word, decode ⟨0x00000009, a, b⟩ = .ok .tmrPoll) ∧
  (∀ s : State, s.tmr.state = .idle → exec .tmrPoll s = .next { s with status := .illegalCommand, result := 0 }) ∧
  (∀ s : State, s.tmr.state = .doneOk → exec .tmrPoll s = .next { s with status := .ok, result := 0 }) ∧
  (∀ s : State, s.tmr.state = .doneTimeout → exec .tmrPoll s = .next { s with status := .timeout, result := 0 }) ∧
  (∀ s : State, s.tmr.state = .running → s.busy = false →
    exec .tmrPoll s = .next { s with tmr := { s.tmr with state := .doneOk }, status := .ok, result := 0 }) ∧
  (∀ s : State, Invariants s → s.tmr.state = .running → s.busy = true → s.tmr.mode = .direct →
    ((s.tmr.budget.toNat : Int) < ((s.tick.toNat : Int) - s.tmr.startTick.toNat) % s.cfg.tickReload →
      exec .tmrPoll s = .next
        { s with tmr := { s.tmr with prevTick := s.tick, state := .doneTimeout }, status := .timeout, result := 0 }) ∧
    (((s.tick.toNat : Int) - s.tmr.startTick.toNat) % s.cfg.tickReload ≤ s.tmr.budget.toNat →
      exec .tmrPoll s = .next { s with tmr := { s.tmr with prevTick := s.tick }, status := .ok, result := 1 })) ∧
  (∀ s : State, Invariants s → s.tmr.state = .running → s.busy = true → s.tmr.mode = .crossing →
    (¬ (s.tmr.prevTick.toNat < s.cfg.tickReload / 2 ∧ s.cfg.tickReload / 2 ≤ s.tick.toNat) →
      exec .tmrPoll s = .next { s with tmr := { s.tmr with prevTick := s.tick }, status := .ok, result := 1 }) ∧
    (s.tmr.prevTick.toNat < s.cfg.tickReload / 2 → s.cfg.tickReload / 2 ≤ s.tick.toNat →
      (s.tmr.cross = s.tmr.budget →
        exec .tmrPoll s = .next
          { s with tmr := { s.tmr with prevTick := s.tick, state := .doneTimeout }, status := .timeout, result := 0 }) ∧
      (s.tmr.cross ≠ s.tmr.budget →
        ∃ k : Word, k.toNat = s.tmr.cross.toNat + 1 ∧
          exec .tmrPoll s = .next
            { s with tmr := { s.tmr with prevTick := s.tick, cross := k }, status := .ok, result := 1 })))

/-- R128: a wait's outcome stays, over any run with no TMR_START and no reset, and every TMR_POLL repeats it. -/
def Obligations.WaitOutcomeSticky : Prop :=
  ∀ (es : List Event) (s t : State),
    (s.tmr.state = .doneOk ∨ s.tmr.state = .doneTimeout) → (∀ e ∈ es, e.restartsTimer = false) →
    runEvents es s = .next t →
    t.tmr = s.tmr ∧
    exec .tmrPoll t = .next { t with status := if s.tmr.state = .doneOk then .ok else .timeout, result := 0 }

/-- R126: over any run after a TMR_START that chose DIRECT, a TMR_POLL that finds the wait running and BUSY set reports
TIMEOUT exactly when the elapsed ticks E, taken modulo R, exceed T·c: never early (E itself exceeds T·c then), always
while T·c < E < R, and never for c = 1, T = R - 1. -/
def Obligations.DirectTimesOutExactly : Prop :=
  ∀ (t c : Nat) (s s₁ s₂ : State) (es : List Event), Invariants s →
    exec (.tmrStart t c) s = .next s₁ → s₁.status = .ok → s₁.tmr.mode = .direct →
    (∀ e ∈ es, e.restartsTimer = false) → runEvents es s₁ = .next s₂ →
    s₂.tmr.state = .running → s₂.busy = true →
    ∃ u, exec .tmrPoll s₂ = .next u ∧
      (u.status = .timeout ↔ t * c < tickCount es % s.cfg.tickReload) ∧
      (u.status ≠ .timeout → u.status = .ok ∧ u.result = 1) ∧
      (u.status = .timeout → t * c < tickCount es) ∧
      (t * c < tickCount es → tickCount es < s.cfg.tickReload → u.status = .timeout) ∧
      (c = 1 → t + 1 = s.cfg.tickReload → u.status ≠ .timeout)

/-- R127, first half: over any run after a TMR_START that chose CROSSING, a TMR_POLL that ends the wait with TIMEOUT comes
after more than B·R ticks, B = ceil(T / M), so after more than T·c. -/
def Obligations.CrossingNeverTimesOutEarly : Prop :=
  ∀ (t c : Nat) (s s₁ s₂ u : State) (es : List Event), Invariants s → t < 2 ^ 32 →
    exec (.tmrStart t c) s = .next s₁ → s₁.status = .ok → s₁.tmr.mode = .crossing →
    (∀ e ∈ es, e.restartsTimer = false) → runEvents es s₁ = .next s₂ →
    s₂.tmr.state = .running → exec .tmrPoll s₂ = .next u → u.status = .timeout →
    s₁.tmr.budget.toNat * s.cfg.tickReload + 1 ≤ tickCount es ∧ t * c < tickCount es

/-- R298, R126 (b) and the bound of R127: with BUSY held at 1, a WAIT_IDLE polled within the interval of R285 or R286 ends
with TIMEOUT once enough ticks have passed: more than T·c for DIRECT, (B + 1)·R for CROSSING. Before each poll any steps
of the Shift Engine and the Tick Counter that leave BUSY at 1 may happen, as long as they are enabled; that they are given
as a list for each pass is the model's choice (log 16). -/
def Obligations.WaitIdleEndsWithinBound : Prop :=
  ∀ (t c : Nat) (s s' : State) (gap : List Event) (gaps : List (List Event)), Invariants s → s.busFault = false →
    s.busy = true → t < 2 ^ 32 → c ≠ 0 → t ≠ 0 → c ≤ s.cfg.tickReload → c < 2 ^ 32 →
    (∀ g ∈ gap :: gaps, ∀ e ∈ g, e.keepsBusy = true) → runEvents (gap :: gaps).flatten s = .next s' →
    ((t < s.cfg.tickReload / c ∧ (∀ g ∈ gap :: gaps, tickCount g ≤ s.cfg.tickReload - 1 - t * c) ∧
      t * c < tickCount (gap :: gaps).flatten) ∨
     (s.cfg.tickReload / c ≤ t ∧
      (∀ g ∈ gap :: gaps, tickCount g < min (s.cfg.tickReload / 2) (s.cfg.tickReload - s.cfg.tickReload / 2)) ∧
      (ceilDiv t (s.cfg.tickReload / c) + 1) * s.cfg.tickReload ≤ tickCount (gap :: gaps).flatten)) →
    ∃ u, waitIdle t c gap gaps s = .next u ∧ u.status = .timeout ∧ u.result = 0 ∧ u.tmr.state = .doneTimeout

/-- R101: how a WAIT_IDLE ends when only the environment acts between polls, and how it stands when the passes given to it
are used up while the bus is still busy (log 16). -/
def Obligations.WaitIdleOutcome : Prop :=
  ∀ (t c : Nat) (s u : State) (gap : List Event) (gaps : List (List Event)),
    t < 2 ^ 32 → c < 2 ^ 32 → (∀ g ∈ gap :: gaps, ∀ e ∈ g, e.environment = true) →
    waitIdle t c gap gaps s = .next u →
    (u.status = .invalidParam ∧ u.result = 0 ∧ u.tmr = s.tmr) ∨
    (u.status = .ok ∧ u.result = 0 ∧ u.tmr.state = .doneOk ∧ u.busy = false) ∨
    (u.status = .timeout ∧ u.result = 0 ∧ u.tmr.state = .doneTimeout ∧ u.busy = true) ∨
    (u.status = .ok ∧ u.result = 1 ∧ u.tmr.state = .running ∧ u.busy = true)

/-! ### Status codes (60_exceptions.md) -/

/-- R252: RESULT is 0 whenever a command ends with a STATUS other than OK. -/
def Obligations.ResultZeroOnError : Prop :=
  ∀ (i : Instr) (s t : State), exec i s = .next t → t.busFault = false → t.status ≠ .ok → t.result = 0

/-- R253: a command, of whatever word, that ends with INVALID_PARAM, ALREADY_BUSY or ILLEGAL_COMMAND changes STATUS and
RESULT only, and one that ends with TIMEOUT is a TMR_POLL and changes TMR_STATE and TMR_PREV_TICK besides. -/
def Obligations.ErrorsArePrecise : Prop :=
  ∀ (c : Command) (s t : State), issueCommand c s = .next t → t.busFault = false →
    (t.status = .invalidParam ∨ t.status = .alreadyBusy ∨ t.status = .illegalCommand →
      t = { s with status := t.status, result := 0 }) ∧
    (t.status = .timeout → decode c = .ok .tmrPoll ∧
      t = { s with
            tmr := { s.tmr with state := .doneTimeout, prevTick := t.tmr.prevTick }, status := .timeout, result := 0 })

/-- R254: the statuses each command can end with, and a CW matching no row. -/
def Obligations.StatusesPerCommand : Prop :=
  (∀ (c : Command) (s t : State), selectOp c.cw = none → issueCommand c s = .next t → t.status = .illegalCommand) ∧
  ∀ (i : Instr) (s t : State), exec i s = .next t → t.busFault = false →
    t.status ∈ (match i with
      | .setHeader _ _ _ _ _ => [Status.ok, .invalidParam]
      | .setEndian _         => [.ok, .alreadyBusy]
      | .buildHeader         => [.ok, .alreadyBusy]
      | .fillHdr             => [.ok]
      | .fillTx _ _          => [.ok, .invalidParam, .alreadyBusy]
      | .drainRx _ _         => [.ok, .invalidParam]
      | .fifoClear           => [.ok]
      | .tmrStart _ _        => [.ok, .invalidParam]
      | .tmrPoll             => [.ok, .timeout, .illegalCommand]
      | .readCsr _           => [.ok, .invalidParam])

/-- R255: decoding comes first, then the operand checks, then the state checks, then the outcome: for the one command that
has both kinds of check, FILL_TX, and for the decoding of any word. -/
def Obligations.OperandChecksComeFirst : Prop :=
  (∀ (src : Word) (len : Nat) (s : State), 0 < len → src = 0 → s.built.pos.toNat < s.built.len.toNat →
    exec (.fillTx src len) s = .next { s with status := .invalidParam, result := 0 }) ∧
  (∀ (c : Command) (s t : State) (e : Reject), decode c = .error e → issueCommand c s = .next t →
    t.status = .illegalCommand)

/-! ### Environment agents and reset (60_exceptions.md, 70_reset_and_hazards.md) -/

/-- R265: the Shift Engine and the Tick Counter change only TXQ, RXQ, BUSY, TICK and RX_OVERFLOW. -/
def Obligations.EnvironmentTouchesOnly : Prop :=
  ∀ (e : Event) (s t : State), e.environment = true → agentStep e s = .next t →
    t = { s with txq := t.txq, rxq := t.rxq, busy := t.busy, tick := t.tick, rxOverflow := t.rxOverflow }

/-- R266: the transmit step. -/
def Obligations.TransmitStep : Prop :=
  ∀ s : State, s.cfg.loopback = false →
    (∀ e rest, s.txq = e :: rest → agentStep .shiftOut s = .next { s with txq := rest }) ∧
    (s.txq = [] → agentStep .shiftOut s = .refused .shiftOutEmpty)

/-- R267, R268: the receive step, its enabling condition, and what an overflow does. -/
def Obligations.ReceiveStep : Prop :=
  ∀ (w : Word) (c : Nat) (s : State), s.cfg.loopback = false → 1 ≤ c → c ≤ 4 →
    ((s.rxq = [] ∨ ∃ e, s.rxq.getLast? = some e ∧ e.count = 4) →
      (s.rxLevel + c ≤ s.cfg.fifoDepth → agentStep (.rxPush w c) s = .next { s with rxq := s.rxq ++ [⟨w, c⟩] }) ∧
      (s.cfg.fifoDepth < s.rxLevel + c → agentStep (.rxPush w c) s = .next { s with rxOverflow := true })) ∧
    (∀ e, s.rxq.getLast? = some e → e.count ≠ 4 → agentStep (.rxPush w c) s = .refused .pushAfterPartial)

/-- R271: in the loopback configuration the entry that leaves TXQ arrives in RXQ unchanged in the same step, which is enabled
only when the receive step is. R271 does not speak of overflow: that an entry RXQ has no room for leaves TXQ, is dropped and
sets RX_OVERFLOW is the model's choice (log 10). -/
def Obligations.LoopbackStep : Prop :=
  ∀ (e : Entry) (rest : List Entry) (s : State), s.cfg.loopback = true → s.txq = e :: rest →
    ((s.rxq = [] ∨ ∃ e', s.rxq.getLast? = some e' ∧ e'.count = 4) →
      (s.rxLevel + e.count ≤ s.cfg.fifoDepth →
        agentStep .shiftOut s = .next { s with txq := rest, rxq := s.rxq ++ [e] }) ∧
      (s.cfg.fifoDepth < s.rxLevel + e.count →
        agentStep .shiftOut s = .next { s with txq := rest, rxOverflow := true })) ∧
    (∀ e', s.rxq.getLast? = some e' → e'.count ≠ 4 → ∃ r, agentStep .shiftOut s = .refused r)

/-- R269, R270: the busy step, and the Tick Counter: n steps advance TICK by n modulo R and change nothing else. -/
def Obligations.BusyAndTickSteps : Prop :=
  (∀ (b : Bool) (s : State), agentStep (.setBusy b) s = .next { s with busy := b }) ∧
  (∀ (n : Nat) (s : State), Invariants s →
    ∃ k : Word, runEvents (List.replicate n .tick) s = .next { s with tick := k } ∧
      k.toNat = (s.tick.toNat + n) % s.cfg.tickReload)

/-- R280 with the table of R40: a reset gives every element its reset value, HDR_BUF unspecified, and leaves buffer memory,
TICK, BUSY, the marks and the parameters; no other step of any agent brings TMR_STATE back to IDLE. -/
def Obligations.BlockResetResult : Prop :=
  (∀ (e : Event) (s t : State), agentStep e s = .next t → t.tmr.state = .idle → s.tmr.state = .idle ∨ e = .blockReset) ∧
  ∀ s : State, ∃ m : Memory, agentStep .blockReset s = .next
    { s with
      be := false, hdr := ⟨0, 0, 0, 0, 0⟩, built := ⟨m, 0, 0, 0⟩, rxInvalidBits := 0, txq := [], rxq := []
      tmr := ⟨.idle, .direct, 0, 0, 0, 0⟩, status := .ok, result := 0 }

/-- The state right after reset has the values of R40; the marks are clear in it because it is the launch state of R296,
which is the model's reading (log 19). -/
def Obligations.ResetStateValues : Prop :=
  State.reset.be = false ∧ State.reset.hdr = ⟨0, 0, 0, 0, 0⟩ ∧
  State.reset.built.raw = 0 ∧ State.reset.built.len = 0 ∧ State.reset.built.pos = 0 ∧
  State.reset.rxInvalidBits = 0 ∧ State.reset.txq = [] ∧ State.reset.rxq = [] ∧
  State.reset.tmr = ⟨.idle, .direct, 0, 0, 0, 0⟩ ∧ State.reset.status = .ok ∧ State.reset.result = 0 ∧
  marksClear State.reset

/-! ### Invariants (10_state.md R41) -/

/-- The invariants hold at reset. -/
def Obligations.InvariantsHoldAtReset : Prop := Invariants State.reset

/-- The invariants hold in every launch state of R296: any legal parameters, any TICK below R, any BUSY, any memory. -/
def Obligations.InvariantsHoldAtLaunch : Prop := ∀ s : State, CleanEntry s → Invariants s

/-- R41: every step, of any agent, keeps the invariants. -/
def Obligations.StepKeepsInvariants : Prop := ∀ s t : State, Invariants s → step s = .next t → Invariants t

/-- R37: the marks are never cleared. -/
def Obligations.MarksAreSticky : Prop :=
  ∀ s t : State, step s = .next t →
    (s.rxOverflow = true → t.rxOverflow = true) ∧ (s.busFault = true → t.busFault = true)

/-- R5, R282: no step changes a parameter. That the loopback wiring and what the platform memory admits stay as well is the
model's choice (log 13, log 5). -/
def Obligations.ParametersNeverChange : Prop := ∀ s t : State, step s = .next t → t.cfg = s.cfg

/-! ### Several copies of the block (10_state.md R42) -/

/-- R42, R263: a step of one copy leaves every other copy's own state as it was; only buffer memory, and TICK where the Tick
Counter is shared, are common. -/
def Obligations.BlocksDoNotInteract : Prop :=
  ∀ (k j : Nat) (sys sys' : System) (s : State), sys.stepAt k = .next sys' → j ≠ k → sys.blocks[j]? = some s →
    ∃ s', sys'.blocks[j]? = some s' ∧ s' = { s with mem := s'.mem, tick := s'.tick } ∧
      (sys.sharedTick = false → s'.tick = s.tick)

/-! ### Frames -/

/-- What SET_HEADER, BUILD_HEADER and FILL_HDR leave as it was: all of buffer memory, RXQ, the comparator, the byte order,
and of the header registers and TXQ those the rule does not name. -/
def Obligations.FramingFrame : Prop :=
  (∀ (cl al db : Nat) (cmd : BitVec 16) (addr : Word) (s t : State), exec (.setHeader cl al db cmd addr) s = .next t →
    sameMemory s t ∧ sameSurroundings s t ∧ t.be = s.be ∧ t.built = s.built ∧ t.rxInvalidBits = s.rxInvalidBits ∧
    t.txq = s.txq ∧ t.rxq = s.rxq ∧ t.tmr = s.tmr ∧ t.busFault = s.busFault ∧ t.draws = s.draws) ∧
  (∀ s t : State, exec .buildHeader s = .next t →
    sameMemory s t ∧ sameSurroundings s t ∧ t.be = s.be ∧
    t.txq = s.txq ∧ t.rxq = s.rxq ∧ t.tmr = s.tmr ∧ t.busFault = s.busFault ∧ t.draws = s.draws) ∧
  (∀ s t : State, exec .fillHdr s = .next t →
    sameMemory s t ∧ sameSurroundings s t ∧ t.be = s.be ∧ t.hdr = s.hdr ∧ t.built.buf = s.built.buf ∧
    t.built.raw = s.built.raw ∧ t.built.len = s.built.len ∧ t.rxInvalidBits = s.rxInvalidBits ∧
    t.rxq = s.rxq ∧ t.tmr = s.tmr ∧ t.busFault = s.busFault ∧ t.draws = s.draws)

/-- What FILL_TX, DRAIN_RX and FIFO_CLEAR leave as it was. DRAIN_RX stores to byte i of its buffer, i below the number of
bytes it reads, and to no other address. -/
def Obligations.FifoBridgeFrame : Prop :=
  (∀ (src : Word) (len : Nat) (s t : State), exec (.fillTx src len) s = .next t →
    sameMemory s t ∧ sameSurroundings s t ∧ t.be = s.be ∧ t.hdr = s.hdr ∧ t.built = s.built ∧
    t.rxInvalidBits = s.rxInvalidBits ∧ t.rxq = s.rxq ∧ t.tmr = s.tmr ∧ t.draws = s.draws ∧
    s.txq <+: t.txq) ∧
  (∀ (dst : Word) (remaining : Nat) (s t : State), Invariants s → exec (.drainRx dst remaining) s = .next t →
    (∀ a, (∀ i, i < drainRxCount remaining s → a ≠ bufAddr dst i) → Memory.read t.mem a = Memory.read s.mem a) ∧
    sameSurroundings s t ∧ t.be = s.be ∧ t.hdr = s.hdr ∧ t.built = s.built ∧
    t.txq = s.txq ∧ t.tmr = s.tmr ∧ t.draws = s.draws ∧ t.rxq <:+ s.rxq) ∧
  (∀ s t : State, exec .fifoClear s = .next t →
    sameMemory s t ∧ sameSurroundings s t ∧ t.be = s.be ∧ t.hdr = s.hdr ∧ t.built.buf = s.built.buf ∧
    t.built.raw = s.built.raw ∧ t.built.len = s.built.len ∧ t.tmr = s.tmr ∧ t.busFault = s.busFault ∧
    t.draws = s.draws)

/-- What TMR_START, TMR_POLL, SET_ENDIAN and READ_CSR leave as it was: all of buffer memory, the header, both FIFOs; the
first two also the byte order, the last two the comparator; READ_CSR nothing but STATUS and RESULT (R39; the model's own
count of draws besides, log 12). -/
def Obligations.ComparatorAndControlFrame : Prop :=
  (∀ (i : Instr) (s t : State), (i = .tmrPoll ∨ ∃ a b, i = .tmrStart a b) → exec i s = .next t →
    sameMemory s t ∧ sameSurroundings s t ∧ t.be = s.be ∧ t.hdr = s.hdr ∧ t.built = s.built ∧
    t.rxInvalidBits = s.rxInvalidBits ∧ t.txq = s.txq ∧ t.rxq = s.rxq ∧ t.busFault = s.busFault ∧ t.draws = s.draws ∧
    (i = .tmrPoll → t.tmr.startTick = s.tmr.startTick ∧ t.tmr.budget = s.tmr.budget ∧ t.tmr.mode = s.tmr.mode)) ∧
  (∀ (e : Bool) (s t : State), exec (.setEndian e) s = .next t →
    sameMemory s t ∧ sameSurroundings s t ∧ t.hdr = s.hdr ∧ t.built = s.built ∧
    t.rxInvalidBits = s.rxInvalidBits ∧ t.txq = s.txq ∧ t.rxq = s.rxq ∧ t.tmr = s.tmr ∧ t.busFault = s.busFault ∧
    t.draws = s.draws) ∧
  (∀ (idx : Nat) (s t : State), exec (.readCsr idx) s = .next t →
    t = { s with status := t.status, result := t.result, draws := t.draws })

/-! ### SEND_HEADER (30_encoding.md R102) -/

/-- R102: SEND_HEADER is refused while a header is unsent. Otherwise, when only the environment acts between its commands, it
ends with STATUS OK, RESULT the HDR_LEN its last READ_CSR read, which is the padded length of the header it built, and no
header field set. A header that fits the free space of TXQ is sent whole in a first pass in which no other agent acts: its
bytes are the natural layout's, the first L of them when L < 4. That clause leaves out a first pass with steps of the
environment. That the passes are given as a list is the model's choice (log 16), and so is that RESULT is HDR_LEN even where
the passes run out with HDR_POS < HDR_LEN: it rests on HDR_POS being read before HDR_LEN, an order R102 does not give
(log 16). -/
def Obligations.SendHeaderOutcome : Prop :=
  (∀ (g : PassGaps) (gs : List PassGaps) (s : State), s.busFault = false → s.built.pos.toNat < s.built.len.toNat →
    sendHeader g gs s = .next { s with status := .alreadyBusy, result := 0 }) ∧
  (∀ (g : PassGaps) (gs : List PassGaps) (s u : State) (p : Nat), Invariants s →
    ¬ s.built.pos.toNat < s.built.len.toNat →
    p = headerPadded (headerRaw s.hdr.cmdLen.toNat s.hdr.addrLen.toNat s.hdr.dummyBits.toNat) →
    (∀ g' ∈ g :: gs, ∀ e ∈ g'.events, e.environment = true) → sendHeader g gs s = .next u →
    u.status = .ok ∧ u.result.toNat = p ∧ u.built.len.toNat = p ∧ u.built.pos.toNat ≤ p ∧ u.hdr = ⟨0, 0, 0, 0, 0⟩) ∧
  (∀ (gs : List PassGaps) (s : State) (lay : List Byte) (l : Nat), Invariants s → s.busFault = false →
    ¬ s.built.pos.toNat < s.built.len.toNat →
    lay = layout s.hdr.cmdLen.toNat s.hdr.addrLen.toNat s.hdr.dummyBits.toNat s.hdr.cmd s.hdr.addr →
    l = headerRaw s.hdr.cmdLen.toNat s.hdr.addrLen.toNat s.hdr.dummyBits.toNat → headerPadded l ≤ s.txFree →
    ∃ (u : State) (es : List Entry),
      sendHeader ⟨[], [], []⟩ gs s = .next u ∧ u.status = .ok ∧ u.result.toNat = headerPadded l ∧
      u.built.pos = u.built.len ∧ u.built.raw.toNat = l ∧ u.txq = s.txq ++ es ∧
      entriesBytes s.be es = if l < 4 then lay.take l else lay)
end

