-- ==== Sys2Proof/Laws/Bytes.lean ====
section
/-! SUPPORT. Lanes, packed words and the rounding of lengths: what each function of Machine/Ops.lean and
Machine/Framing.lean gives, lane by lane or byte by byte. -/

namespace Sys2Proof.Machine

theorem ceilDiv_four (a : Nat) : ceilDiv a 4 = (a + 3) / 4 := rfl
theorem ceilDiv_eight (a : Nat) : ceilDiv a 8 = (a + 7) / 8 := rfl

/-- `ceil(a / b)` is the least k with a ≤ k·b. -/
theorem ceilDiv_spec {a b : Nat} (hb : 0 < b) (ha : 0 < a) :
    a ≤ ceilDiv a b * b ∧ (ceilDiv a b - 1) * b < a ∧ 1 ≤ ceilDiv a b := by
  have h1 : 1 ≤ ceilDiv a b := (Nat.le_div_iff_mul_le hb).2 (by omega)
  have h2 : ceilDiv a b * b ≤ a + b - 1 := Nat.div_mul_le_self _ _
  have h3 : a + b - 1 < (ceilDiv a b + 1) * b := Nat.lt_mul_of_div_lt (Nat.lt_succ_self _) hb
  refine ⟨?_, ?_, h1⟩
  · rw [Nat.add_mul] at h3; omega
  · obtain ⟨k, hk⟩ := Nat.exists_eq_add_of_le h1
    rw [hk] at h2 ⊢
    rw [Nat.add_mul] at h2
    simp only [Nat.add_sub_cancel_left]; omega

/-! ### Lanes -/

theorem lane_toNat (w : Word) (j : Nat) : (lane w j).toNat = w.toNat / 2 ^ (8 * j) % 256 := by
  simp [lane, BitVec.extractLsb'_toNat, Nat.shiftRight_eq_div_pow]

/-- Lane j of a packed word is byte j of the list, and 0 beyond it. -/
theorem lane_packLow (bs : List Byte) (j : Nat) (hj : j < 4) : lane (packLow bs) j = bs[j]?.getD 0 := by
  induction bs generalizing j with
  | nil => simp [packLow, lane]
  | cons b bs ih =>
    cases j with
    | zero =>
      ext i hi
      simp [packLow, lane, hi, show i < 32 by omega]
    | succ j =>
      rw [List.getElem?_cons_succ, ← ih j (by omega)]
      ext i hi
      have h1 : 8 * (j + 1) + i < 32 := by omega
      have h2 : ¬ 8 * (j + 1) + i < 8 := by omega
      have h3 : 8 * (j + 1) + i - 8 = 8 * j + i := by omega
      have h4 : b.getLsbD (8 * (j + 1) + i) = false := BitVec.getLsbD_of_ge b _ (by omega)
      simp [packLow, lane, h1, h2, h3, h4, ← BitVec.getLsbD_eq_getElem]

/-- A word whose lanes are those of another is the other. -/
theorem word_ext {v w : Word} (h : ∀ j < 4, lane v j = lane w j) : v = w := by
  apply BitVec.eq_of_getLsbD_eq
  intro i hi
  have := congrArg (fun b : Byte => b.getLsbD (i % 8)) (h (i / 8) (by omega))
  simp only [lane, BitVec.getLsbD_extractLsb'] at this
  simpa [show i % 8 < 8 by omega, show 8 * (i / 8) + i % 8 = i by omega] using this

/-- A concatenation as a number. -/
theorem append_toNat {m n : Nat} (x : BitVec m) (y : BitVec n) : (x ++ y).toNat = x.toNat * 2 ^ n + y.toNat := by
  rw [BitVec.toNat_append, ← Nat.shiftLeft_add_eq_or_of_lt y.isLt, Nat.shiftLeft_eq]

/-- Four bytes packed are their concatenation, the first byte lowest. -/
theorem packLow_four (a b c d : Byte) : packLow [a, b, c, d] = (d ++ c ++ b ++ a : BitVec 32) := by
  apply word_ext
  intro j hj
  rw [lane_packLow _ _ hj]
  apply BitVec.eq_of_toNat_eq
  rw [lane_toNat, append_toNat, append_toNat, append_toNat]
  have := a.isLt; have := b.isLt; have := c.isLt; have := d.isLt
  interval_cases j <;> simp <;> omega

/-- A packed word as a number: byte j weighs 2^(8j). -/
theorem packLow_four_toNat (a b c d : Byte) :
    (packLow [a, b, c, d]).toNat = a.toNat + b.toNat * 2 ^ 8 + c.toNat * 2 ^ 16 + d.toNat * 2 ^ 24 := by
  rw [packLow_four, append_toNat, append_toNat, append_toNat]; omega

@[simp] theorem unpack_length (be : Bool) (w : Word) (k : Nat) : (unpack be w k).length = k := by
  cases be <;> simp [unpack]

theorem unpack_false_getElem? {w : Word} {k i : Nat} (h : i < k) : (unpack false w k)[i]? = some (lane w i) := by
  simp [unpack, h]

theorem unpack_true_getElem? {w : Word} {k i : Nat} (h : i < k) :
    (unpack true w k)[i]? = some (lane w (k - 1 - i)) := by
  simp [unpack, h]

@[simp] theorem entryBytes_length (be : Bool) (e : Entry) : (Entry.bytes be e).length = e.count := by
  simp [Entry.bytes]

@[simp] theorem entriesBytes_nil (be : Bool) : entriesBytes be [] = [] := rfl
@[simp] theorem entriesBytes_cons (be : Bool) (e : Entry) (es : List Entry) :
    entriesBytes be (e :: es) = Entry.bytes be e ++ entriesBytes be es := by simp [entriesBytes]
@[simp] theorem entriesBytes_append (be : Bool) (es fs : List Entry) :
    entriesBytes be (es ++ fs) = entriesBytes be es ++ entriesBytes be fs := by simp [entriesBytes]

@[simp] theorem countSum_nil : countSum [] = 0 := rfl
@[simp] theorem countSum_cons (e : Entry) (es : List Entry) : countSum (e :: es) = e.count + countSum es := by
  simp [countSum]
@[simp] theorem countSum_append (es fs : List Entry) : countSum (es ++ fs) = countSum es + countSum fs := by
  simp [countSum]

/-- RX_LEVEL counts the bytes RXQ carries. -/
theorem entriesBytes_length (be : Bool) (es : List Entry) : (entriesBytes be es).length = countSum es := by
  induction es with
  | nil => rfl
  | cons e es ih => simp [ih]

/-! ### Lists of bytes of the framing builder -/

@[simp] theorem msbFirst_length (v : Word) (n : Nat) : (msbFirst v n).length = n := by simp [msbFirst]

theorem msbFirst_getElem? {v : Word} {n i : Nat} (h : i < n) : (msbFirst v n)[i]? = some (lane v (n - 1 - i)) := by
  simp [msbFirst, h]

theorem headerPadded_bounds (l : Nat) : l ≤ headerPadded l ∧ headerPadded l < l + 4 ∧ headerPadded l % 4 = 0 := by
  simp only [headerPadded, ceilDiv_four]; omega

theorem layout_length (cl al db : Nat) (cmd : BitVec 16) (addr : Word) :
    (layout cl al db cmd addr).length = headerPadded (headerRaw cl al db) := by
  have := headerPadded_bounds (headerRaw cl al db)
  have : cl + al ≤ headerRaw cl al db := by simp [headerRaw]
  simp [layout]; omega

theorem reverseGroups_length (bs : List Byte) : (reverseGroups bs).length = bs.length := by
  fun_induction reverseGroups bs <;> simp_all

/-- Byte i of group g is byte 3 - i of the group it was made from. -/
theorem reverseGroups_getElem? {bs : List Byte} (hb : bs.length % 4 = 0) (g : Nat) {i : Nat} (hi : i < 4) :
    (reverseGroups bs)[4 * g + i]? = bs[4 * g + (3 - i)]? := by
  induction g generalizing bs with
  | zero =>
    match bs, hb with
    | [], _ => simp [reverseGroups]
    | a :: b :: c :: d :: rest, _ =>
      interval_cases i <;> simp [reverseGroups]
  | succ g ih =>
    match bs, hb with
    | [], _ => simp [reverseGroups]
    | a :: b :: c :: d :: rest, hb =>
      have := ih (bs := rest) (by simp only [List.length_cons] at hb; omega)
      simp only [reverseGroups]
      rw [show 4 * (g + 1) + i = (4 * g + i) + 4 by omega, show 4 * (g + 1) + (3 - i) = (4 * g + (3 - i)) + 4 by omega]
      simpa using this

theorem order_length (be : Bool) (buf : List Byte) (l : Nat) : (order be buf l).length = buf.length := by
  unfold order
  split
  · split
    · simp; omega
    · exact reverseGroups_length buf
  · rfl

end Sys2Proof.Machine
end

