-- ==== Sys2Proof/Laws/Conditions.lean ====
section
/-! SUPPORT. What each Bool-valued condition of the commands says: the checks of SET_HEADER, SET_ENDIAN, TMR_START and of a
buffer, and the comparator's conditions. -/

namespace Sys2Proof.Machine

theorem headerAccepted_iff {cl al db : Nat} :
    headerAccepted cl al db = true ↔ cl ≤ 2 ∧ al ≤ 4 ∧ 8 * cl + 8 * al + db ≤ 65535 := by
  unfold headerAccepted headerInvalidBits
  rw [Bool.and_eq_true, Bool.and_eq_true, decide_eq_true_eq, decide_eq_true_eq, decide_eq_true_eq, and_assoc]

theorem headerUnsent_iff {s : State} : s.headerUnsent = true ↔ s.built.pos.toNat < s.built.len.toNat := by
  unfold State.headerUnsent
  rw [decide_eq_true_eq]

theorem inFlight_iff {s : State} :
    inFlight s = true ↔ s.txq ≠ [] ∨ s.rxq ≠ [] ∨ s.built.pos.toNat < s.built.len.toNat := by
  unfold inFlight
  rw [Bool.or_eq_true, Bool.or_eq_true, headerUnsent_iff, or_assoc]
  simp

theorem nullBuffer_iff {a : Word} {n : Nat} : nullBuffer a n = true ↔ 0 < n ∧ a = 0 := by
  unfold nullBuffer
  rw [Bool.and_eq_true, decide_eq_true_eq, decide_eq_true_eq]

theorem bufReadable_iff {cfg : Config} {a : Word} {n : Nat} :
    bufReadable cfg a n = true ↔ ∀ i, i < n → admitsRead cfg (bufAddr a i) = true := by
  simp [bufReadable]

theorem bufWritable_iff {cfg : Config} {a : Word} {n : Nat} :
    bufWritable cfg a n = true ↔ ∀ i, i < n → admitsWrite cfg (bufAddr a i) = true := by
  simp [bufWritable]

theorem timerAccepted_iff {cfg : Config} {t c : Nat} :
    timerAccepted cfg t c = true ↔ c ≠ 0 ∧ t ≠ 0 ∧ cfg.tickReload / c ≠ 0 := by
  unfold timerAccepted maxSupportUs
  rw [Bool.and_eq_true, Bool.and_eq_true, decide_eq_true_eq, decide_eq_true_eq, decide_eq_true_eq, and_assoc]

theorem timerMode_direct_iff {cfg : Config} {t c : Nat} :
    timerMode cfg t c = .direct ↔ t < cfg.tickReload / c := by
  unfold timerMode maxSupportUs
  split <;> simp_all

theorem timerMode_crossing_iff {cfg : Config} {t c : Nat} :
    timerMode cfg t c = .crossing ↔ cfg.tickReload / c ≤ t := by
  unfold timerMode maxSupportUs
  split <;> simp_all

theorem timerBudget_direct {cfg : Config} {t c : Nat} (h : t < cfg.tickReload / c) : timerBudget cfg t c = t * c := by
  unfold timerBudget
  rw [timerMode_direct_iff.2 h]

theorem timerBudget_crossing {cfg : Config} {t c : Nat} (h : cfg.tickReload / c ≤ t) :
    timerBudget cfg t c = ceilDiv t (cfg.tickReload / c) := by
  unfold timerBudget
  rw [timerMode_crossing_iff.2 h]
  rfl

/-- A DIRECT budget is below R (R124: "Because TMR_BUDGET < R"). -/
theorem direct_budget_lt {cfg : Config} {t c : Nat} (hc : c ≠ 0) (h : t < cfg.tickReload / c) : t * c < cfg.tickReload := by
  have := (Nat.lt_div_iff_mul_lt (Nat.pos_of_ne_zero hc)).1 h
  rw [Nat.mul_comm t c] at *; omega

/-- A budget fits 32 bits (R122). -/
theorem crossing_budget_lt {cfg : Config} {t c : Nat} (ht : t < 2 ^ 32) (ht0 : t ≠ 0) (hM : cfg.tickReload / c ≠ 0) :
    ceilDiv t (cfg.tickReload / c) < 2 ^ 32 := by
  obtain ⟨-, h2, h3⟩ := ceilDiv_spec (Nat.pos_of_ne_zero hM) (Nat.pos_of_ne_zero ht0)
  have : (ceilDiv t (cfg.tickReload / c) - 1) * 1 ≤ (ceilDiv t (cfg.tickReload / c) - 1) * (cfg.tickReload / c) :=
    Nat.mul_le_mul_left _ (Nat.pos_of_ne_zero hM)
  omega

theorem directExpired_iff {s : State} {t : Nat} :
    directExpired s t = true ↔ s.tmr.budget.toNat < tickDelta s.cfg t s.tmr.startTick.toNat := by
  unfold directExpired
  rw [decide_eq_true_eq]

theorem crossed_iff {cfg : Config} {p t : Nat} :
    crossed cfg p t = true ↔ p < cfg.tickReload / 2 ∧ cfg.tickReload / 2 ≤ t := by
  unfold crossed midTick
  rw [Bool.and_eq_true, decide_eq_true_eq, decide_eq_true_eq]

/-- The elapsed ticks as the integer they stand for (R9). -/
theorem tickDelta_eq {cfg : Config} (h : 0 < cfg.tickReload) (t p : Nat) :
    (tickDelta cfg t p : Int) = ((t : Int) - p) % cfg.tickReload :=
  Int.toNat_of_nonneg (Int.emod_nonneg _ (by omega))

/-- From a start tick p, E ticks on, the elapsed ticks are E modulo R. -/
theorem tickDelta_after {cfg : Config} (p e : Nat) :
    tickDelta cfg ((p + e) % cfg.tickReload) p = e % cfg.tickReload := by
  unfold tickDelta
  rw [show (((p + e) % cfg.tickReload : Nat) : Int) - (p : Int) = (p + e : Int) % cfg.tickReload - p by push_cast; rfl,
    Int.emod_sub_emod, add_sub_cancel_left, ← Int.natCast_emod, Int.toNat_natCast]

/-- What does not expire, as a disequation. -/
theorem bool_false_iff {b : Bool} {p : Prop} (h : b = true ↔ p) : b = false ↔ ¬ p := by
  rw [← h, Bool.not_eq_true]

end Sys2Proof.Machine
end

