-- ==== Sys2Proof/Laws/PerInstr.lean ====
section
/-! SUPPORT. Statements made per instruction: the family `EncodedWordSelectsRow` says that the command word of a well-formed
instruction has its row's match value under its row's mask (30_encoding.md R97). -/

namespace Sys2Proof.Laws

/-- The bits of a number below 2^n are 0 from bit n on. -/
theorem ofNat_bit_high {x n : Nat} (h : x < 2 ^ n) (i : Nat) (hn : n ≤ i) (hi : i < 32) :
    (BitVec.ofNat 32 x)[i] = false := by
  rw [← BitVec.getLsbD_eq_getElem, BitVec.getLsbD_ofNat,
    Nat.testBit_lt_two_pow (lt_of_lt_of_le h (Nat.pow_le_pow_right (by decide) hn))]
  simp

/-- The fields of SET_HEADER lie outside its mask (R92). -/
theorem setHeader_masked {cl al db : Nat} (hc : cl < 2 ^ 2) (ha : al < 2 ^ 3) :
    ((1 : Word) ||| ((BitVec.ofNat 32 cl <<< 8) ||| (BitVec.ofNat 32 al <<< 10) ||| (BitVec.ofNat 32 db <<< 16))) &&&
      0x0000E0FF = 1 := by
  apply BitVec.eq_of_getLsbD_eq
  intro i hi
  interval_cases i <;> simp
  · exact ⟨ofNat_bit_high hc 5 (by decide) (by decide), ofNat_bit_high ha 3 (by decide) (by decide)⟩
  · exact ⟨ofNat_bit_high hc 6 (by decide) (by decide), ofNat_bit_high ha 4 (by decide) (by decide)⟩
  · exact ⟨ofNat_bit_high hc 7 (by decide) (by decide), ofNat_bit_high ha 5 (by decide) (by decide)⟩

/-- The index of READ_CSR lies outside its mask (R94). -/
theorem readCsr_masked {idx : Nat} (h : idx < 2 ^ 16) :
    ((10 : Word) ||| (BitVec.ofNat 32 idx <<< 8)) &&& 0xFF0000FF = 10 := by
  apply BitVec.eq_of_getLsbD_eq
  intro i hi
  interval_cases i <;> simp <;> exact ofNat_bit_high h _ (by simp) (by simp)

/-- The command word of a well-formed instruction selects its own row. -/
def EncodedWordSelectsRow.Statement (i : Instr) : Prop :=
  i.wf = true → (encode i).cw &&& maskValue i.op = matchValue i.op

theorem EncodedWordSelectsRow.setHeader (cl al db : Nat) (cmd : BitVec 16) (addr : Word) :
    EncodedWordSelectsRow.Statement (.setHeader cl al db cmd addr) := by
  intro h
  simp only [Instr.wf, Bool.and_eq_true, decide_eq_true_eq] at h
  exact setHeader_masked h.1.1 h.1.2
theorem EncodedWordSelectsRow.setEndian (e : Bool) : EncodedWordSelectsRow.Statement (.setEndian e) := by
  intro _; cases e <;> decide
theorem EncodedWordSelectsRow.buildHeader : EncodedWordSelectsRow.Statement .buildHeader := fun _ => by decide
theorem EncodedWordSelectsRow.fillHdr : EncodedWordSelectsRow.Statement .fillHdr := fun _ => by decide
theorem EncodedWordSelectsRow.fillTx (src : Word) (len : Nat) :
    EncodedWordSelectsRow.Statement (.fillTx src len) := fun _ => by
  show (5 ||| 0 : Word) &&& 0xFFFFFFFF = 5
  decide
theorem EncodedWordSelectsRow.drainRx (dst : Word) (remaining : Nat) :
    EncodedWordSelectsRow.Statement (.drainRx dst remaining) := fun _ => by
  show (6 ||| 0 : Word) &&& 0xFFFFFFFF = 6
  decide
theorem EncodedWordSelectsRow.fifoClear : EncodedWordSelectsRow.Statement .fifoClear := fun _ => by decide
theorem EncodedWordSelectsRow.tmrStart (timeoutUs clockMhz : Nat) :
    EncodedWordSelectsRow.Statement (.tmrStart timeoutUs clockMhz) := fun _ => by
  show (8 ||| 0 : Word) &&& 0xFFFFFFFF = 8
  decide
theorem EncodedWordSelectsRow.tmrPoll : EncodedWordSelectsRow.Statement .tmrPoll := fun _ => by decide
theorem EncodedWordSelectsRow.readCsr (idx : Nat) : EncodedWordSelectsRow.Statement (.readCsr idx) := by
  intro h
  simp only [Instr.wf, decide_eq_true_eq] at h
  exact readCsr_masked h

end Sys2Proof.Laws
end

