-- ==== Sys2Proof/Laws/Encoding.lean ====
section
/-! SUPPORT. The opcode map (30_encoding.md R97): the table's rows by operation, and selecting a row as one equation. -/

namespace Sys2Proof

/-- Each row of the table is its operation's mask and match. -/
theorem row_of_mem : ∀ r ∈ opcodeRows, r.mask = maskValue r.op ∧ r.value = matchValue r.op := by decide

/-- Each operation has a row. -/
theorem row_mem (op : Op) : (⟨op, matchValue op, maskValue op⟩ : Row) ∈ opcodeRows := by cases op <;> decide

/-- The masks cover CW[7:0], and the match values differ there, so a word selects one operation at most (R98). -/
theorem op_unique {cw : Word} {op op' : Op} (h : cw &&& maskValue op = matchValue op)
    (h' : cw &&& maskValue op' = matchValue op') : op = op' := by
  have m : ∀ op, maskValue op &&& 0xFF = 0xFF := by intro op; cases op <;> decide
  have e := congrArg (fun w : Word => w &&& 0xFF) h
  have e' := congrArg (fun w : Word => w &&& 0xFF) h'
  simp only [BitVec.and_assoc, m] at e e'
  rw [e] at e'
  revert e'; cases op <;> cases op' <;> decide

/-- A word selects an operation exactly when its bits under the operation's mask are the operation's match value. -/
theorem selectOp_eq_some {op : Op} {cw : Word} : selectOp cw = some op ↔ cw &&& maskValue op = matchValue op := by
  have forward : ∀ {op}, selectOp cw = some op → cw &&& maskValue op = matchValue op := by
    intro op h
    obtain ⟨r, hr, rfl⟩ := Option.map_eq_some_iff.1 h
    have hm := row_of_mem r (List.mem_of_find?_eq_some hr)
    have hs := List.find?_some hr
    simpa [Row.selects, hm.1, hm.2] using hs
  refine ⟨forward, fun h => ?_⟩
  cases hs : selectOp cw with
  | some op' => rw [op_unique (forward hs) h]
  | none =>
    simp only [selectOp, Option.map_eq_none_iff, List.find?_eq_none] at hs
    exact absurd h (by simpa [Row.selects] using hs _ (row_mem op))

/-- A word selects no operation exactly when the decoder rejects it. -/
theorem selectOp_eq_none {c : Command} : selectOp c.cw = none ↔ ∃ e, decode c = .error e := by
  unfold decode
  cases selectOp c.cw with
  | none => simp only [true_iff]; split <;> exact ⟨_, rfl⟩
  | some op => simp

theorem decode_of_select {c : Command} {op : Op} (h : selectOp c.cw = some op) : decode c = .ok (operandsOf op c) := by
  simp [decode, h]

theorem select_of_decode {c : Command} {i : Instr} (h : decode c = .ok i) :
    ∃ op, selectOp c.cw = some op ∧ i = operandsOf op c := by
  unfold decode at h
  split at h
  · cases h; exact ⟨_, ‹_›, rfl⟩
  · split at h <;> cases h

/-- A field as a number (R7). -/
theorem bitField_eq (v : Word) (lo n : Nat) : bitField v lo n = v.toNat / 2 ^ lo % 2 ^ n := by
  simp [bitField, BitVec.extractLsb'_toNat, Nat.shiftRight_eq_div_pow]

/-! ### Masks as numbers -/

theorem and_allBits (cw : Word) : cw &&& 0xFFFFFFFF = cw := by
  rw [show (0xFFFFFFFF : Word) = BitVec.allOnes 32 from rfl, BitVec.and_allOnes]

/-- The bits from `k` on under a mask of `n` ones there. -/
theorem and_ones_shift_toNat (w : Word) (n k : Nat) (h : (BitVec.ofNat 32 (2 ^ n - 1)).toNat = 2 ^ n - 1) :
    ((w >>> k) &&& BitVec.ofNat 32 (2 ^ n - 1)).toNat = w.toNat / 2 ^ k % 2 ^ n := by
  rw [BitVec.toNat_and, h, Nat.and_two_pow_sub_one_eq_mod, BitVec.toNat_ushiftRight, Nat.shiftRight_eq_div_pow]

/-- A word under a mask made of the low `n` bits and the `m` bits from `k` on. -/
theorem and_two_ranges {w v : Word} (n m k : Nat) (hn : (BitVec.ofNat 32 (2 ^ n - 1)).toNat = 2 ^ n - 1)
    (hm : (BitVec.ofNat 32 (2 ^ m - 1)).toNat = 2 ^ m - 1)
    (hlow : v &&& BitVec.ofNat 32 (2 ^ n - 1) = v) (hhigh : (v >>> k) &&& BitVec.ofNat 32 (2 ^ m - 1) = 0#32)
    (hdisj : ((BitVec.ofNat 32 (2 ^ m - 1) <<< k) &&& BitVec.ofNat 32 (2 ^ n - 1)) = 0#32)
    (hback : (BitVec.ofNat 32 (2 ^ m - 1) <<< k) >>> k = BitVec.ofNat 32 (2 ^ m - 1))
    (hcross : (BitVec.ofNat 32 (2 ^ n - 1)) >>> k &&& BitVec.ofNat 32 (2 ^ m - 1) = 0#32) :
    w &&& (BitVec.ofNat 32 (2 ^ n - 1) ||| (BitVec.ofNat 32 (2 ^ m - 1) <<< k)) = v ↔
      w.toNat % 2 ^ n = v.toNat ∧ w.toNat / 2 ^ k % 2 ^ m = 0 := by
  have low : (w &&& BitVec.ofNat 32 (2 ^ n - 1)).toNat = w.toNat % 2 ^ n := by
    simpa using and_ones_shift_toNat w n 0 hn
  have shifted : w &&& (BitVec.ofNat 32 (2 ^ m - 1) <<< k) = ((w >>> k) &&& BitVec.ofNat 32 (2 ^ m - 1)) <<< k := by
    ext i hi
    by_cases hk : i < k
    · simp [hk]
    · simp [hk, hi, show k + (i - k) = i by omega, ← BitVec.getLsbD_eq_getElem]
  constructor
  · intro h
    have h1 := congrArg (fun x : Word => (x &&& BitVec.ofNat 32 (2 ^ n - 1)).toNat) h
    have h2 := congrArg (fun x : Word => ((x >>> k) &&& BitVec.ofNat 32 (2 ^ m - 1)).toNat) h
    simp only [BitVec.and_or_distrib_left, BitVec.and_or_distrib_right, BitVec.and_assoc, hdisj, BitVec.and_self,
      BitVec.and_zero, BitVec.or_zero, hlow] at h1
    simp only [BitVec.ushiftRight_and_distrib, BitVec.ushiftRight_or_distrib, BitVec.and_or_distrib_left,
      BitVec.and_or_distrib_right, BitVec.and_assoc, hback, hcross, BitVec.and_self, BitVec.and_zero, BitVec.zero_or,
      hhigh] at h2
    rw [low] at h1
    rw [and_ones_shift_toNat w m k hm] at h2
    exact ⟨h1, by simpa using h2⟩
  · rintro ⟨h1, h2⟩
    have e2 : (w >>> k) &&& BitVec.ofNat 32 (2 ^ m - 1) = 0 :=
      BitVec.eq_of_toNat_eq (by rw [and_ones_shift_toNat w m k hm, h2]; rfl)
    have e1 : w &&& BitVec.ofNat 32 (2 ^ n - 1) = v := BitVec.eq_of_toNat_eq (by rw [low, h1])
    rw [BitVec.and_or_distrib_left, shifted, e2, e1]
    simp

/-- SET_HEADER's row as numbers: opcode 0x01 and CW[15:13] = 0 (R92, R97). -/
theorem select_setHeader {cw : Word} :
    cw &&& 0x0000E0FF = 1 ↔ cw.toNat % 2 ^ 8 = 1 ∧ cw.toNat / 2 ^ 13 % 2 ^ 3 = 0 :=
  and_two_ranges (v := 1) 8 3 13 (by decide) (by decide) (by decide) (by decide) (by decide) (by decide) (by decide)

/-- SET_ENDIAN's row as numbers: opcode 0x02 and CW[31:9] = 0 (R93, R97). -/
theorem select_setEndian {cw : Word} :
    cw &&& 0xFFFFFEFF = 2 ↔ cw.toNat % 2 ^ 8 = 2 ∧ cw.toNat / 2 ^ 9 % 2 ^ 23 = 0 :=
  and_two_ranges (v := 2) 8 23 9 (by decide) (by decide) (by decide) (by decide) (by decide) (by decide) (by decide)

/-- READ_CSR's row as numbers: opcode 0x0A and CW[31:24] = 0 (R94, R97). -/
theorem select_readCsr {cw : Word} :
    cw &&& 0xFF0000FF = 10 ↔ cw.toNat % 2 ^ 8 = 10 ∧ cw.toNat / 2 ^ 24 % 2 ^ 8 = 0 :=
  and_two_ranges (v := 10) 8 8 24 (by decide) (by decide) (by decide) (by decide) (by decide) (by decide) (by decide)

/-! ### Command words as numbers -/

theorem or_shift_toNat {v : Word} {x n : Nat} (hv : v.toNat < 2 ^ n) (hx : x * 2 ^ n < 2 ^ 32) :
    (v ||| BitVec.ofNat 32 x <<< n).toNat = v.toNat + x * 2 ^ n := by
  have hx32 : x < 2 ^ 32 := lt_of_le_of_lt (Nat.le_mul_of_pos_right _ (Nat.two_pow_pos n)) hx
  rw [BitVec.toNat_or, BitVec.toNat_shiftLeft, BitVec.toNat_ofNat, Nat.mod_eq_of_lt hx32, Nat.shiftLeft_eq,
    Nat.mod_eq_of_lt hx, Nat.or_comm, ← Nat.shiftLeft_eq, ← Nat.shiftLeft_add_eq_or_of_lt hv, Nat.shiftLeft_eq]
  omega

/-- The command word of a SET_HEADER, field by field (R92). -/
theorem cw_setHeader {cl al db : Nat} (hc : cl < 2 ^ 2) (ha : al < 2 ^ 3) (hd : db < 2 ^ 16) (cmd : BitVec 16)
    (addr : Word) :
    (encode (.setHeader cl al db cmd addr)).cw.toNat = 1 + cl * 2 ^ 8 + al * 2 ^ 10 + db * 2 ^ 16 := by
  show ((1 : Word) ||| (BitVec.ofNat 32 cl <<< 8 ||| BitVec.ofNat 32 al <<< 10 ||| BitVec.ofNat 32 db <<< 16)).toNat = _
  have e1 := or_shift_toNat (v := (1 : Word)) (x := cl) (n := 8) (by decide) (by omega)
  have e2 := or_shift_toNat (v := (1 : Word) ||| BitVec.ofNat 32 cl <<< 8) (x := al) (n := 10)
    (by rw [e1]; simp; omega) (by omega)
  have e3 := or_shift_toNat (v := (1 : Word) ||| BitVec.ofNat 32 cl <<< 8 ||| BitVec.ofNat 32 al <<< 10) (x := db)
    (n := 16) (by rw [e2, e1]; simp; omega) (by omega)
  rw [← BitVec.or_assoc, ← BitVec.or_assoc, e3, e2, e1]; rfl

/-- The command word of a READ_CSR (R94). -/
theorem cw_readCsr {idx : Nat} (h : idx < 2 ^ 16) : (encode (.readCsr idx)).cw.toNat = 10 + idx * 2 ^ 8 :=
  or_shift_toNat (v := (10 : Word)) (x := idx) (n := 8) (by decide) (by omega)

end Sys2Proof
end

