-- ==== Sys2Proof/Laws/Entries.lean ====
section
/-! SUPPORT. What the entries that FILL_TX and FILL_HDR push are, and how many bytes each of the two commands moves
(42_framing.md R156, R157; 43_fifo_bridge.md R191). -/

namespace Sys2Proof.Machine

/-- Entries that are all full carry four bytes each. -/
theorem countSum_full {q : List Entry} (h : ∀ e ∈ q, e.count = 4) : countSum q = 4 * q.length := by
  induction q with
  | nil => rfl
  | cons e q ih =>
    simp only [countSum_cons, List.length_cons, h e (by simp), ih fun x hx => h x (by simp [hx])]
    omega

/-- Every packed entry carries 1 to 4 bytes, and there are ceil(n / 4) of them. -/
theorem packedEntries_spec (be : Bool) (m : Memory) (src : Word) (n : Nat) :
    (packedEntries be m src n).length = (n + 3) / 4 ∧ countsLegal (packedEntries be m src n) := by
  constructor
  · simp only [packedEntries]; split <;> simp <;> omega
  · intro e he
    simp only [packedEntries, List.mem_append, List.mem_map] at he
    rcases he with ⟨j, -, rfl⟩ | he
    · simp
    · split at he
      · simp at he
      · simp only [List.mem_singleton] at he
        subst he
        show 1 ≤ n % 4 ∧ n % 4 ≤ 4
        omega

/-- Entry j of the packed entries: its count and its word. -/
theorem packedEntries_getElem? {be : Bool} {m : Memory} {src : Word} {n j : Nat} {e : Entry}
    (h : (packedEntries be m src n)[j]? = some e) :
    j < (n + 3) / 4 ∧ e.count = min 4 (n - 4 * j) ∧ e.word = pack be (readBuf m src (4 * j) e.count) := by
  have hlt : j < (packedEntries be m src n).length := by
    by_contra hh
    rw [List.getElem?_eq_none (by omega)] at h
    cases h
  rw [(packedEntries_spec be m src n).1] at hlt
  simp only [packedEntries] at h
  by_cases hj : j < n / 4
  · rw [List.getElem?_append_left (by simpa using hj)] at h
    simp only [List.getElem?_map, List.getElem?_range hj, Option.map_some, Option.some.injEq] at h
    subst h
    exact ⟨hlt, by show 4 = _; omega, rfl⟩
  · rw [List.getElem?_append_right (by simpa using hj)] at h
    split at h
    · simp at h
    · obtain rfl : j = n / 4 := by omega
      simp only [List.length_map, List.length_range, Nat.sub_self, List.getElem?_cons_zero, Option.some.injEq] at h
      subst h
      exact ⟨hlt, by show n % 4 = _; omega, rfl⟩

/-- The header entries for `n` bytes: their number, and their counts when a header is built. -/
theorem headerEntries_spec (b : Built) (n : Nat) (hlen : b.len.toNat = 4 * ceilDiv b.raw.toNat 4) (hne : b.len.toNat ≠ 0) :
    (headerEntries b n).length = n / 4 ∧ countsLegal (headerEntries b n) := by
  refine ⟨by simp [headerEntries], fun e he => ?_⟩
  simp only [headerEntries, List.mem_map] at he
  obtain ⟨j, -, rfl⟩ := he
  simp only [headerEntryCount, ceilDiv_four] at *
  split <;> omega

/-- What FILL_HDR moves is a whole number of words, stays within the header and fits the free space. -/
theorem fillHdrCount_spec {s : State} (h : Invariants s) :
    fillHdrCount s % 4 = 0 ∧ s.built.pos.toNat + fillHdrCount s ≤ s.built.len.toNat ∧
    4 * (s.txq.length + fillHdrCount s / 4) ≤ s.cfg.fifoDepth ∧ fillHdrCount s ≤ 65532 := by
  obtain ⟨d, hd⟩ := h.cfg.1
  have := h.cfg.2.2.1; have := h.txLevel; have := h.posLe; have := h.posMod; have := h.lenMod
  simp only [fillHdrCount, State.txFree, State.txLevel] at *
  omega

/-- What FILL_TX moves fits the free space, its partial word included. -/
theorem fillTxCount_spec {s : State} (h : Invariants s) (len : Nat) :
    4 * (s.txq.length + (fillTxCount len s + 3) / 4) ≤ s.cfg.fifoDepth ∧ fillTxCount len s ≤ 65532 := by
  obtain ⟨d, hd⟩ := h.cfg.1
  have := h.cfg.2.2.1; have := h.txLevel
  simp only [fillTxCount, State.txFree, State.txLevel] at *
  omega

/-- Under the invariants the header a state holds has at most 8192 bytes (R28). -/
theorem header_le {s : State} (h : Invariants s) : Header.raw s.hdr ≤ 8192 ∧ Header.padded s.hdr ≤ 8192 := by
  have := h.bits; have := h.cmdLen; have := h.addrLen
  simp only [Header.padded, headerPadded, Header.raw, headerRaw, ceilDiv_four, ceilDiv_eight]
  omega

end Sys2Proof.Machine
end

