-- ==== Sys2Proof/Laws/Memory.lean ====
section
/-! SUPPORT. Byte-addressed storage: a read after a write, the canonical form kept by every operation, and equal contents
are equal data. -/

namespace Sys2Proof.Machine

@[simp] theorem Memory.read_nil (a : Nat) : Memory.read [] a = unlistedByte := rfl

/-- An address below every listed one is unlisted. -/
theorem Memory.read_unlisted {m : Memory} {a : Nat} (h : ∀ c ∈ m, c.1 ≠ a) : Memory.read m a = unlistedByte := by
  induction m with
  | nil => rfl
  | cons c m ih =>
    obtain ⟨b, v⟩ := c
    have hb : a ≠ b := fun e => h (b, v) (by simp) e.symm
    simp [Memory.read, hb, ih fun c hc => h c (by simp [hc])]

/-- In canonical form a listed cell is what its address reads as. -/
theorem Memory.read_of_mem {m : Memory} (hm : m.Pairwise (fun c d => c.1 < d.1)) {a : Nat} {v : Byte}
    (h : (a, v) ∈ m) : Memory.read m a = v := by
  induction m with
  | nil => simp at h
  | cons c m ih =>
    obtain ⟨b, w⟩ := c
    rcases List.mem_cons.1 h with h | h
    · cases h; simp [Memory.read]
    · have : b < a := (List.pairwise_cons.1 hm).1 _ h
      simp [Memory.read, show a ≠ b by omega, ih (List.pairwise_cons.1 hm).2 h]

/-- A read after a write: the value written at that address, and everywhere else what was there. -/
theorem Memory.read_write {m : Memory} (hm : m.Pairwise (fun c d => c.1 < d.1)) (a : Nat) (v : Byte) (x : Nat) :
    Memory.read (Memory.write m a v) x = if x = a then v else Memory.read m x := by
  induction m with
  | nil =>
    by_cases hv : v = unlistedByte <;> by_cases hx : x = a <;> simp [Memory.write, Memory.read, hv, hx]
  | cons c m ih =>
    obtain ⟨b, w⟩ := c
    obtain ⟨hb, hm'⟩ := List.pairwise_cons.1 hm
    have below : ∀ y ≤ b, Memory.read m y = unlistedByte := fun y hy =>
      Memory.read_unlisted fun c hc e => absurd (hb c hc) (by simp only []; omega)
    simp only [Memory.write]
    split
    · split
      · by_cases hx : x = a
        · subst hx; simp_all [Memory.read, show x ≠ b by omega, below x (by omega)]
        · simp [hx]
      · simp [Memory.read]
    · split
      · subst a
        split
        · by_cases hx : x = b <;> simp_all [Memory.read]
        · by_cases hx : x = b <;> simp [Memory.read, hx]
      · by_cases hx : x = b
        · subst hx; simp [Memory.read, show x ≠ a by omega]
        · simp [Memory.read, hx, ih hm']

/-- Every cell after a write is the written one or was there before. -/
theorem Memory.mem_write {m : Memory} {a : Nat} {v : Byte} {c : Host.Cell} (h : c ∈ Memory.write m a v) :
    (c = (a, v) ∧ v ≠ unlistedByte) ∨ c ∈ m := by
  induction m with
  | nil => by_cases hv : v = unlistedByte <;> simp_all [Memory.write]
  | cons d m ih =>
    obtain ⟨b, w⟩ := d
    simp only [Memory.write] at h
    split at h
    · split at h
      · exact .inr h
      · rcases List.mem_cons.1 h with rfl | h
        · exact .inl ⟨rfl, ‹_›⟩
        · exact .inr h
    · split at h
      · split at h
        · exact .inr (List.mem_cons_of_mem _ h)
        · rcases List.mem_cons.1 h with rfl | h
          · exact .inl ⟨rfl, ‹_›⟩
          · exact .inr (List.mem_cons_of_mem _ h)
      · rcases List.mem_cons.1 h with rfl | h
        · exact .inr (by simp)
        · exact (ih h).imp id (List.mem_cons_of_mem _)

/-- A write keeps the canonical form. -/
theorem Memory.write_wf {m : Memory} (hm : Memory.wf m) (a : Nat) (v : Byte) : Memory.wf (Memory.write m a v) := by
  refine ⟨?_, fun c hc => ?_⟩
  · obtain ⟨hp, -⟩ := hm
    induction m with
    | nil => by_cases hv : v = unlistedByte <;> simp [Memory.write, hv]
    | cons d m ih =>
      obtain ⟨b, w⟩ := d
      obtain ⟨hb, hm'⟩ := List.pairwise_cons.1 hp
      simp only [Memory.write]
      split
      · split
        · exact hp
        · refine List.pairwise_cons.2 ⟨fun c hc => ?_, hp⟩
          rcases List.mem_cons.1 hc with rfl | hc
          · assumption
          · exact lt_trans ‹_› (hb c hc)
      · split
        · subst a
          split
          · exact hm'
          · exact List.pairwise_cons.2 ⟨hb, hm'⟩
        · refine List.pairwise_cons.2 ⟨fun c hc => ?_, ih hm'⟩
          rcases Memory.mem_write hc with ⟨rfl, -⟩ | hc
          · simp only []; omega
          · exact hb c hc
  · rcases Memory.mem_write hc with ⟨rfl, h⟩ | hc
    · exact h
    · exact hm.2 c hc

/-- A write below a bound keeps every listed address below it. -/
theorem Memory.write_below {bound a : Nat} {m : Memory} (hm : Memory.below bound m) (ha : a < bound) (v : Byte) :
    Memory.below bound (Memory.write m a v) := fun c hc => by
  rcases Memory.mem_write hc with ⟨rfl, -⟩ | hc
  · exact ha
  · exact hm c hc

/-- Equal contents are equal data. -/
theorem Memory.ext_read {m m' : Memory} (h : Memory.wf m) (h' : Memory.wf m')
    (heq : ∀ a, Memory.read m a = Memory.read m' a) : m = m' := by
  have listed : ∀ {m m' : Memory}, Memory.wf m → Memory.wf m' →
      (∀ a, Memory.read m a = Memory.read m' a) → ∀ c ∈ m, c ∈ m' := by
    intro m m' h h' heq c hc
    obtain ⟨a, v⟩ := c
    have hv := Memory.read_of_mem h.1 hc
    by_contra hn
    have : ∃ w, (a, w) ∈ m' := by
      by_contra hno
      have := Memory.read_unlisted (m := m') (a := a) fun c hc e => hno ⟨c.2, by rw [← e]; exact hc⟩
      exact h.2 _ hc (by rw [← hv, heq, this])
    obtain ⟨w, hw⟩ := this
    have := Memory.read_of_mem h'.1 hw
    exact hn (by rw [← hv, heq a, this]; exact hw)
  have nodup : ∀ {m : Memory}, m.Pairwise (fun c d => c.1 < d.1) → m.Nodup := fun hp =>
    hp.imp fun hlt e => by rw [e] at hlt; exact lt_irrefl _ hlt
  exact ((List.perm_ext_iff_of_nodup (nodup h.1) (nodup h'.1)).2 fun c =>
    ⟨listed h h' heq c, listed h' h (fun a => (heq a).symm) c⟩).eq_of_pairwise
      (fun c d _ _ hcd hdc => absurd (lt_trans hcd hdc) (lt_irrefl _)) h.1 h'.1

/-! ### `cellsFrom` and `storeLow` -/

theorem cellsFrom_mem {a : Nat} {bs : List Byte} {c : Host.Cell} (h : c ∈ cellsFrom a bs) :
    a ≤ c.1 ∧ c.1 < a + bs.length ∧ c.2 ≠ unlistedByte := by
  induction bs generalizing a with
  | nil => simp [cellsFrom] at h
  | cons v vs ih =>
    simp only [cellsFrom] at h
    split at h
    · obtain ⟨h1, h2, h3⟩ := ih h
      simp only [List.length_cons]; exact ⟨by omega, by omega, h3⟩
    · rcases List.mem_cons.1 h with rfl | h
      · simp_all
      · obtain ⟨h1, h2, h3⟩ := ih h
        simp only [List.length_cons]; exact ⟨by omega, by omega, h3⟩

theorem cellsFrom_pairwise (a : Nat) (bs : List Byte) : (cellsFrom a bs).Pairwise (fun c d => c.1 < d.1) := by
  induction bs generalizing a with
  | nil => simp [cellsFrom]
  | cons v vs ih =>
    simp only [cellsFrom]
    split
    · exact ih _
    · exact List.pairwise_cons.2 ⟨fun c hc => by have := cellsFrom_mem hc; simp only []; omega, ih _⟩

/-- Reading where the consecutive bytes lie, with anything listed after them. -/
theorem read_cellsFrom_append (a : Nat) (bs : List Byte) (m : Memory) (x : Nat) :
    Memory.read (cellsFrom a bs ++ m) x =
      if a ≤ x ∧ x < a + bs.length then (if bs[x - a]?.getD 0 = unlistedByte then Memory.read m x else bs[x - a]?.getD 0)
      else Memory.read m x := by
  induction bs generalizing a with
  | nil => simp [cellsFrom]
  | cons v vs ih =>
    by_cases hx : x = a
    · subst hx
      by_cases hv : v = unlistedByte
      · have : ¬ (x + 1 ≤ x) := by omega
        simp [cellsFrom, hv, ih, this]
      · simp [cellsFrom, hv, Memory.read]
    · have key : Memory.read (cellsFrom a (v :: vs) ++ m) x = Memory.read (cellsFrom (a + 1) vs ++ m) x := by
        simp only [cellsFrom]
        split
        · rfl
        · simp [Memory.read, hx]
      rw [key, ih]
      by_cases hle : a + 1 ≤ x ∧ x < a + 1 + vs.length
      · have h' : a ≤ x ∧ x < a + (v :: vs).length := by simp only [List.length_cons]; omega
        have e : x - a = (x - (a + 1)) + 1 := by omega
        rw [if_pos hle, if_pos h', e, List.getElem?_cons_succ]
      · have h' : ¬ (a ≤ x ∧ x < a + (v :: vs).length) := by simp only [List.length_cons]; omega
        rw [if_neg hle, if_neg h']

theorem read_filter_ge {m : Memory} {n x : Nat} :
    Memory.read (m.filter fun c => decide (n ≤ c.1)) x = if n ≤ x then Memory.read m x else unlistedByte := by
  induction m with
  | nil => simp
  | cons c m ih =>
    obtain ⟨b, v⟩ := c
    by_cases hb : n ≤ b <;> by_cases hx : x = b <;> by_cases hn : n ≤ x <;>
      simp_all [Memory.read]

/-- `storeLow`: the bytes of the list, and above them what was there. -/
theorem Memory.read_storeLow (m : Memory) (bs : List Byte) (x : Nat) :
    Memory.read (Memory.storeLow m bs) x = if h : x < bs.length then bs[x] else Memory.read m x := by
  unfold Memory.storeLow
  rw [read_cellsFrom_append, read_filter_ge]
  by_cases h : x < bs.length
  · have : ¬ bs.length ≤ x := by omega
    by_cases hv : bs[x] = unlistedByte <;> simp [h, this, hv]
  · have : bs.length ≤ x := by omega
    simp [h, this]

/-- `storeLow` keeps the canonical form. -/
theorem Memory.storeLow_wf {m : Memory} (hm : Memory.wf m) (bs : List Byte) : Memory.wf (Memory.storeLow m bs) := by
  refine ⟨List.pairwise_append.2 ⟨cellsFrom_pairwise 0 bs, hm.1.filter _, fun c hc d hd => ?_⟩, fun c hc => ?_⟩
  · have := cellsFrom_mem hc
    have : bs.length ≤ d.1 := by simpa using (List.mem_filter.1 hd).2
    omega
  · rcases List.mem_append.1 hc with hc | hc
    · exact (cellsFrom_mem hc).2.2
    · exact hm.2 c (List.mem_filter.1 hc).1

theorem Memory.storeLow_below {bound : Nat} {m : Memory} (hm : Memory.below bound m) {bs : List Byte}
    (hb : bs.length ≤ bound) : Memory.below bound (Memory.storeLow m bs) := fun c hc => by
  rcases List.mem_append.1 hc with hc | hc
  · have := cellsFrom_mem hc; omega
  · exact hm c (List.mem_filter.1 hc).1

/-! ### Buffers -/

theorem bufAddr_lt (base : Word) (i : Nat) : bufAddr base i < 2 ^ 32 := Nat.mod_lt _ (by decide)

/-- Two bytes of one buffer of at most 2^32 bytes have different addresses. -/
theorem bufAddr_inj {base : Word} {i j : Nat} (hi : i < 2 ^ 32) (hj : j < 2 ^ 32) (h : bufAddr base i = bufAddr base j) :
    i = j := by
  have := base.isLt
  unfold bufAddr at h
  omega

@[simp] theorem readBuf_length (m : Memory) (base : Word) (off n : Nat) : (readBuf m base off n).length = n := by
  simp [readBuf]

theorem readBuf_getElem? {m : Memory} {base : Word} {off n i : Nat} (h : i < n) :
    (readBuf m base off n)[i]? = some (Memory.read m (bufAddr base (off + i))) := by
  simp [readBuf, h]

theorem writeBuf_wf {m : Memory} (hm : Memory.wf m) (base : Word) (off : Nat) (bs : List Byte) :
    Memory.wf (writeBuf m base off bs) := by
  induction bs generalizing m off with
  | nil => exact hm
  | cons v vs ih => exact ih (Memory.write_wf hm _ _) _

theorem writeBuf_below {m : Memory} (hm : Memory.below (2 ^ 32) m) (base : Word) (off : Nat) (bs : List Byte) :
    Memory.below (2 ^ 32) (writeBuf m base off bs) := by
  induction bs generalizing m off with
  | nil => exact hm
  | cons v vs ih => exact ih (Memory.write_below hm (bufAddr_lt _ _) _) _

/-- Every address outside the bytes written reads as before. -/
theorem read_writeBuf_of_ne {m : Memory} (hm : Memory.wf m) (base : Word) (off : Nat) (bs : List Byte) {a : Nat}
    (h : ∀ i, i < bs.length → a ≠ bufAddr base (off + i)) :
    Memory.read (writeBuf m base off bs) a = Memory.read m a := by
  induction bs generalizing m off with
  | nil => rfl
  | cons v vs ih =>
    have h0 : a ≠ bufAddr base off := by simpa using h 0 (by simp)
    rw [writeBuf, ih (Memory.write_wf hm _ _) (off + 1) fun i hi => by
      have := h (i + 1) (by simpa using hi)
      rwa [show off + 1 + i = off + (i + 1) by omega]]
    simp [Memory.read_write hm.1, h0]

/-- Byte i of the buffer reads as byte i of the list written. -/
theorem read_writeBuf_getElem {m : Memory} (hm : Memory.wf m) (base : Word) (off : Nat) (bs : List Byte)
    (hlen : off + bs.length ≤ 2 ^ 32) {i : Nat} (hi : i < bs.length) :
    Memory.read (writeBuf m base off bs) (bufAddr base (off + i)) = bs[i] := by
  induction bs generalizing m off i with
  | nil => simp at hi
  | cons v vs ih =>
    simp only [List.length_cons] at hlen hi
    cases i with
    | zero =>
      rw [writeBuf, read_writeBuf_of_ne (Memory.write_wf hm _ _)]
      · simp [Memory.read_write hm.1]
      · intro j hj e
        have := bufAddr_inj (by omega) (by omega) e
        omega
    | succ i =>
      have := ih (Memory.write_wf hm (bufAddr base off) v) (off + 1) (by omega) (i := i) (by omega)
      rw [writeBuf, show off + (i + 1) = off + 1 + i by omega, this]
      simp

end Sys2Proof.Machine
end

