-- ==== Sys2Proof/Laws/State.lean ====
section
/-! SUPPORT. One lemma per field per update of State, each true by rfl, so that no later proof unfolds a record update. -/

namespace Sys2Proof.Machine

/-! ### finish -/

@[simp] theorem finish_cfg (st : Status) (r : Word) (s : State) : (finish st r s).cfg = s.cfg := rfl
@[simp] theorem finish_be (st : Status) (r : Word) (s : State) : (finish st r s).be = s.be := rfl
@[simp] theorem finish_hdr (st : Status) (r : Word) (s : State) : (finish st r s).hdr = s.hdr := rfl
@[simp] theorem finish_built (st : Status) (r : Word) (s : State) : (finish st r s).built = s.built := rfl
@[simp] theorem finish_rxInvalidBits (st : Status) (r : Word) (s : State) : (finish st r s).rxInvalidBits = s.rxInvalidBits := rfl
@[simp] theorem finish_txq (st : Status) (r : Word) (s : State) : (finish st r s).txq = s.txq := rfl
@[simp] theorem finish_rxq (st : Status) (r : Word) (s : State) : (finish st r s).rxq = s.rxq := rfl
@[simp] theorem finish_tmr (st : Status) (r : Word) (s : State) : (finish st r s).tmr = s.tmr := rfl
@[simp] theorem finish_status (st : Status) (r : Word) (s : State) : (finish st r s).status = st := rfl
@[simp] theorem finish_result (st : Status) (r : Word) (s : State) : (finish st r s).result = if st = .ok then r else 0 := rfl
@[simp] theorem finish_rxOverflow (st : Status) (r : Word) (s : State) : (finish st r s).rxOverflow = s.rxOverflow := rfl
@[simp] theorem finish_busFault (st : Status) (r : Word) (s : State) : (finish st r s).busFault = s.busFault := rfl
@[simp] theorem finish_tick (st : Status) (r : Word) (s : State) : (finish st r s).tick = s.tick := rfl
@[simp] theorem finish_busy (st : Status) (r : Word) (s : State) : (finish st r s).busy = s.busy := rfl
@[simp] theorem finish_mem (st : Status) (r : Word) (s : State) : (finish st r s).mem = s.mem := rfl
@[simp] theorem finish_schedule (st : Status) (r : Word) (s : State) : (finish st r s).schedule = s.schedule := rfl
@[simp] theorem finish_draws (st : Status) (r : Word) (s : State) : (finish st r s).draws = s.draws := rfl

/-! ### pushTx -/

@[simp] theorem pushTx_cfg (es : List Entry) (s : State) : (State.pushTx es s).cfg = s.cfg := rfl
@[simp] theorem pushTx_be (es : List Entry) (s : State) : (State.pushTx es s).be = s.be := rfl
@[simp] theorem pushTx_hdr (es : List Entry) (s : State) : (State.pushTx es s).hdr = s.hdr := rfl
@[simp] theorem pushTx_built (es : List Entry) (s : State) : (State.pushTx es s).built = s.built := rfl
@[simp] theorem pushTx_rxInvalidBits (es : List Entry) (s : State) : (State.pushTx es s).rxInvalidBits = s.rxInvalidBits := rfl
@[simp] theorem pushTx_txq (es : List Entry) (s : State) : (State.pushTx es s).txq = s.txq ++ es := rfl
@[simp] theorem pushTx_rxq (es : List Entry) (s : State) : (State.pushTx es s).rxq = s.rxq := rfl
@[simp] theorem pushTx_tmr (es : List Entry) (s : State) : (State.pushTx es s).tmr = s.tmr := rfl
@[simp] theorem pushTx_status (es : List Entry) (s : State) : (State.pushTx es s).status = s.status := rfl
@[simp] theorem pushTx_result (es : List Entry) (s : State) : (State.pushTx es s).result = s.result := rfl
@[simp] theorem pushTx_rxOverflow (es : List Entry) (s : State) : (State.pushTx es s).rxOverflow = s.rxOverflow := rfl
@[simp] theorem pushTx_busFault (es : List Entry) (s : State) : (State.pushTx es s).busFault = s.busFault := rfl
@[simp] theorem pushTx_tick (es : List Entry) (s : State) : (State.pushTx es s).tick = s.tick := rfl
@[simp] theorem pushTx_busy (es : List Entry) (s : State) : (State.pushTx es s).busy = s.busy := rfl
@[simp] theorem pushTx_mem (es : List Entry) (s : State) : (State.pushTx es s).mem = s.mem := rfl
@[simp] theorem pushTx_schedule (es : List Entry) (s : State) : (State.pushTx es s).schedule = s.schedule := rfl
@[simp] theorem pushTx_draws (es : List Entry) (s : State) : (State.pushTx es s).draws = s.draws := rfl

/-! ### busError -/

@[simp] theorem busError_cfg (s : State) : (busError s).cfg = s.cfg := rfl
@[simp] theorem busError_be (s : State) : (busError s).be = s.be := rfl
@[simp] theorem busError_hdr (s : State) : (busError s).hdr = s.hdr := rfl
@[simp] theorem busError_built (s : State) : (busError s).built = s.built := rfl
@[simp] theorem busError_rxInvalidBits (s : State) : (busError s).rxInvalidBits = s.rxInvalidBits := rfl
@[simp] theorem busError_txq (s : State) : (busError s).txq = s.txq := rfl
@[simp] theorem busError_rxq (s : State) : (busError s).rxq = s.rxq := rfl
@[simp] theorem busError_tmr (s : State) : (busError s).tmr = s.tmr := rfl
@[simp] theorem busError_status (s : State) : (busError s).status = s.status := rfl
@[simp] theorem busError_result (s : State) : (busError s).result = s.result := rfl
@[simp] theorem busError_rxOverflow (s : State) : (busError s).rxOverflow = s.rxOverflow := rfl
@[simp] theorem busError_busFault (s : State) : (busError s).busFault = true := rfl
@[simp] theorem busError_tick (s : State) : (busError s).tick = s.tick := rfl
@[simp] theorem busError_busy (s : State) : (busError s).busy = s.busy := rfl
@[simp] theorem busError_mem (s : State) : (busError s).mem = s.mem := rfl
@[simp] theorem busError_schedule (s : State) : (busError s).schedule = s.schedule := rfl
@[simp] theorem busError_draws (s : State) : (busError s).draws = s.draws := rfl

/-! ### driveBusy -/

@[simp] theorem driveBusy_cfg (b : Bool) (s : State) : (driveBusy b s).cfg = s.cfg := rfl
@[simp] theorem driveBusy_be (b : Bool) (s : State) : (driveBusy b s).be = s.be := rfl
@[simp] theorem driveBusy_hdr (b : Bool) (s : State) : (driveBusy b s).hdr = s.hdr := rfl
@[simp] theorem driveBusy_built (b : Bool) (s : State) : (driveBusy b s).built = s.built := rfl
@[simp] theorem driveBusy_rxInvalidBits (b : Bool) (s : State) : (driveBusy b s).rxInvalidBits = s.rxInvalidBits := rfl
@[simp] theorem driveBusy_txq (b : Bool) (s : State) : (driveBusy b s).txq = s.txq := rfl
@[simp] theorem driveBusy_rxq (b : Bool) (s : State) : (driveBusy b s).rxq = s.rxq := rfl
@[simp] theorem driveBusy_tmr (b : Bool) (s : State) : (driveBusy b s).tmr = s.tmr := rfl
@[simp] theorem driveBusy_status (b : Bool) (s : State) : (driveBusy b s).status = s.status := rfl
@[simp] theorem driveBusy_result (b : Bool) (s : State) : (driveBusy b s).result = s.result := rfl
@[simp] theorem driveBusy_rxOverflow (b : Bool) (s : State) : (driveBusy b s).rxOverflow = s.rxOverflow := rfl
@[simp] theorem driveBusy_busFault (b : Bool) (s : State) : (driveBusy b s).busFault = s.busFault := rfl
@[simp] theorem driveBusy_tick (b : Bool) (s : State) : (driveBusy b s).tick = s.tick := rfl
@[simp] theorem driveBusy_busy (b : Bool) (s : State) : (driveBusy b s).busy = b := rfl
@[simp] theorem driveBusy_mem (b : Bool) (s : State) : (driveBusy b s).mem = s.mem := rfl
@[simp] theorem driveBusy_schedule (b : Bool) (s : State) : (driveBusy b s).schedule = s.schedule := rfl
@[simp] theorem driveBusy_draws (b : Bool) (s : State) : (driveBusy b s).draws = s.draws := rfl

/-! ### tickStep -/

@[simp] theorem tickStep_cfg (s : State) : (tickStep s).cfg = s.cfg := rfl
@[simp] theorem tickStep_be (s : State) : (tickStep s).be = s.be := rfl
@[simp] theorem tickStep_hdr (s : State) : (tickStep s).hdr = s.hdr := rfl
@[simp] theorem tickStep_built (s : State) : (tickStep s).built = s.built := rfl
@[simp] theorem tickStep_rxInvalidBits (s : State) : (tickStep s).rxInvalidBits = s.rxInvalidBits := rfl
@[simp] theorem tickStep_txq (s : State) : (tickStep s).txq = s.txq := rfl
@[simp] theorem tickStep_rxq (s : State) : (tickStep s).rxq = s.rxq := rfl
@[simp] theorem tickStep_tmr (s : State) : (tickStep s).tmr = s.tmr := rfl
@[simp] theorem tickStep_status (s : State) : (tickStep s).status = s.status := rfl
@[simp] theorem tickStep_result (s : State) : (tickStep s).result = s.result := rfl
@[simp] theorem tickStep_rxOverflow (s : State) : (tickStep s).rxOverflow = s.rxOverflow := rfl
@[simp] theorem tickStep_busFault (s : State) : (tickStep s).busFault = s.busFault := rfl
@[simp] theorem tickStep_tick (s : State) : (tickStep s).tick = BitVec.ofNat 32 ((s.tick.toNat + 1) % s.cfg.tickReload) := rfl
@[simp] theorem tickStep_busy (s : State) : (tickStep s).busy = s.busy := rfl
@[simp] theorem tickStep_mem (s : State) : (tickStep s).mem = s.mem := rfl
@[simp] theorem tickStep_schedule (s : State) : (tickStep s).schedule = s.schedule := rfl
@[simp] theorem tickStep_draws (s : State) : (tickStep s).draws = s.draws := rfl

/-! ### platformWrite -/

@[simp] theorem platformWrite_cfg (a : Word) (v : Byte) (s : State) : (platformWrite a v s).cfg = s.cfg := rfl
@[simp] theorem platformWrite_be (a : Word) (v : Byte) (s : State) : (platformWrite a v s).be = s.be := rfl
@[simp] theorem platformWrite_hdr (a : Word) (v : Byte) (s : State) : (platformWrite a v s).hdr = s.hdr := rfl
@[simp] theorem platformWrite_built (a : Word) (v : Byte) (s : State) : (platformWrite a v s).built = s.built := rfl
@[simp] theorem platformWrite_rxInvalidBits (a : Word) (v : Byte) (s : State) : (platformWrite a v s).rxInvalidBits = s.rxInvalidBits := rfl
@[simp] theorem platformWrite_txq (a : Word) (v : Byte) (s : State) : (platformWrite a v s).txq = s.txq := rfl
@[simp] theorem platformWrite_rxq (a : Word) (v : Byte) (s : State) : (platformWrite a v s).rxq = s.rxq := rfl
@[simp] theorem platformWrite_tmr (a : Word) (v : Byte) (s : State) : (platformWrite a v s).tmr = s.tmr := rfl
@[simp] theorem platformWrite_status (a : Word) (v : Byte) (s : State) : (platformWrite a v s).status = s.status := rfl
@[simp] theorem platformWrite_result (a : Word) (v : Byte) (s : State) : (platformWrite a v s).result = s.result := rfl
@[simp] theorem platformWrite_rxOverflow (a : Word) (v : Byte) (s : State) : (platformWrite a v s).rxOverflow = s.rxOverflow := rfl
@[simp] theorem platformWrite_busFault (a : Word) (v : Byte) (s : State) : (platformWrite a v s).busFault = s.busFault := rfl
@[simp] theorem platformWrite_tick (a : Word) (v : Byte) (s : State) : (platformWrite a v s).tick = s.tick := rfl
@[simp] theorem platformWrite_busy (a : Word) (v : Byte) (s : State) : (platformWrite a v s).busy = s.busy := rfl
@[simp] theorem platformWrite_mem (a : Word) (v : Byte) (s : State) : (platformWrite a v s).mem = Memory.write s.mem a.toNat v := rfl
@[simp] theorem platformWrite_schedule (a : Word) (v : Byte) (s : State) : (platformWrite a v s).schedule = s.schedule := rfl
@[simp] theorem platformWrite_draws (a : Word) (v : Byte) (s : State) : (platformWrite a v s).draws = s.draws := rfl

/-! ### resetBlock -/

@[simp] theorem resetBlock_cfg (s : State) : (resetBlock s).cfg = s.cfg := rfl
@[simp] theorem resetBlock_be (s : State) : (resetBlock s).be = false := rfl
@[simp] theorem resetBlock_hdr (s : State) : (resetBlock s).hdr = Header.zero := rfl
@[simp] theorem resetBlock_built (s : State) : (resetBlock s).built = Built.zero := rfl
@[simp] theorem resetBlock_rxInvalidBits (s : State) : (resetBlock s).rxInvalidBits = 0 := rfl
@[simp] theorem resetBlock_txq (s : State) : (resetBlock s).txq = [] := rfl
@[simp] theorem resetBlock_rxq (s : State) : (resetBlock s).rxq = [] := rfl
@[simp] theorem resetBlock_tmr (s : State) : (resetBlock s).tmr = Timer.zero := rfl
@[simp] theorem resetBlock_status (s : State) : (resetBlock s).status = .ok := rfl
@[simp] theorem resetBlock_result (s : State) : (resetBlock s).result = 0 := rfl
@[simp] theorem resetBlock_rxOverflow (s : State) : (resetBlock s).rxOverflow = s.rxOverflow := rfl
@[simp] theorem resetBlock_busFault (s : State) : (resetBlock s).busFault = s.busFault := rfl
@[simp] theorem resetBlock_tick (s : State) : (resetBlock s).tick = s.tick := rfl
@[simp] theorem resetBlock_busy (s : State) : (resetBlock s).busy = s.busy := rfl
@[simp] theorem resetBlock_mem (s : State) : (resetBlock s).mem = s.mem := rfl
@[simp] theorem resetBlock_schedule (s : State) : (resetBlock s).schedule = s.schedule := rfl
@[simp] theorem resetBlock_draws (s : State) : (resetBlock s).draws = s.draws := rfl

/-! ### scheduleFirst -/

@[simp] theorem scheduleFirst_cfg (e : Event) (s : State) : (scheduleFirst e s).cfg = s.cfg := rfl
@[simp] theorem scheduleFirst_be (e : Event) (s : State) : (scheduleFirst e s).be = s.be := rfl
@[simp] theorem scheduleFirst_hdr (e : Event) (s : State) : (scheduleFirst e s).hdr = s.hdr := rfl
@[simp] theorem scheduleFirst_built (e : Event) (s : State) : (scheduleFirst e s).built = s.built := rfl
@[simp] theorem scheduleFirst_rxInvalidBits (e : Event) (s : State) : (scheduleFirst e s).rxInvalidBits = s.rxInvalidBits := rfl
@[simp] theorem scheduleFirst_txq (e : Event) (s : State) : (scheduleFirst e s).txq = s.txq := rfl
@[simp] theorem scheduleFirst_rxq (e : Event) (s : State) : (scheduleFirst e s).rxq = s.rxq := rfl
@[simp] theorem scheduleFirst_tmr (e : Event) (s : State) : (scheduleFirst e s).tmr = s.tmr := rfl
@[simp] theorem scheduleFirst_status (e : Event) (s : State) : (scheduleFirst e s).status = s.status := rfl
@[simp] theorem scheduleFirst_result (e : Event) (s : State) : (scheduleFirst e s).result = s.result := rfl
@[simp] theorem scheduleFirst_rxOverflow (e : Event) (s : State) : (scheduleFirst e s).rxOverflow = s.rxOverflow := rfl
@[simp] theorem scheduleFirst_busFault (e : Event) (s : State) : (scheduleFirst e s).busFault = s.busFault := rfl
@[simp] theorem scheduleFirst_tick (e : Event) (s : State) : (scheduleFirst e s).tick = s.tick := rfl
@[simp] theorem scheduleFirst_busy (e : Event) (s : State) : (scheduleFirst e s).busy = s.busy := rfl
@[simp] theorem scheduleFirst_mem (e : Event) (s : State) : (scheduleFirst e s).mem = s.mem := rfl
@[simp] theorem scheduleFirst_schedule (e : Event) (s : State) : (scheduleFirst e s).schedule = e :: s.schedule := rfl
@[simp] theorem scheduleFirst_draws (e : Event) (s : State) : (scheduleFirst e s).draws = s.draws := rfl

@[simp] theorem raiseStatus_eq (st : Status) (s : State) : raiseStatus st s = finish st 0 s := rfl
@[simp] theorem illegalCommand_eq (s : State) : illegalCommand s = finish .illegalCommand 0 s := rfl

/-- `finish` as a record update, for statements about whole states. -/
theorem finish_eq (st : Status) (r : Word) (s : State) :
    finish st r s = { s with status := st, result := if st = .ok then r else 0 } := rfl

/-- `finish` reads nothing of STATUS and RESULT: the last one stands. -/
@[simp] theorem finish_finish (st st' : Status) (r r' : Word) (s : State) :
    finish st r (finish st' r' s) = finish st r s := rfl

@[simp] theorem txLevel_finish (st : Status) (r : Word) (s : State) : (finish st r s).txLevel = s.txLevel := rfl
@[simp] theorem rxLevel_finish (st : Status) (r : Word) (s : State) : (finish st r s).rxLevel = s.rxLevel := rfl
@[simp] theorem headerUnsent_finish (st : Status) (r : Word) (s : State) :
    (finish st r s).headerUnsent = s.headerUnsent := rfl

/-- An entry appended to RXQ, or the mark RX_OVERFLOW: everything `receive` can do (R267, R268). -/
theorem receive_cases (e : Entry) (s : State) :
    (s.rxLevel + e.count ≤ s.cfg.fifoDepth ∧ receive e s = { s with rxq := s.rxq ++ [e] }) ∨
    (s.cfg.fifoDepth < s.rxLevel + e.count ∧ receive e s = { s with rxOverflow := true }) := by
  unfold receive
  split
  · exact .inl ⟨‹_›, rfl⟩
  · exact .inr ⟨by omega, rfl⟩

end Sys2Proof.Machine
end

