-- ==== Sys2Proof/Laws/Exec.lean ====
section
/-! SUPPORT. One lemma per command that says once everything it can do (if it answers next t, then one of these cases), and
the same for an agent's step and a run of steps. Later proofs cite these and never unfold a meaning. -/

namespace Sys2Proof.Machine

variable {s t : State}

/-- SET_HEADER stores the fields or raises INVALID_PARAM (R151). -/
theorem setHeader_cases {cl al db : Nat} {cmd : BitVec 16} {addr : Word}
    (h : exec (.setHeader cl al db cmd addr) s = .next t) :
    (cl ≤ 2 ∧ al ≤ 4 ∧ 8 * cl + 8 * al + db ≤ 65535 ∧
      t = finish .ok 0 { s with hdr := ⟨cmd, addr, BitVec.ofNat 2 cl, BitVec.ofNat 3 al, BitVec.ofNat 16 db⟩ }) ∨
    (¬ (cl ≤ 2 ∧ al ≤ 4 ∧ 8 * cl + 8 * al + db ≤ 65535) ∧ t = finish .invalidParam 0 s) := by
  simp only [exec, execSetHeader] at h
  split at h <;> rename_i hc <;> simp only [headerAccepted, Bool.and_eq_true, decide_eq_true_eq] at hc <;>
    simp only [headerInvalidBits] at hc <;> cases h
  · exact .inl ⟨hc.1.1, hc.1.2, hc.2, rfl⟩
  · exact .inr ⟨by omega, rfl⟩

/-- SET_ENDIAN writes CFG.BE or raises ALREADY_BUSY (R230). -/
theorem setEndian_cases {e : Bool} (h : exec (.setEndian e) s = .next t) :
    (inFlight s = false ∧ t = finish .ok 0 { s with be := e }) ∨
    (inFlight s = true ∧ t = finish .alreadyBusy 0 s) := by
  simp only [exec, execSetEndian] at h
  split at h <;> cases h <;> simp_all

/-- BUILD_HEADER builds and consumes the header or raises ALREADY_BUSY (R155). -/
theorem buildHeader_cases (h : exec .buildHeader s = .next t) :
    (s.built.len.toNat ≤ s.built.pos.toNat ∧ t =
      finish .ok (BitVec.ofNat 16 (Header.invalidBits s.hdr) ++ BitVec.ofNat 16 (Header.padded s.hdr))
        { s with
          built := ⟨Memory.storeLow s.built.buf (order s.be (Header.layout s.hdr) (Header.raw s.hdr)),
            BitVec.ofNat 14 (Header.raw s.hdr), BitVec.ofNat 14 (Header.padded s.hdr), 0⟩
          rxInvalidBits := BitVec.ofNat 16 (Header.invalidBits s.hdr)
          hdr := Header.zero }) ∨
    (s.built.pos.toNat < s.built.len.toNat ∧ t = finish .alreadyBusy 0 s) := by
  simp only [exec, execBuildHeader] at h
  split at h <;> rename_i hc <;> simp [State.headerUnsent] at hc <;> cases h
  · exact .inr ⟨hc, rfl⟩
  · exact .inl ⟨hc, rfl⟩

/-- FILL_HDR pushes header words, or nothing when none is pending (R156). -/
theorem fillHdr_cases (h : exec .fillHdr s = .next t) :
    (s.built.pos = s.built.len ∧ t = finish .ok 0 s) ∨
    (s.built.pos ≠ s.built.len ∧ t =
      finish .ok (BitVec.ofNat 32 (fillHdrCount s))
        { s with
          txq := s.txq ++ headerEntries s.built (fillHdrCount s)
          built := { s.built with pos := BitVec.ofNat 14 (s.built.pos.toNat + fillHdrCount s) } }) := by
  simp only [exec, execFillHdr] at h
  split at h <;> cases h
  · exact .inl ⟨‹_›, rfl⟩
  · exact .inr ⟨‹_›, rfl⟩

/-- FILL_TX refuses a null pointer, then an unsent header, then meets a bus error, or pushes the packed bytes (R191, R64). -/
theorem fillTx_cases {src : Word} {len : Nat} (h : exec (.fillTx src len) s = .next t) :
    (nullBuffer src len = true ∧ t = finish .invalidParam 0 s) ∨
    (nullBuffer src len = false ∧ s.headerUnsent = true ∧ t = finish .alreadyBusy 0 s) ∨
    (nullBuffer src len = false ∧ s.headerUnsent = false ∧ bufReadable s.cfg src (fillTxCount len s) = false ∧
      t = busError s) ∨
    (nullBuffer src len = false ∧ s.headerUnsent = false ∧ bufReadable s.cfg src (fillTxCount len s) = true ∧
      t = finish .ok (BitVec.ofNat 32 (fillTxCount len s))
        { s with txq := s.txq ++ packedEntries s.be s.mem src (fillTxCount len s) }) := by
  simp only [exec, execFillTx] at h
  split at h
  · cases h; simp_all
  · split at h
    · cases h; simp_all
    · split at h <;> cases h <;> simp_all [State.pushTx]

/-- DRAIN_RX refuses a null pointer, reads nothing, meets a bus error, or writes the drained bytes (R192, R64). -/
theorem drainRx_cases {dst : Word} {remaining : Nat} (h : exec (.drainRx dst remaining) s = .next t) :
    (nullBuffer dst remaining = true ∧ t = finish .invalidParam 0 s) ∨
    (nullBuffer dst remaining = false ∧ drainRxCount remaining s = 0 ∧ t = finish .ok 0 s) ∨
    (nullBuffer dst remaining = false ∧ drainRxCount remaining s ≠ 0 ∧
      bufWritable s.cfg dst (drainRxCount remaining s) = false ∧ t = busError s) ∨
    (nullBuffer dst remaining = false ∧ drainRxCount remaining s ≠ 0 ∧
      bufWritable s.cfg dst (drainRxCount remaining s) = true ∧
      t = finish .ok (BitVec.ofNat 32 (drainRxCount remaining s))
        { s with
          mem := writeBuf s.mem dst 0 (drainedBytes s.be s.rxq (drainRxCount remaining s))
          rxq := drainedRest s.rxq (drainRxCount remaining s)
          rxInvalidBits := 0 }) := by
  simp only [exec, execDrainRx] at h
  split at h
  · cases h; simp_all
  · split at h
    · cases h; simp_all
    · split at h <;> cases h <;> simp_all

/-- FIFO_CLEAR (R193). -/
theorem fifoClear_cases (h : exec .fifoClear s = .next t) :
    t = finish .ok 0
      { s with txq := [], rxq := [], built := { s.built with pos := s.built.len }, rxInvalidBits := 0 } := by
  simp only [exec, execFifoClear] at h
  cases h; rfl

/-- TMR_START starts a wait or raises INVALID_PARAM (R122). -/
theorem tmrStart_cases {T c : Nat} (h : exec (.tmrStart T c) s = .next t) :
    (c ≠ 0 ∧ T ≠ 0 ∧ s.cfg.tickReload / c ≠ 0 ∧ t = finish .ok 0
      { s with tmr :=
        ⟨.running, timerMode s.cfg T c, s.tick, BitVec.ofNat 32 (timerBudget s.cfg T c), 0, s.tick⟩ }) ∨
    (¬ (c ≠ 0 ∧ T ≠ 0 ∧ s.cfg.tickReload / c ≠ 0) ∧ t = finish .invalidParam 0 s) := by
  simp only [exec, execTmrStart] at h
  split at h <;> rename_i hc <;> simp only [timerAccepted, Bool.and_eq_true, decide_eq_true_eq] at hc <;>
    simp only [maxSupportUs] at hc <;> cases h
  · exact .inl ⟨hc.1.1, hc.1.2, hc.2, rfl⟩
  · exact .inr ⟨fun hn => hc ⟨⟨hn.1, hn.2.1⟩, hn.2.2⟩, rfl⟩

/-- TMR_POLL, every way it can end (R123). -/
theorem tmrPoll_cases (h : exec .tmrPoll s = .next t) :
    (s.tmr.state = .idle ∧ t = finish .illegalCommand 0 s) ∨
    (s.tmr.state = .doneOk ∧ t = finish .ok 0 s) ∨
    (s.tmr.state = .doneTimeout ∧ t = finish .timeout 0 s) ∨
    (s.tmr.state = .running ∧ s.busy = false ∧ t = finish .ok 0 { s with tmr := { s.tmr with state := .doneOk } }) ∨
    (s.tmr.state = .running ∧ s.busy = true ∧
      ((s.tmr.mode = .direct ∧ directExpired s s.tick.toNat = true) ∨
       (s.tmr.mode = .crossing ∧ crossed s.cfg s.tmr.prevTick.toNat s.tick.toNat = true ∧ s.tmr.cross = s.tmr.budget)) ∧
      t = finish .timeout 0 { s with tmr := { s.tmr with prevTick := s.tick, state := .doneTimeout } }) ∨
    (s.tmr.state = .running ∧ s.busy = true ∧
      ((s.tmr.mode = .direct ∧ directExpired s s.tick.toNat = false) ∨
       (s.tmr.mode = .crossing ∧ crossed s.cfg s.tmr.prevTick.toNat s.tick.toNat = false)) ∧
      t = finish .ok 1 { s with tmr := { s.tmr with prevTick := s.tick } }) ∨
    (s.tmr.state = .running ∧ s.busy = true ∧ s.tmr.mode = .crossing ∧
      crossed s.cfg s.tmr.prevTick.toNat s.tick.toNat = true ∧ s.tmr.cross ≠ s.tmr.budget ∧
      t = finish .ok 1 { s with tmr := { s.tmr with prevTick := s.tick, cross := s.tmr.cross + 1 } }) := by
  simp only [exec, execTmrPoll] at h
  split at h
  · cases h; simp_all
  · cases h; simp_all
  · cases h; simp_all
  · split at h
    · split at h <;> cases h
      · unfold pollDirect; split <;> simp_all
      · unfold pollCrossing
        split
        · split <;> simp_all
        · simp_all
    · cases h; simp_all

/-- READ_CSR of an unassigned index, of an unspecified value, and of a register (R231). -/
theorem readCsr_cases {idx : Nat} (h : exec (.readCsr idx) s = .next t) :
    (Csr.ofIndex idx = none ∧ t = finish .invalidParam 0 s) ∨
    (∃ c, Csr.ofIndex idx = some c ∧ csrUnspecified s c = true ∧
      t = finish .ok (Config.freeWord s.draws) { s with draws := s.draws + 1 }) ∨
    (∃ c, Csr.ofIndex idx = some c ∧ csrUnspecified s c = false ∧ t = finish .ok (csrValue s c) s) := by
  simp only [exec, execReadCsr] at h
  split at h
  · cases h; simp_all
  · split at h <;> cases h <;> simp_all

/-- No command stops the machine (R11: "no command is refused by the model"). -/
theorem exec_ne_stop (i : Instr) (s : State) : ∃ t, exec i s = .next t := by
  cases i <;>
    simp only [exec, execSetHeader, execSetEndian, execBuildHeader, execFillHdr, execFillTx, execDrainRx, execFifoClear,
      execTmrStart, execTmrPoll, execReadCsr] <;>
    (repeat' split) <;> exact ⟨_, rfl⟩

/-! ### Agents -/

/-- What the Controller's step can be (R10, R64, R99). -/
theorem issueCommand_cases {c : Command} (h : issueCommand c s = .next t) :
    s.busFault = false ∧
    ((∃ i, decode c = .ok i ∧ exec i s = .next t) ∨
     (∃ e, decode c = .error e ∧ t = finish .illegalCommand 0 s)) := by
  simp only [issueCommand] at h
  split at h
  · cases h
  · refine ⟨by simp_all, ?_⟩
    split at h
    · exact .inl ⟨_, ‹_›, h⟩
    · cases h; exact .inr ⟨_, ‹_›, rfl⟩

/-- What the transmit step can be (R266, R271). -/
theorem shiftOut_cases (h : shiftOut s = .next t) :
    ∃ e es, s.txq = e :: es ∧
      ((s.cfg.loopback = false ∧ t = { s with txq := es }) ∨
       (s.cfg.loopback = true ∧ tailPartial s.rxq = false ∧ t = receive e { s with txq := es })) := by
  simp only [shiftOut] at h
  split at h
  · cases h
  · refine ⟨_, _, ‹_›, ?_⟩
    split at h
    · split at h
      · cases h
      · cases h; simp_all
    · cases h; simp_all

/-- What the receive step can be (R267, R268). -/
theorem rxPush_cases {w : Word} {c : Nat} (h : rxPush w c s = .next t) :
    s.cfg.loopback = false ∧ 1 ≤ c ∧ c ≤ 4 ∧ tailPartial s.rxq = false ∧ t = receive ⟨w, c⟩ s := by
  simp only [rxPush] at h
  split at h
  · cases h
  · split at h
    · cases h
    · split at h
      · cases h
      · cases h
        refine ⟨by simp_all, by omega, by omega, by simp_all, rfl⟩

@[simp] theorem andThen_next (s : State) (f : State → Host.Outcome State Fault Refusal) :
    andThen (.next s) f = f s := rfl

theorem andThen_cases {o : Host.Outcome State Fault Refusal} {f : State → Host.Outcome State Fault Refusal}
    (h : andThen o f = .next t) : ∃ u, o = .next u ∧ f u = .next t := by
  cases o with
  | next u => exact ⟨u, rfl, h⟩
  | fault r => cases h
  | refused r => cases h

@[simp] theorem runEvents_nil (s : State) : runEvents [] s = .next s := rfl
@[simp] theorem runEvents_cons (e : Event) (es : List Event) (s : State) :
    runEvents (e :: es) s = andThen (agentStep e s) (runEvents es) := rfl

/-- What every step of a run keeps, the run keeps. -/
theorem runEvents_keeps {P : State → Prop} {es : List Event}
    (hstep : ∀ e ∈ es, ∀ s t, P s → agentStep e s = .next t → P t) (hs : P s) (h : runEvents es s = .next t) : P t := by
  induction es generalizing s with
  | nil => cases h; exact hs
  | cons e es ih =>
    obtain ⟨u, hu, h⟩ := andThen_cases h
    exact ih (fun e he => hstep e (by simp [he])) (hstep e (by simp) s u hs hu) h

/-- What a step can be (R4, log 1, log 2). -/
theorem step_cases (h : step s = .next t) :
    (s.schedule = [] ∧ t = s) ∨
    (∃ e es, s.schedule = e :: es ∧ agentStep e { s with schedule := es } = .next t) := by
  simp only [step, takeEvent] at h
  cases hs : s.schedule with
  | nil => rw [hs] at h; cases h; exact .inl ⟨rfl, rfl⟩
  | cons e es => rw [hs] at h; exact .inr ⟨e, es, rfl, h⟩

end Sys2Proof.Machine
end

