-- ==== Sys2Proof/Laws/Pseudo.lean ====
section
/-! SUPPORT. What one pass of a pseudo-command's loop can do (30_encoding.md R101, R102), said once, for the statements about
WAIT_IDLE and SEND_HEADER. -/

namespace Sys2Proof.Machine

variable {s t : State} {i : Instr}

/-- A command the Controller issues runs as `exec` of the instruction, when the encoding decodes to it. -/
theorem issue_of_decode (hd : decode (encode i) = .ok i) (h : s.busFault = false) : issue i s = exec i s := by
  simp [issue, issueCommand, h, hd]

theorem issue_cases (hd : decode (encode i) = .ok i) (h : issue i s = .next t) :
    s.busFault = false ∧ exec i s = .next t := by
  have hb := (issueCommand_cases h).1
  exact ⟨hb, by rwa [issue_of_decode hd hb] at h⟩

theorem issueAfter_cases {gap : List Event} (hd : decode (encode i) = .ok i) (h : issueAfter gap i s = .next t) :
    ∃ u, runEvents gap s = .next u ∧ u.busFault = false ∧ exec i u = .next t := by
  obtain ⟨u, hu, h⟩ := andThen_cases h
  exact ⟨u, hu, issue_cases hd h⟩

theorem decode_encode_tmrPoll : decode (encode .tmrPoll) = .ok .tmrPoll := by decide
theorem decode_encode_fillHdr : decode (encode .fillHdr) = .ok .fillHdr := by decide
theorem decode_encode_readPos : decode (encode (.readCsr 0x0006)) = .ok (.readCsr 0x0006) := by decide
theorem decode_encode_readLen : decode (encode (.readCsr 0x0005)) = .ok (.readCsr 0x0005) := by decide

/-- HDR_LEN and HDR_POS read with READ_CSR. -/
theorem exec_readLen (s : State) : exec (.readCsr 0x0005) s = .next (finish .ok (s.built.len.setWidth 32) s) := rfl
theorem exec_readPos (s : State) : exec (.readCsr 0x0006) s = .next (finish .ok (s.built.pos.setWidth 32) s) := rfl

/-- A pass of WAIT_IDLE polls after its gap, then ends there or goes on: it goes on where STATUS is OK and RESULT is not 0. -/
theorem pollPass_cases {gap : List Event} {again : State → Host.Outcome State Fault Refusal}
    (h : pollPass gap s again = .next t) :
    ∃ u v, runEvents gap s = .next u ∧ u.busFault = false ∧ exec .tmrPoll u = .next v ∧
      (((v.status ≠ .ok ∨ v.result = 0) ∧ t = v) ∨ (v.status = .ok ∧ v.result ≠ 0 ∧ again v = .next t)) := by
  obtain ⟨v, hv, h⟩ := andThen_cases h
  obtain ⟨u, hu, hb, hx⟩ := issueAfter_cases decode_encode_tmrPoll hv
  refine ⟨u, v, hu, hb, hx, ?_⟩
  split at h
  · rename_i hc; cases h; exact .inl ⟨hc, rfl⟩
  · rename_i hc; push Not at hc; exact .inr ⟨hc.1, hc.2, h⟩

/-- A pass of SEND_HEADER fills after its first gap and, where that ends with OK, reads HDR_POS and HDR_LEN after the other
two; it goes on where the two values read differ. -/
theorem headerPass_cases {g : PassGaps} {again : State → Host.Outcome State Fault Refusal}
    (h : headerPass g s again = .next t) :
    ∃ u v, runEvents g.beforeFill s = .next u ∧ u.busFault = false ∧ exec .fillHdr u = .next v ∧
      ((v.status ≠ .ok ∧ t = v) ∨
       ∃ p l, v.status = .ok ∧ runEvents g.beforePos v = .next p ∧
        runEvents g.beforeLen (finish .ok (p.built.pos.setWidth 32) p) = .next l ∧
        ((p.built.pos.setWidth 32 = (l.built.len.setWidth 32 : Word) ∧ t = finish .ok (l.built.len.setWidth 32) l) ∨
         (p.built.pos.setWidth 32 ≠ (l.built.len.setWidth 32 : Word) ∧
          again (finish .ok (l.built.len.setWidth 32) l) = .next t))) := by
  obtain ⟨v, hv, h⟩ := andThen_cases h
  obtain ⟨u, hu, hb, hx⟩ := issueAfter_cases decode_encode_fillHdr hv
  refine ⟨u, v, hu, hb, hx, ?_⟩
  split at h
  · rename_i hc; cases h; exact .inl ⟨hc, rfl⟩
  · rename_i hc
    obtain ⟨p', hp, h⟩ := andThen_cases h
    obtain ⟨p, hpr, _, hpx⟩ := issueAfter_cases decode_encode_readPos hp
    obtain ⟨l', hl, h⟩ := andThen_cases h
    obtain ⟨l, hlr, _, hlx⟩ := issueAfter_cases decode_encode_readLen hl
    rw [exec_readPos] at hpx
    rw [exec_readLen] at hlx
    cases hpx; cases hlx
    refine .inr ⟨p, l, not_not.1 hc, hpr, hlr, ?_⟩
    simp only [finish_result, if_true] at h
    split at h
    · rename_i he; cases h; exact .inl ⟨he, rfl⟩
    · rename_i he; exact .inr ⟨he, h⟩

end Sys2Proof.Machine
end

