-- ==== Sys2Proof/Laws/Runs.lean ====
section
/-! SUPPORT. The comparator and TICK over a run with no TMR_START and no reset (41_timer.md R126 to R128), and what writing
STATUS and RESULT keeps. -/

namespace Sys2Proof.Machine

variable {s t : State}

/-- Receiving an entry touches RXQ and RX_OVERFLOW only. -/
theorem receive_eq (e : Entry) (s : State) :
    receive e s = { s with rxq := (receive e s).rxq, rxOverflow := (receive e s).rxOverflow } := by
  rcases receive_cases e s with ⟨_, h⟩ | ⟨_, h⟩ <;> rw [h]

/-- `finish` keeps the invariants. -/
theorem Invariants.finish (h : Invariants s) (st : Status) (r : Word) (hf : st ≠ .failed) :
    Invariants (Sys2Proof.Machine.finish st r s) where
  cfg := h.cfg
  cmdLen := h.cmdLen
  addrLen := h.addrLen
  bits := h.bits
  posLe := h.posLe
  lenLe := h.lenLe
  posMod := h.posMod
  lenMod := h.lenMod
  lenRaw := h.lenRaw
  txLevel := h.txLevel
  rxLevel := h.rxLevel
  rxTail := h.rxTail
  txCounts := h.txCounts
  rxCounts := h.rxCounts
  tick := h.tick
  startTick := h.startTick
  prevTick := h.prevTick
  cross := h.cross
  direct := h.direct
  result := fun hst => by simp [show st ≠ .ok from hst]
  notFailed := hf
  mem := h.mem
  memBelow := h.memBelow
  hdrBuf := h.hdrBuf
  hdrBelow := h.hdrBelow

/-- A command that is no TMR_START and no TMR_POLL leaves the comparator, TICK, BUSY and the parameters. -/
theorem exec_leaves_timer {i : Instr} (h : exec i s = .next t) (hp : i ≠ .tmrPoll) (hs : ∀ a b, i ≠ .tmrStart a b) :
    t.tmr = s.tmr ∧ t.tick = s.tick ∧ t.busy = s.busy ∧ t.cfg = s.cfg := by
  cases i with
  | setHeader => rcases setHeader_cases h with ⟨_, _, _, rfl⟩ | ⟨_, rfl⟩ <;> exact ⟨rfl, rfl, rfl, rfl⟩
  | setEndian => rcases setEndian_cases h with ⟨_, rfl⟩ | ⟨_, rfl⟩ <;> exact ⟨rfl, rfl, rfl, rfl⟩
  | buildHeader => rcases buildHeader_cases h with ⟨_, rfl⟩ | ⟨_, rfl⟩ <;> exact ⟨rfl, rfl, rfl, rfl⟩
  | fillHdr => rcases fillHdr_cases h with ⟨_, rfl⟩ | ⟨_, rfl⟩ <;> exact ⟨rfl, rfl, rfl, rfl⟩
  | fillTx =>
    rcases fillTx_cases h with ⟨_, rfl⟩ | ⟨_, _, rfl⟩ | ⟨_, _, _, rfl⟩ | ⟨_, _, _, rfl⟩ <;> exact ⟨rfl, rfl, rfl, rfl⟩
  | drainRx =>
    rcases drainRx_cases h with ⟨_, rfl⟩ | ⟨_, _, rfl⟩ | ⟨_, _, _, rfl⟩ | ⟨_, _, _, rfl⟩ <;> exact ⟨rfl, rfl, rfl, rfl⟩
  | fifoClear => rw [fifoClear_cases h]; exact ⟨rfl, rfl, rfl, rfl⟩
  | tmrStart => exact absurd rfl (hs _ _)
  | tmrPoll => exact absurd rfl hp
  | readCsr => rcases readCsr_cases h with ⟨_, rfl⟩ | ⟨_, _, _, rfl⟩ | ⟨_, _, _, rfl⟩ <;> exact ⟨rfl, rfl, rfl, rfl⟩

/-- TMR_POLL leaves TICK, BUSY, the parameters and what TMR_START fixed. -/
theorem tmrPoll_leaves (h : exec .tmrPoll s = .next t) :
    t.tick = s.tick ∧ t.busy = s.busy ∧ t.cfg = s.cfg ∧
    t.tmr.mode = s.tmr.mode ∧ t.tmr.budget = s.tmr.budget ∧ t.tmr.startTick = s.tmr.startTick := by
  rcases tmrPoll_cases h with
    ⟨_, rfl⟩ | ⟨_, rfl⟩ | ⟨_, rfl⟩ | ⟨_, _, rfl⟩ | ⟨_, _, _, rfl⟩ | ⟨_, _, _, rfl⟩ | ⟨_, _, _, _, _, rfl⟩ <;>
    exact ⟨rfl, rfl, rfl, rfl, rfl, rfl⟩

/-- A step that does not restart the comparator leaves it or is a TMR_POLL; only the Tick Counter changes TICK. -/
theorem agentStep_timer {e : Event} (h : agentStep e s = .next t) (hr : e.restartsTimer = false) :
    t.cfg = s.cfg ∧ (t.tmr = s.tmr ∨ exec .tmrPoll s = .next t) ∧
    (e = .tick → t = tickStep s) ∧ (e ≠ .tick → t.tick = s.tick) := by
  cases e with
  | command c =>
    obtain ⟨_, ⟨i, hd, hx⟩ | ⟨_, _, rfl⟩⟩ := issueCommand_cases h
    · by_cases hp : i = .tmrPoll
      · subst hp
        have := tmrPoll_leaves hx
        exact ⟨this.2.2.1, .inr hx, by simp, fun _ => this.1⟩
      · have := exec_leaves_timer hx hp (by rintro a b rfl; simp [Event.restartsTimer, hd] at hr)
        exact ⟨this.2.2.2, .inl this.1, by simp, fun _ => this.2.1⟩
    · exact ⟨rfl, .inl rfl, by simp, fun _ => rfl⟩
  | shiftOut =>
    obtain ⟨e, es, _, ⟨_, rfl⟩ | ⟨_, _, rfl⟩⟩ := shiftOut_cases h
    · exact ⟨rfl, .inl rfl, by simp, fun _ => rfl⟩
    · rw [receive_eq]; exact ⟨rfl, .inl rfl, by simp, fun _ => rfl⟩
  | rxPush w c =>
    obtain ⟨_, _, _, _, rfl⟩ := rxPush_cases h
    rw [receive_eq]; exact ⟨rfl, .inl rfl, by simp, fun _ => rfl⟩
  | setBusy => cases h; exact ⟨rfl, .inl rfl, by simp, fun _ => rfl⟩
  | tick => cases h; exact ⟨rfl, .inl rfl, fun _ => rfl, by simp⟩
  | blockReset => simp [Event.restartsTimer] at hr
  | bufWrite => cases h; exact ⟨rfl, .inl rfl, by simp, fun _ => rfl⟩

end Sys2Proof.Machine
end

