-- ==== Sys2Proof/Tests/Slice0.lean ====
section
/-! SUPPORT. Small tests of one step each, with the expected values of 95_test_vectors.md (named in each comment) or of the
encoding tables of 30_encoding.md, and for every statement with hypotheses a witness that meets them. -/

open Sys2Proof Sys2Proof.Machine

namespace Sys2Proof.Tests

/-- A property of the next state; false where there is none. -/
def holdsAfter (o : Host.Outcome State Fault Refusal) (p : State → Bool) : Bool :=
  match o with
  | .next s    => p s
  | .fault _   => false
  | .refused _ => false

/-- The state an outcome goes on with; the given one where it stops. -/
def nextOr (d : State) (o : Host.Outcome State Fault Refusal) : State :=
  match o with
  | .next s    => s
  | .fault _   => d
  | .refused _ => d

/-- Reset, with the bytes of a buffer in memory. -/
def withBytes (base : Word) (bs : List Byte) : State := { State.reset with mem := writeBuf [] base 0 bs }

/-- Bytes 00, 01, … 0B at 0x2000 (section 2.4). -/
def counting : State := withBytes 0x2000 ((List.range 12).map (BitVec.ofNat 8))

/-- Reset, then SET_HEADER of H1 (1, 3, 8; 0x03; 0x000010), under the byte order `be`. -/
def headerSet (be : Bool) : State := nextOr State.reset (exec (.setHeader 1 3 8 0x03 0x10) { State.reset with be := be })

/-- The same after BUILD_HEADER. -/
def headerBuilt (be : Bool) : State := nextOr State.reset (exec .buildHeader (headerSet be))

/-- SET_HEADER of H3 (1, 0, 0; 0x9F). -/
def shortSet : State := nextOr State.reset (exec (.setHeader 1 0 0 0x9F 0) State.reset)

/-- The same after BUILD_HEADER. -/
def shortBuilt : State := nextOr State.reset (exec .buildHeader shortSet)

/-- SET_HEADER of H20 (0, 0, 320): a header of 40 bytes, more than TXQ holds. -/
def longSet : State := nextOr State.reset (exec (.setHeader 0 0 320 0 0) State.reset)

/-- RX_INVALID_BITS 40 and the RXQ of DR1 (section 2.5). -/
def received : State := { State.reset with rxInvalidBits := 40, rxq := [⟨0x44332211, 4⟩, ⟨0x00006655, 2⟩] }

/-- A wait of TS1 started: TICK 900, T 500, c 1, BUSY 1 (sections 2.8, 2.9). -/
def waiting : State := nextOr State.reset (exec (.tmrStart 500 1) { State.reset with tick := 900, busy := true })

/-- A small counter, R = 4, BUSY 1. -/
def fourTicks : State := { State.reset with cfg := { Config.testVectors with tickReload := 4 }, busy := true }

/-- A platform that admits no buffer access (R64). -/
def noMemory (s : State) : State := { s with cfg := { s.cfg with regions := [] } }

/-- The loopback configuration (R271). -/
def looped (s : State) : State := { s with cfg := { s.cfg with loopback := true } }

/-! ### Well-formedness: each check refuses a term that breaks it -/

theorem test_wf_cl : (Instr.setHeader 4 0 0 0 0).wf = false := by decide
theorem test_wf_al : (Instr.setHeader 0 8 0 0 0).wf = false := by decide
theorem test_wf_db : (Instr.setHeader 0 0 65536 0 0).wf = false := by decide
theorem test_wf_fillTx_len : (Instr.fillTx 0 (2 ^ 32)).wf = false := by decide
theorem test_wf_drainRx_remaining : (Instr.drainRx 0 (2 ^ 32)).wf = false := by decide
theorem test_wf_tmrStart_timeout : (Instr.tmrStart (2 ^ 32) 1).wf = false := by decide
theorem test_wf_tmrStart_clock : (Instr.tmrStart 1 (2 ^ 32)).wf = false := by decide
theorem test_wf_readCsr_idx : (Instr.readCsr 65536).wf = false := by decide

/-! ### Decoding words written out from R91 to R94 -/

/-- SH1: DB = 8 | 000 | AL = 3 | CL = 1 | OPC = 1. -/
theorem test_decode_setHeader :
    decode ⟨0b0000000000001000_000_011_01_00000001, 0xFFFF0003, 0x10⟩ = .ok (.setHeader 1 3 8 0x03 0x10) := by rfl
/-- The ends of the fields: DB = 0x8001, AL = 4, CL = 2. -/
theorem test_decode_setHeader_ends :
    decode ⟨0b1000000000000001_000_100_10_00000001, 0, 0⟩ = .ok (.setHeader 2 4 0x8001 0 0) := by rfl
theorem test_decode_setEndian : decode ⟨0b1_00000010, 7, 7⟩ = .ok (.setEndian true) := by rfl
theorem test_decode_buildHeader : decode ⟨0b00000011, 7, 7⟩ = .ok .buildHeader := by rfl
theorem test_decode_fillHdr : decode ⟨0b00000100, 7, 7⟩ = .ok .fillHdr := by rfl
theorem test_decode_fillTx : decode ⟨0b00000101, 0x2000, 10⟩ = .ok (.fillTx 0x2000 10) := by rfl
theorem test_decode_drainRx : decode ⟨0b00000110, 0x3000, 16⟩ = .ok (.drainRx 0x3000 16) := by rfl
theorem test_decode_fifoClear : decode ⟨0b00000111, 7, 7⟩ = .ok .fifoClear := by rfl
theorem test_decode_tmrStart : decode ⟨0b00001000, 500, 1⟩ = .ok (.tmrStart 500 1) := by rfl
theorem test_decode_tmrPoll : decode ⟨0b00001001, 7, 7⟩ = .ok .tmrPoll := by rfl
/-- H18: IDX = 0x1001. -/
theorem test_decode_readCsr : decode ⟨0b00000000_0001000000000001_00001010, 7, 7⟩ = .ok (.readCsr 0x1001) := by rfl
/-- DC1 to DC8. -/
theorem test_decode_illegal :
    ([0x00000000, 0x0000000B, 0x000000FF, 0x00000103, 0x00002001, 0x00000202, 0x0100000A, 0x80000009] : List Word).all
      (fun cw => (selectOp cw).isNone) = true := by decide
theorem test_table_word_placed :
    decodeTableWord 96 0x0000000A_00002000_00000005 = some (.fillTx 0x2000 10) := by decide

/-! ### pack, unpack, hdrword (PK1 to PK10) -/

theorem test_pack :
    pack false [0x11, 0x22, 0x33] = 0x00332211 ∧ pack true [0x11, 0x22, 0x33] = 0x00112233 ∧
    pack false [0x11, 0x22, 0x33, 0x44] = 0x44332211 ∧ pack true [0x11, 0x22] = 0x00001122 := by decide
theorem test_unpack :
    unpack true 0xFFFF1122 2 = [0x11, 0x22] ∧ unpack true 0x11223344 4 = [0x11, 0x22, 0x33, 0x44] ∧
    unpack false 0x44332211 2 = [0x11, 0x22] ∧ hdrword [0x03, 0x00, 0x00, 0x10] = 0x10000003 := by decide

/-! ### One step of each command -/

/-- SH5. -/
theorem test_setHeader_largest : holdsAfter (exec (.setHeader 2 4 65487 0x5678 0xCAFEBABE) State.reset) (fun s =>
    s.hdr == ⟨0x5678, 0xCAFEBABE, 2, 4, 65487⟩ && s.status == .ok) = true := by decide
/-- SH6. -/
theorem test_setHeader_refused : holdsAfter (exec (.setHeader 2 4 65488 0x5678 0xCAFEBABE) State.reset) (fun s =>
    s.hdr == Header.zero && s.status == .invalidParam) = true := by decide
/-- H1. -/
theorem test_buildHeader : holdsAfter (exec .buildHeader (headerSet false)) (fun s =>
    s.result == 0x00280008 && s.built.raw == 5 && s.hdr == Header.zero && s.rxInvalidBits == 40 &&
    (List.range 8).map (Memory.read s.built.buf) == [0x03, 0, 0, 0x10, 0xFF, 0xFF, 0xFF, 0xFF]) = true := by decide
/-- H13: two groups, the un-padded length 6, big-endian. -/
theorem test_buildHeader_big : holdsAfter
    (exec .buildHeader { State.reset with be := true, hdr := ⟨0xABCD, 0x11223344, 2, 4, 0⟩ }) (fun s =>
    s.result == 0x00300008 &&
    (List.range 8).map (Memory.read s.built.buf) == [0x22, 0x11, 0xCD, 0xAB, 0xFF, 0xFF, 0x44, 0x33]) = true := by decide
/-- H2. -/
theorem test_fillHdr : holdsAfter (exec .fillHdr (headerBuilt true)) (fun s =>
    s.txq == [⟨0x03000010, 4⟩, ⟨0xFFFFFFFF, 4⟩] && s.result == 8 && s.built.pos == 8) = true := by decide
/-- H3: a short header carries only its un-padded bytes. -/
theorem test_fillHdr_short : holdsAfter (exec .fillHdr shortBuilt) (fun s =>
    s.txq == [⟨0xFFFFFF9F, 1⟩] && s.result == 4) = true := by decide
/-- TX8. -/
theorem test_fillTx : holdsAfter (exec (.fillTx 0x2000 10) { counting with be := true }) (fun s =>
    s.txq == [⟨0x00010203, 4⟩, ⟨0x04050607, 4⟩, ⟨0x00000809, 2⟩] && s.result == 10) = true := by decide
/-- TX15: the address wraps. -/
theorem test_fillTx_wraps : holdsAfter (exec (.fillTx 0xFFFFFFFE 3) (withBytes 0xFFFFFFFE [0xAA, 0xBB, 0xCC])) (fun s =>
    s.txq == [⟨0x00CCBBAA, 3⟩] && s.result == 3) = true := by decide
/-- DR3: the byte 66 is discarded. -/
theorem test_drainRx : holdsAfter (exec (.drainRx 0x3000 5) received) (fun s =>
    (List.range 6).map (fun i => Memory.read s.mem (0x3000 + i)) == [0x11, 0x22, 0x33, 0x44, 0x55, 0x00] &&
    s.rxq == [] && s.result == 5 && s.rxInvalidBits == 0) = true := by decide
/-- DR9: unaligned, big-endian, partial. -/
theorem test_drainRx_big : holdsAfter
    (exec (.drainRx 0x3001 3) { State.reset with be := true, rxq := [⟨0x00112233, 3⟩] }) (fun s =>
    s.mem == [(0x3001, 0x11), (0x3002, 0x22), (0x3003, 0x33)] && s.rxq == [] && s.result == 3) = true := by decide
/-- FC1. -/
theorem test_fifoClear : holdsAfter (exec .fifoClear
    { received with txq := [⟨0x03020100, 4⟩], built := ⟨[], 5, 8, 4⟩ }) (fun s =>
    s.txq == [] && s.rxq == [] && s.built == ⟨[], 5, 8, 8⟩ && s.rxInvalidBits == 0 && s.status == .ok) = true := by decide
/-- SE1. -/
theorem test_setEndian : holdsAfter (exec (.setEndian true) State.reset) (fun s => s.be && s.status == .ok) = true := by
  decide
/-- SE4. -/
theorem test_setEndian_refused : holdsAfter (exec (.setEndian true) shortBuilt) (fun s =>
    !s.be && s.status == .alreadyBusy) = true := by decide
/-- TS1. -/
theorem test_tmrStart_direct : waiting.tmr = ⟨.running, .direct, 900, 500, 0, 900⟩ := by decide
/-- TS3: T = M chooses CROSSING. -/
theorem test_tmrStart_crossing : holdsAfter (exec (.tmrStart 1000 1) State.reset) (fun s =>
    s.tmr == ⟨.running, .crossing, 0, 1, 0, 0⟩ && s.status == .ok) = true := by decide
/-- TP2: an elapsed count of 500 does not exceed the budget, 501 does. -/
theorem test_tmrPoll_direct :
    holdsAfter (exec .tmrPoll { waiting with tick := 400 }) (fun s => s.status == .ok && s.result == 1) = true ∧
    holdsAfter (exec .tmrPoll { waiting with tick := 401 }) (fun s =>
      s.status == .timeout && s.result == 0 && s.tmr.state == .doneTimeout && s.tmr.prevTick == 401) = true := by decide
/-- TP8: the crossing between 499 and 500 finds the count at the budget. -/
theorem test_tmrPoll_crossing : holdsAfter
    (exec .tmrPoll { State.reset with tmr := ⟨.running, .crossing, 100, 1, 1, 499⟩, tick := 500, busy := true }) (fun s =>
    s.status == .timeout && s.tmr == ⟨.doneTimeout, .crossing, 100, 1, 1, 500⟩) = true := by decide
/-- RC4. -/
theorem test_readCsr_hdrCtrl : holdsAfter (exec (.readCsr 0x0003) (headerSet false)) (fun s =>
    s.result == 0x00080031 && s.status == .ok) = true := by decide
/-- RC6, RC8, RC9 and H18. -/
theorem test_readCsr_others :
    holdsAfter (exec (.readCsr 0x000A) { State.reset with tmr := ⟨.running, .crossing, 0, 1, 0, 0⟩ }) (fun s =>
      s.result == 0x11) = true ∧
    holdsAfter (exec (.readCsr 0x0010) State.reset) (fun s => s.result == 999) = true ∧
    holdsAfter (exec (.readCsr 0x0013) State.reset) (fun s => s.status == .invalidParam) = true ∧
    holdsAfter (exec (.readCsr 0x1000) (headerBuilt false)) (fun s => s.result == 0x10000003) = true := by decide
/-- P1, step 4, through `step`: the placed word runs as the next command. -/
theorem test_step_placed : holdsAfter (step (State.withFetchWord (headerBuilt false) 96 0x0000000400002000_00000005)) (fun s =>
    s.status == .alreadyBusy && s.schedule == []) = true := by decide

/-- R101 tests at the bottom, so a wait makes one poll even when nothing happens before it. -/
theorem test_waitIdle_polls_once : holdsAfter (waitIdle 500 1 [] [] State.reset) (fun s =>
    s.status == .ok && s.result == 0 && s.tmr.state == .doneOk) = true := by decide
/-- H20 by R102: the first FILL_HDR sends 32 of the 40 bytes, the second, two entries later, the rest; RESULT is HDR_LEN. -/
theorem test_sendHeader_two_passes : holdsAfter
    (sendHeader ⟨[], [], []⟩ [⟨[.shiftOut, .shiftOut], [], []⟩] longSet) (fun s =>
    s.status == .ok && s.result == 40 && s.built.pos == 40 && s.txq.length == 8) = true := by decide

/-! ### Witnesses: for each statement with hypotheses a state and operands that meet them -/

theorem inv_counting : Invariants counting := by constructor <;> decide
theorem inv_headerSet (be : Bool) : Invariants (headerSet be) := by cases be <;> constructor <;> decide
theorem inv_headerBuilt (be : Bool) : Invariants (headerBuilt be) := by cases be <;> constructor <;> decide
theorem inv_shortSet : Invariants shortSet := by constructor <;> decide
theorem inv_longSet : Invariants longSet := by constructor <;> decide
theorem inv_shortBuilt : Invariants shortBuilt := by constructor <;> decide
theorem inv_received : Invariants received := by constructor <;> decide
theorem inv_waiting : Invariants waiting := by constructor <;> decide
theorem inv_fourTicks : Invariants fourTicks := by constructor <;> decide
theorem inv_looped : Invariants (looped counting) := by constructor <;> decide

theorem witness_DecodeOfEncode :
    (Instr.setHeader 3 7 65535 0xFFFF 0xFFFFFFFF).wf = true ∧ (Instr.fillTx 0 4294967295).wf = true ∧
    (Instr.drainRx 0 4294967295).wf = true ∧ (Instr.tmrStart 4294967295 4294967295).wf = true ∧
    (Instr.readCsr 65535).wf = true := by decide
theorem witness_EncodeOfDecode : ∃ i, decode ⟨0xFFFFBF01 &&& 0xFFFF1FFF, 1, 2⟩ = .ok i := ⟨_, rfl⟩
theorem witness_OneRowAtMostSelects :
    (∃ r ∈ opcodeRows, ∃ r' ∈ opcodeRows, r.selects 0x00000003 = true ∧ r'.selects 0x00000003 = true) ∧
    (∀ r ∈ opcodeRows, r.selects 0x00000103 = false) := by decide
/-- One word for each disjunct, at the ends of its range. -/
theorem witness_IllegalCommandWordOutcome :
    ([0x00000000, 0x0000000B, 0x000000FF, 0x00002001, 0x00008001, 0x00000202, 0x80000002, 0x00000103, 0x80000009,
      0x0100000A, 0x8000000A] : List Word).all (fun cw => (selectOp cw).isNone) = true ∧ State.reset.busFault = false := by
  decide
theorem witness_OperandUse :
    selectOp 0xFFFF1F01 = some .setHeader ∧ (0x12345678 : Word).toNat % 2 ^ 16 = (0x00005678 : Word).toNat % 2 ^ 16 ∧
    selectOp 5 = some .fillTx ∧ selectOp 6 = some .drainRx ∧ selectOp 8 = some .tmrStart ∧
    selectOp 0x102 = some .setEndian ∧ selectOp 3 = some .buildHeader ∧ selectOp 4 = some .fillHdr ∧
    selectOp 7 = some .fifoClear ∧ selectOp 9 = some .tmrPoll ∧ selectOp 0x00FFFF0A = some .readCsr := by decide
theorem witness_StepRunsDecodedCommand :
    (∃ (s : State) (c : Command) (rest : List Event), s.schedule = .command c :: rest ∧ s.busFault = false ∧
      decode c = .ok .fillHdr) ∧
    decodeTableWord 32 0x00FFFF0A = some (.readCsr 65535) ∧ State.reset.busFault = false :=
  ⟨⟨{ headerBuilt false with schedule := [.command ⟨4, 9, 9⟩, .tick] }, ⟨4, 9, 9⟩, [.tick], rfl, by decide, rfl⟩,
    by decide, by decide⟩
theorem witness_StepRunsScheduledEvent :
    ({ State.reset with schedule := [.tick, .shiftOut] } : State).schedule = .tick :: [.shiftOut] ∧
    State.reset.schedule = [] := by decide
theorem witness_BusFaultSticksController :
    ((¬ (0 < 3 ∧ (0x2000 : Word) = 0)) ∧
      ¬ (noMemory counting).built.pos.toNat < (noMemory counting).built.len.toNat ∧
      0 < min 3 ((noMemory counting).cfg.fifoDepth - 4 * (noMemory counting).txq.length) ∧
      admitsRead (noMemory counting).cfg (((0x2000 : Word).toNat + 0) % 2 ^ 32) = false) ∧
    (0 < min (noMemory received).rxLevel 5 ∧
      admitsWrite (noMemory received).cfg (((0x3000 : Word).toNat + 0) % 2 ^ 32) = false) ∧
    (busError counting).busFault = true := by decide
/-- The accepted field values at their bounds, and one value past each. -/
theorem witness_SetHeaderResult :
    (0xFFCF1201 : Word) &&& 0x0000E0FF = 0x00000001 ∧
    (2 ≤ 2 ∧ 4 ≤ 4 ∧ 8 * 2 + 8 * 4 + 65487 ≤ 65535) ∧ 2 < 3 ∧ 4 < 5 ∧ 65535 < 8 * 2 + 8 * 4 + 65488 := by decide
theorem witness_HeaderLengths : 8 * 2 + 8 * 4 + 65487 ≤ 65535 ∧ 1 ≤ headerRaw 2 4 65487 := by decide
theorem witness_LayoutBytes :
    2 ≤ 2 ∧ 4 ≤ 4 ∧ 1 < 2 ∧ 3 < 4 ∧ 2 + 4 ≤ 6 ∧ 7 < headerPadded (headerRaw 2 4 8) := by decide
theorem witness_OrderBytes :
    ([1, 2, 3, 4] : List Byte).length = 4 * ((3 + 3) / 4) ∧ 3 < 4 ∧
    ([1, 2, 3, 4, 5, 6, 7, 8] : List Byte).length = 4 * ((5 + 3) / 4) ∧ 4 ≤ 5 ∧
    4 * 1 < ([1, 2, 3, 4, 5, 6, 7, 8] : List Byte).length := by decide
theorem witness_BuildHeaderResult :
    (headerBuilt true).built.pos.toNat < (headerBuilt true).built.len.toNat ∧
    (Invariants (headerSet true) ∧ ¬ (headerSet true).built.pos.toNat < (headerSet true).built.len.toNat) :=
  ⟨by decide, inv_headerSet true, by decide⟩
theorem witness_FillHdrResult :
    State.reset.built.pos = State.reset.built.len ∧
    (Invariants (headerBuilt true) ∧ (headerBuilt true).built.pos ≠ (headerBuilt true).built.len ∧
      8 = min ((headerBuilt true).built.len.toNat - (headerBuilt true).built.pos.toNat)
        ((headerBuilt true).cfg.fifoDepth - 4 * (headerBuilt true).txq.length)) :=
  ⟨by decide, inv_headerBuilt true, by decide, by decide⟩
/-- A header of five bytes, big-endian, and one of a single byte, each sent whole. -/
theorem witness_HeaderByteSequence :
    (Invariants (headerSet true) ∧ exec .buildHeader (headerSet true) = .next (headerBuilt true) ∧
      (headerBuilt true).status = .ok ∧ Invariants (headerBuilt true) ∧ (headerBuilt true).be = (headerSet true).be ∧
      (∃ s₃, exec .fillHdr (headerBuilt true) = .next s₃) ∧ (headerBuilt true).built.pos = 0 ∧
      (headerBuilt true).built.len.toNat ≤ (headerBuilt true).txFree ∧
      4 ≤ headerRaw (headerSet true).hdr.cmdLen.toNat (headerSet true).hdr.addrLen.toNat
        (headerSet true).hdr.dummyBits.toNat) ∧
    (Invariants shortSet ∧ exec .buildHeader shortSet = .next shortBuilt ∧ shortBuilt.status = .ok ∧
      Invariants shortBuilt ∧ shortBuilt.be = shortSet.be ∧ (∃ s₃, exec .fillHdr shortBuilt = .next s₃) ∧
      shortBuilt.built.pos = 0 ∧ shortBuilt.built.len.toNat ≤ shortBuilt.txFree ∧
      headerRaw shortSet.hdr.cmdLen.toNat shortSet.hdr.addrLen.toNat shortSet.hdr.dummyBits.toNat < 4) :=
  ⟨⟨inv_headerSet true, rfl, by decide, inv_headerBuilt true, by decide, ⟨_, rfl⟩, by decide⟩,
    inv_shortSet, rfl, by decide, inv_shortBuilt, by decide, ⟨_, rfl⟩, by decide⟩
/-- BUILD_HEADER, FILL_HDR and a tick, BUILD_HEADER again (H17). -/
theorem witness_HeaderBuiltExactlyOnce :
    ∃ (s₂ t : State) (es : List Event), exec .buildHeader (headerSet false) = .next (headerBuilt false) ∧
      (headerBuilt false).status = .ok ∧ (∀ e ∈ es, e.setsHeader = false) ∧
      runEvents es (headerBuilt false) = .next s₂ ∧ exec .buildHeader s₂ = .next t ∧ t.status = .ok :=
  ⟨_, _, [.command ⟨4, 0, 0⟩, .tick], rfl, by decide, by decide, rfl, rfl, by decide⟩
theorem witness_StaleHeaderBytesUnobservable :
    ∃ t, Invariants (headerBuilt false) ∧ exec (.readCsr 0x1002) (headerBuilt false) = .next t ∧
      ∀ a, a < (headerBuilt false).built.len.toNat →
        Memory.read ((headerBuilt false).built.buf ++ [(8, 0xAA)]) a = Memory.read (headerBuilt false).built.buf a :=
  ⟨_, inv_headerBuilt false, rfl, by decide⟩
theorem witness_PackLanes : ([1, 2, 3] : List Byte).length = 3 ∧ 1 ≤ 3 ∧ 3 ≤ 4 ∧ 2 < 3 ∧ 3 ≤ 3 := by decide
/-- One and four bytes; two words that differ in the ignored lanes 2 and 3. -/
theorem witness_UnpackOfPack :
    1 ≤ 1 ∧ 4 ≤ 4 ∧ 3 < 4 ∧ (0x00001122 : Word).toNat % 2 ^ (8 * 2) = (0xFFFF1122 : Word).toNat % 2 ^ (8 * 2) ∧
    ([0x11, 0x22, 0x33] : List Byte).length = 3 := by decide
theorem witness_FillTxResult :
    (0 < 4 ∧ (0 : Word) = 0) ∧
    ((¬ (0 < 4 ∧ (0x2000 : Word) = 0)) ∧ (headerBuilt true).built.pos.toNat < (headerBuilt true).built.len.toNat) ∧
    (Invariants counting ∧ ¬ counting.built.pos.toNat < counting.built.len.toNat ∧
      7 = min 7 (counting.cfg.fifoDepth - 4 * counting.txq.length) ∧
      ∀ i, i < 7 → admitsRead counting.cfg (((0x2000 : Word).toNat + i) % 2 ^ 32) = true) :=
  ⟨by decide, by decide, inv_counting, by decide, by decide, by decide⟩
theorem witness_FillTxCarriesBufferBytes :
    ∃ t, Invariants counting ∧ exec (.fillTx 0x2000 7) counting = .next t ∧ t.status = .ok ∧ t.busFault = false :=
  ⟨_, inv_counting, rfl, by decide, by decide⟩
theorem witness_DrainRxResult :
    (0 < 1 ∧ (0 : Word) = 0) ∧ ((¬ (0 < 0 ∧ (0x3000 : Word) = 0)) ∧ min received.rxLevel 0 = 0) ∧
    (Invariants received ∧ (¬ (0 < 5 ∧ (0x3000 : Word) = 0)) ∧ 5 = min received.rxLevel 5 ∧ 5 ≠ 0 ∧
      ∀ i, i < 5 → admitsWrite received.cfg (((0x3000 : Word).toNat + i) % 2 ^ 32) = true) :=
  ⟨by decide, by decide, inv_received, by decide, by decide, by decide, by decide⟩
/-- The whole queue, and five bytes of it as DR3 drains them. -/
theorem witness_DrainPopsExpectedEntries :
    (Invariants received ∧ 6 ≤ received.rxLevel ∧ 0 < 6 / 4 ∧ received.rxq[0]? = some ⟨0x44332211, 4⟩ ∧ 6 % 4 ≠ 0) ∧
    ((¬ (0 < 5 ∧ (0x3000 : Word) = 0)) ∧ 5 = min received.rxLevel 5 ∧ 0 < 5 / 4 ∧ 5 % 4 ≠ 0 ∧
      ∀ i, i < 5 → admitsWrite received.cfg (((0x3000 : Word).toNat + i) % 2 ^ 32) = true) :=
  ⟨⟨inv_received, by decide⟩, by decide⟩
theorem witness_TransmitFifoNeverOverflows :
    ∃ t, Invariants counting ∧ exec (.fillTx 0x2000 40) counting = .next t := ⟨_, inv_counting, rfl⟩
theorem witness_LoopbackRoundTrip :
    Invariants (looped counting) ∧ (looped counting).cfg.loopback = true ∧ (looped counting).txq = [] ∧
    (looped counting).rxq = [] ∧ ¬ (looped counting).built.pos.toNat < (looped counting).built.len.toNat ∧
    (0x2000 : Word) ≠ 0 ∧ (0x3000 : Word) ≠ 0 ∧ 6 = min 6 (looped counting).cfg.fifoDepth ∧ 6 ≤ 6 ∧
    (∀ i, i < 6 → admitsRead (looped counting).cfg (((0x2000 : Word).toNat + i) % 2 ^ 32) = true) ∧
    (∀ i, i < 6 → admitsWrite (looped counting).cfg (((0x3000 : Word).toNat + i) % 2 ^ 32) = true) :=
  ⟨inv_looped, by decide⟩
theorem witness_SetEndianResult :
    (0x00000102 : Word) &&& 0xFFFFFEFF = 0x00000002 ∧
    ({ State.reset with txq := [⟨1, 4⟩] } : State).txq ≠ [] ∧ received.rxq ≠ [] ∧
    shortBuilt.built.pos.toNat < shortBuilt.built.len.toNat ∧
    (State.reset.txq = [] ∧ State.reset.rxq = [] ∧ ¬ State.reset.built.pos.toNat < State.reset.built.len.toNat) := by
  decide
theorem witness_ReadCsrResult :
    (0x00FFFF0A : Word) &&& 0xFF0000FF = 0x0000000A ∧ Invariants (headerBuilt true) ∧
    (1 < 2048 ∧ 4 * 1 < (headerBuilt true).built.len.toNat) ∧
    (2 < 2048 ∧ 2047 < 2048 ∧ (headerBuilt true).built.len.toNat ≤ 4 * 2) ∧
    (0x0013 ≤ 0x0013 ∧ 0x0013 < 0x1000) ∧ (0x0013 ≤ 0x0FFF ∧ 0x0FFF < 0x1000) ∧ 0x1800 ≤ 0x1800 :=
  ⟨by decide, inv_headerBuilt true, by decide⟩
/-- TS6, TS7, TS8; the largest DIRECT timeout and the smallest CROSSING one (TS2, TS3). -/
theorem witness_TmrStartResult :
    counting.cfg.tickReload / 1001 = 0 ∧ Invariants counting ∧
    (999 < 2 ^ 32 ∧ 1 ≠ 0 ∧ 999 ≠ 0 ∧ counting.cfg.tickReload / 1 ≠ 0 ∧ 999 < counting.cfg.tickReload / 1) ∧
    (1000 < 2 ^ 32 ∧ 1000 ≠ 0 ∧ counting.cfg.tickReload / 1 ≤ 1000) :=
  ⟨by decide, inv_counting, by decide⟩
/-- The states of TP1, TP3, TP4, TP2 and TP8. -/
theorem witness_TmrPollResult :
    State.reset.tmr.state = .idle ∧
    ({ waiting with tmr := { waiting.tmr with state := .doneOk } } : State).tmr.state = .doneOk ∧
    ({ waiting with tmr := { waiting.tmr with state := .doneTimeout } } : State).tmr.state = .doneTimeout ∧
    (waiting.tmr.state = .running ∧ ({ waiting with busy := false } : State).busy = false) ∧
    (Invariants waiting ∧ waiting.busy = true ∧ waiting.tmr.mode = .direct ∧
      (500 : Int) < ((401 : Int) - 900) % 1000 ∧ ((400 : Int) - 900) % 1000 ≤ 500) ∧
    (∃ s : State, Invariants s ∧ s.tmr.state = .running ∧ s.busy = true ∧ s.tmr.mode = .crossing ∧
      s.tmr.prevTick.toNat < s.cfg.tickReload / 2 ∧ s.cfg.tickReload / 2 ≤ s.tick.toNat ∧ s.tmr.cross = s.tmr.budget) ∧
    (∃ s : State, Invariants s ∧ s.tmr.mode = .crossing ∧ s.tmr.cross ≠ s.tmr.budget ∧
      s.tmr.prevTick.toNat < s.cfg.tickReload / 2 ∧ s.cfg.tickReload / 2 ≤ s.tick.toNat) ∧
    (∃ s : State, Invariants s ∧ s.tmr.mode = .crossing ∧
      ¬ (s.tmr.prevTick.toNat < s.cfg.tickReload / 2 ∧ s.cfg.tickReload / 2 ≤ s.tick.toNat)) :=
  ⟨by decide, rfl, rfl, by decide, ⟨inv_waiting, by decide⟩,
    ⟨{ State.reset with tmr := ⟨.running, .crossing, 100, 1, 1, 499⟩, tick := 500, busy := true },
      by constructor <;> decide, by decide⟩,
    ⟨{ State.reset with tmr := ⟨.running, .crossing, 100, 1, 0, 100⟩, tick := 550, busy := true },
      by constructor <;> decide, by decide⟩,
    ⟨{ State.reset with tmr := ⟨.running, .crossing, 100, 1, 1, 100⟩, tick := 499, busy := true },
      by constructor <;> decide, by decide⟩⟩
theorem witness_WaitOutcomeSticky :
    ∃ t, ({ waiting with tmr := { waiting.tmr with state := .doneTimeout } } : State).tmr.state = .doneTimeout ∧
      (∀ e ∈ [Event.setBusy false, .command ⟨9, 0, 0⟩, .tick], e.restartsTimer = false) ∧
      runEvents [.setBusy false, .command ⟨9, 0, 0⟩, .tick]
        { waiting with tmr := { waiting.tmr with state := .doneTimeout } } = .next t :=
  ⟨_, rfl, by decide, rfl⟩
/-- R = 4, T = 2, c = 1: DIRECT, budget 2; three ticks, one poll between them. -/
theorem witness_DirectTimesOutExactly :
    ∃ (s₁ s₂ : State) (es : List Event), Invariants fourTicks ∧ exec (.tmrStart 2 1) fourTicks = .next s₁ ∧
      s₁.status = .ok ∧ s₁.tmr.mode = .direct ∧ (∀ e ∈ es, e.restartsTimer = false) ∧ runEvents es s₁ = .next s₂ ∧
      s₂.tmr.state = .running ∧ s₂.busy = true ∧ 2 * 1 < tickCount es % fourTicks.cfg.tickReload :=
  ⟨_, _, [.tick, .command ⟨9, 0, 0⟩, .tick, .tick], inv_fourTicks, rfl, by decide, by decide, by decide, rfl,
    by decide, by decide, by decide⟩
/-- R = 4, T = 4, c = 1: CROSSING, budget 1; the second counted crossing, at the sixth tick, times out. -/
theorem witness_CrossingNeverTimesOutEarly :
    ∃ (s₁ s₂ u : State) (es : List Event), Invariants fourTicks ∧ 4 < 2 ^ 32 ∧
      exec (.tmrStart 4 1) fourTicks = .next s₁ ∧ s₁.status = .ok ∧ s₁.tmr.mode = .crossing ∧
      (∀ e ∈ es, e.restartsTimer = false) ∧ runEvents es s₁ = .next s₂ ∧ s₂.tmr.state = .running ∧
      exec .tmrPoll s₂ = .next u ∧ u.status = .timeout :=
  ⟨_, _, _, [.tick, .tick, .command ⟨9, 0, 0⟩, .tick, .tick, .command ⟨9, 0, 0⟩, .tick, .tick], inv_fourTicks, by decide,
    rfl, by decide, by decide, by decide, rfl, by decide, rfl, by decide⟩
/-- T = 1 chooses DIRECT and T = 4 CROSSING; an entry is received before the first poll. -/
theorem witness_WaitIdleEndsWithinBound :
    Invariants fourTicks ∧ fourTicks.busFault = false ∧ fourTicks.busy = true ∧
    (∃ s', runEvents [.rxPush 7 4, .tick, .tick, .tick] fourTicks = .next s' ∧
      (∀ g ∈ [[Event.rxPush 7 4, .tick, .tick], [.tick]], ∀ e ∈ g, e.keepsBusy = true) ∧
      1 < fourTicks.cfg.tickReload / 1 ∧
      (∀ g ∈ [[Event.rxPush 7 4, .tick, .tick], [.tick]], tickCount g ≤ fourTicks.cfg.tickReload - 1 - 1 * 1) ∧
      1 * 1 < tickCount [.rxPush 7 4, .tick, .tick, .tick]) ∧
    (∃ s', runEvents (.rxPush 7 4 :: List.replicate 8 .tick) fourTicks = .next s' ∧
      fourTicks.cfg.tickReload / 1 ≤ 4 ∧
      (∀ g ∈ [Event.rxPush 7 4, .tick] :: List.replicate 7 [.tick],
        tickCount g < min (fourTicks.cfg.tickReload / 2) (fourTicks.cfg.tickReload - fourTicks.cfg.tickReload / 2)) ∧
      (ceilDiv 4 (fourTicks.cfg.tickReload / 1) + 1) * fourTicks.cfg.tickReload ≤
        tickCount (.rxPush 7 4 :: List.replicate 8 .tick)) :=
  ⟨inv_fourTicks, by decide, by decide, ⟨_, rfl, by decide⟩, _, rfl, by decide⟩
/-- Each of the four ways it can end. -/
theorem witness_WaitIdleOutcome :
    holdsAfter (waitIdle 0 1 [] [] fourTicks) (fun u => u.status == .invalidParam) = true ∧
    holdsAfter (waitIdle 1 1 [.tick] [[.setBusy false]] fourTicks) (fun u => u.status == .ok && u.result == 0) = true ∧
    holdsAfter (waitIdle 1 1 [.tick, .tick] [] fourTicks) (fun u => u.status == .timeout) = true ∧
    holdsAfter (waitIdle 1 1 [.tick] [] fourTicks) (fun u => u.result == 1) = true ∧
    ([Event.setBusy false, .tick, .shiftOut, .rxPush 0 1].all Event.environment) = true := by decide

theorem witness_ResultZeroOnError :
    ∃ t, exec (.fillTx 0 4) counting = .next t ∧ t.busFault = false ∧ t.status ≠ .ok :=
  ⟨_, rfl, by decide, by decide⟩
/-- A command that ends with each error (TX11, H16, TP1, TP2). -/
theorem witness_ErrorsArePrecise :
    (∃ t, issueCommand ⟨5, 0, 4⟩ counting = .next t ∧ t.busFault = false ∧ t.status = .invalidParam) ∧
    (∃ t, issueCommand ⟨3, 0, 0⟩ shortBuilt = .next t ∧ t.busFault = false ∧ t.status = .alreadyBusy) ∧
    (∃ t, issueCommand ⟨9, 0, 0⟩ State.reset = .next t ∧ t.busFault = false ∧ t.status = .illegalCommand) ∧
    (∃ t, issueCommand ⟨9, 0, 0⟩ { waiting with tick := 401 } = .next t ∧ t.busFault = false ∧ t.status = .timeout) :=
  ⟨⟨_, rfl, by decide, by decide⟩, ⟨_, rfl, by decide, by decide⟩, ⟨_, rfl, by decide, by decide⟩,
    ⟨_, rfl, by decide, by decide⟩⟩
theorem witness_StatusesPerCommand :
    (∃ t, selectOp 0x0000000B = none ∧ issueCommand ⟨0x0000000B, 5, 5⟩ received = .next t) ∧
    ∃ t, exec .fifoClear received = .next t ∧ t.busFault = false := ⟨⟨_, by decide, rfl⟩, _, rfl, by decide⟩
theorem witness_OperandChecksComeFirst :
    (0 < 4 ∧ (0 : Word) = 0 ∧ shortBuilt.built.pos.toNat < shortBuilt.built.len.toNat) ∧
    ∃ t, decode ⟨0x00002001, 5, 5⟩ = .error .reservedBits ∧ issueCommand ⟨0x00002001, 5, 5⟩ State.reset = .next t :=
  ⟨by decide, _, rfl, rfl⟩
theorem witness_EnvironmentTouchesOnly :
    ∃ t, (Event.rxPush 0x11 1).environment = true ∧ agentStep (.rxPush 0x11 1) State.reset = .next t := ⟨_, rfl, rfl⟩
theorem witness_TransmitStep :
    State.reset.cfg.loopback = false ∧ ({ State.reset with txq := [⟨1, 4⟩] } : State).txq = ⟨1, 4⟩ :: [] ∧
    State.reset.txq = [] := by decide
/-- RXQ empty, full at the depth, one past it, and a partial tail. -/
theorem witness_ReceiveStep :
    State.reset.cfg.loopback = false ∧ State.reset.rxq = [] ∧ State.reset.rxLevel + 4 ≤ State.reset.cfg.fifoDepth ∧
    (List.replicate 8 (⟨1, 4⟩ : Entry)).getLast? = some ⟨1, 4⟩ ∧
    State.reset.cfg.fifoDepth < countSum (List.replicate 8 ⟨1, 4⟩) + 1 ∧
    received.rxq.getLast? = some ⟨0x00006655, 2⟩ := by decide
theorem witness_LoopbackStep :
    ∃ s : State, s.cfg.loopback = true ∧ s.txq = ⟨0xDEADBEEF, 4⟩ :: [⟨0x0102, 2⟩] ∧ s.rxq = [] ∧
      s.rxLevel + 4 ≤ s.cfg.fifoDepth :=
  ⟨{ looped State.reset with txq := [⟨0xDEADBEEF, 4⟩, ⟨0x0102, 2⟩] }, by decide⟩
theorem witness_LoopbackStep_full :
    (∃ s : State, s.cfg.loopback = true ∧ s.txq = [⟨1, 4⟩] ∧ s.rxq.getLast? = some ⟨1, 4⟩ ∧
      s.cfg.fifoDepth < s.rxLevel + 4) ∧
    (∃ s : State, s.cfg.loopback = true ∧ s.txq = [⟨1, 4⟩] ∧ s.rxq.getLast? = some ⟨0x00006655, 2⟩) :=
  ⟨⟨{ looped State.reset with txq := [⟨1, 4⟩], rxq := List.replicate 8 ⟨1, 4⟩ }, by decide⟩,
    ⟨{ looped received with txq := [⟨1, 4⟩] }, by decide⟩⟩
theorem witness_BlockResetResult :
    (∃ t, agentStep .blockReset waiting = .next t ∧ t.tmr.state = .idle) ∧
    (∃ t, agentStep .tick State.reset = .next t ∧ t.tmr.state = .idle) := ⟨⟨_, rfl, by decide⟩, _, rfl, by decide⟩
theorem witness_BusyAndTickSteps : Invariants { State.reset with tick := 999 } := by constructor <;> decide
/-- The largest parameters of R5's table, TICK at R - 1, HDR_BUF and memory not empty. -/
theorem witness_InvariantsHoldAtLaunch :
    CleanEntry
      { State.reset with
        cfg := ⟨65532, 2 ^ 32, 1, true, []⟩, tick := 0xFFFFFFFF, busy := true, mem := [(0, 1)]
        built := ⟨[(8191, 7)], 0, 0, 0⟩ } := by
  constructor <;> decide
theorem witness_StepKeepsInvariants :
    ∃ t, Invariants (State.withFetchWord counting 96 0x00000007_00002000_00000005) ∧
      step (State.withFetchWord counting 96 0x00000007_00002000_00000005) = .next t :=
  ⟨nextOr State.reset (step (State.withFetchWord counting 96 0x00000007_00002000_00000005)),
    by constructor <;> decide, rfl⟩
/-- A receive step that overflows, in a state with both marks set. -/
theorem witness_MarksAreSticky :
    ∃ t, step { State.reset with rxOverflow := true, busFault := true, schedule := [.rxPush 1 4] } = .next t := ⟨_, rfl⟩
theorem witness_ParametersNeverChange : ∃ t, step { State.reset with schedule := [.blockReset] } = .next t := ⟨_, rfl⟩
theorem witness_BlocksDoNotInteract :
    ∃ sys', (System.mk false [{ State.reset with schedule := [.tick] }, received]).stepAt 0 = .next sys' ∧ 1 ≠ 0 ∧
      (System.mk false [{ State.reset with schedule := [.tick] }, received]).blocks[1]? = some received :=
  ⟨_, rfl, by decide, rfl⟩
theorem witness_FramingFrame :
    (∃ t, exec (.setHeader 1 3 8 3 0x10) counting = .next t) ∧ (∃ t, exec .buildHeader (headerSet true) = .next t) ∧
    (∃ t, exec .fillHdr (headerBuilt true) = .next t) := ⟨⟨_, rfl⟩, ⟨_, rfl⟩, ⟨_, rfl⟩⟩
/-- The address past the last byte stored is outside the bytes the frame excepts. -/
theorem witness_FifoBridgeFrame :
    (∃ t, exec (.fillTx 0x2000 7) counting = .next t) ∧
    (∃ t, Invariants received ∧ exec (.drainRx 0x3000 5) received = .next t ∧
      ∀ i, i < drainRxCount 5 received → 0x3005 ≠ bufAddr 0x3000 i) ∧
    (∃ t, exec .fifoClear received = .next t) := ⟨⟨_, rfl⟩, ⟨_, inv_received, rfl, by decide⟩, ⟨_, rfl⟩⟩
theorem witness_ComparatorAndControlFrame :
    (∃ t, exec .tmrPoll waiting = .next t) ∧ (∃ t, exec (.tmrStart 500 1) waiting = .next t) ∧
    (∃ t, exec (.setEndian true) State.reset = .next t) ∧ (∃ t, exec (.readCsr 0x1002) (headerBuilt true) = .next t) :=
  ⟨⟨_, rfl⟩, ⟨_, rfl⟩, ⟨_, rfl⟩, ⟨_, rfl⟩⟩
/-- A header not yet sent; one sent over two passes; one big-endian and one of a single byte that fit at once. -/
theorem witness_SendHeaderOutcome :
    ((headerBuilt true).busFault = false ∧ (headerBuilt true).built.pos.toNat < (headerBuilt true).built.len.toNat) ∧
    (∃ u, Invariants longSet ∧ (¬ longSet.built.pos.toNat < longSet.built.len.toNat) ∧
      (∀ g ∈ [PassGaps.mk [] [] [], ⟨[.shiftOut, .shiftOut], [.tick], []⟩], ∀ e ∈ g.events, e.environment = true) ∧
      sendHeader ⟨[], [], []⟩ [⟨[.shiftOut, .shiftOut], [.tick], []⟩] longSet = .next u) ∧
    (Invariants (headerSet true) ∧ (headerSet true).busFault = false ∧
      (¬ (headerSet true).built.pos.toNat < (headerSet true).built.len.toNat) ∧
      headerPadded (headerRaw 1 3 8) ≤ (headerSet true).txFree) ∧
    (Invariants shortSet ∧ shortSet.busFault = false ∧
      (¬ shortSet.built.pos.toNat < shortSet.built.len.toNat) ∧ headerPadded (headerRaw 1 0 0) ≤ shortSet.txFree) :=
  ⟨by decide, ⟨_, inv_longSet, by decide, by decide, rfl⟩, ⟨inv_headerSet true, by decide⟩, inv_shortSet, by decide⟩

end Sys2Proof.Tests
end

section
/-! PROOF. One step of the model (00_scope.md R4, R5, R10, R11; 70_reset_and_hazards.md R281, R282): which agent's step it
is, what an issued command runs, and that no step writes the parameters. -/

namespace Sys2Proof.Machine

variable {s t : State}

/-! ### Which step is taken -/

/-- The step of a state with something scheduled is the step of the agent the schedule names first (R4, log 1). -/
theorem step_of_schedule_cons {e : Event} {es : List Event} (h : s.schedule = e :: es) :
    step s = agentStep e { s with schedule := es } := by
  simp [step, takeEvent, h]

/-- With nothing scheduled the model idles (R281, log 2). -/
theorem step_of_schedule_nil (h : s.schedule = []) : step s = .next s := by
  simp [step, takeEvent, h]

/-- An event put before the schedule is the next one to step, from the state without it. -/
theorem step_scheduleFirst (e : Event) (s : State) : step (scheduleFirst e s) = agentStep e s :=
  step_of_schedule_cons (scheduleFirst_schedule e s)

/-! ### What an issued command runs -/

/-- A Controller that is not stuck runs the instruction its command decodes to (R10, R98). -/
theorem issueCommand_of_decode {c : Command} {i : Instr} (hb : s.busFault = false) (hd : decode c = .ok i) :
    issueCommand c s = exec i s := by
  simp [issueCommand, hb, hd]

/-- A table word stands for an instruction exactly when the command it lays out decodes to it. -/
theorem decodeTableWord_eq_some_iff {nbits w : Nat} {i : Instr} :
    decodeTableWord nbits w = some i ↔ decode (commandOfBits nbits w) = .ok i := by
  unfold decodeTableWord
  cases decode (commandOfBits nbits w) with
  | ok j => simp
  | error e => simp

/-! ### The parameters -/

/-- No command writes the parameters, the wiring or what the platform admits. -/
theorem exec_cfg {i : Instr} (h : exec i s = .next t) : t.cfg = s.cfg := by
  by_cases hpoll : i = .tmrPoll
  · subst hpoll
    obtain ⟨-, -, hcfg, -⟩ := tmrPoll_leaves h
    exact hcfg
  by_cases hstart : ∃ T c, i = .tmrStart T c
  · obtain ⟨T, c, rfl⟩ := hstart
    rcases tmrStart_cases h with ⟨-, -, -, rfl⟩ | ⟨-, rfl⟩ <;> rfl
  · obtain ⟨-, -, -, hcfg⟩ := exec_leaves_timer h hpoll fun T c hi => hstart ⟨T, c, hi⟩
    exact hcfg

/-- No agent's step writes them. -/
theorem agentStep_cfg {e : Event} (h : agentStep e s = .next t) : t.cfg = s.cfg := by
  cases e with
  | command c =>
    obtain ⟨-, ⟨i, -, hx⟩ | ⟨_, -, rfl⟩⟩ := issueCommand_cases h
    · exact exec_cfg hx
    · rfl
  | blockReset => cases h; rfl
  | shiftOut | rxPush | setBusy | tick | bufWrite => exact (agentStep_timer h rfl).1

/-! ### The statements -/

/-- Settles O52: a step idles or is one agent's step, and neither writes `State.cfg`. -/
theorem parametersNeverChange : Obligations.ParametersNeverChange := by
  intro s t h
  rcases step_cases h with ⟨-, rfl⟩ | ⟨e, es, -, hstep⟩
  · rfl
  · simpa using agentStep_cfg hstep

/-- Settles O7: a command at the head of the schedule, or one placed there from a table word, is the one issued. -/
theorem stepRunsDecodedCommand : Obligations.StepRunsDecodedCommand := by
  refine ⟨fun s c rest i hsched hb hd => ?_, fun s nbits w i hd hb => ?_⟩
  · rw [step_of_schedule_cons hsched]
    exact issueCommand_of_decode (s := { s with schedule := rest }) hb hd
  · rw [State.withFetchWord, step_scheduleFirst]
    exact issueCommand_of_decode hb (decodeTableWord_eq_some_iff.1 hd)

/-- Settles O8: both halves are the cases of `step` on the schedule. -/
theorem stepRunsScheduledEvent : Obligations.StepRunsScheduledEvent :=
  ⟨fun _ _ _ => step_of_schedule_cons, fun _ => step_of_schedule_nil⟩

end Sys2Proof.Machine
end

section
/-! PROOF. The invariants (10_state.md R41): one rule per operation on the state says which invariants must be shown again
after it, one lemma per command or agent cites these rules, and the launch states (R40, R296) have them to begin with. -/

namespace Sys2Proof.Machine

variable {s t : State}

/-! ### The empty FIFO and the empty memory; entries received and drained -/

theorem onlyLastPartial_nil : onlyLastPartial [] := by decide
theorem countsLegal_nil : countsLegal [] := by decide
theorem memory_wf_nil : Memory.wf [] := by decide
theorem memory_below_nil (bound : Nat) : Memory.below bound [] := fun _ hc => nomatch hc

/-- What is left of a FIFO after its first entries keeps its partial entry last. -/
theorem onlyLastPartial_of_append {p q : List Entry} (h : onlyLastPartial (p ++ q)) : onlyLastPartial q := by
  by_cases hq : q = []
  · rw [hq]; exact onlyLastPartial_nil
  · rw [onlyLastPartial, List.dropLast_append_of_ne_nil hq] at h
    exact fun e he => h e (List.mem_append_right _ he)

/-- With no partial entry last there is none at all. -/
theorem counts_full_of_not_tailPartial {q : List Entry} (h : onlyLastPartial q) (ht : tailPartial q = false) :
    ∀ e ∈ q, e.count = 4 := by
  rcases List.eq_nil_or_concat q with rfl | ⟨p, e, rfl⟩
  · simp
  · simp only [List.concat_eq_append] at h ht ⊢
    have he : e.count = 4 := by simpa [tailPartial] using ht
    rw [onlyLastPartial, List.dropLast_concat] at h
    exact List.forall_mem_append.2 ⟨h, by simpa using he⟩

/-! ### One rule per state operation: the invariants that name no field written are those of the state before -/

/-- The byte order, RX_INVALID_BITS, the marks, BUSY, the schedule and the count of draws are in no invariant. -/
theorem Invariants.setUnconstrained (h : Invariants s) {be overflow fault busy : Bool} {bits : BitVec 16}
    {es : List Event} {draws : Nat} :
    Invariants { s with be := be, rxInvalidBits := bits, rxOverflow := overflow, busFault := fault, busy := busy
                        schedule := es, draws := draws } :=
  { h with }

theorem Invariants.setHdr (h : Invariants s) {hd : Header} (hcl : hd.cmdLen.toNat ≤ 2) (hal : hd.addrLen.toNat ≤ 4)
    (hbits : 8 * hd.cmdLen.toNat + 8 * hd.addrLen.toNat + hd.dummyBits.toNat ≤ 65535) :
    Invariants { s with hdr := hd } :=
  { h with cmdLen := hcl, addrLen := hal, bits := hbits }

theorem Invariants.setPos (h : Invariants s) {p : BitVec 14} (hle : p.toNat ≤ s.built.len.toNat)
    (hmod : p.toNat % 4 = 0) : Invariants { s with built := { s.built with pos := p } } :=
  { h with posLe := hle, posMod := hmod }

/-- A header just built: nothing of it is pushed yet, and its length is HDR_RAW padded (R28). -/
theorem Invariants.setBuilt (h : Invariants s) {m : Memory} {raw len : BitVec 14} (hle : len.toNat ≤ 8192)
    (hraw : len.toNat = headerPadded raw.toNat) (hwf : Memory.wf m) (hbelow : Memory.below 8192 m) :
    Invariants { s with built := ⟨m, raw, len, 0⟩ } :=
  { h with
    posLe := Nat.zero_le _, lenLe := hle, posMod := rfl, lenMod := hraw ▸ (headerPadded_bounds _).2.2, lenRaw := hraw
    hdrBuf := hwf, hdrBelow := hbelow }

theorem Invariants.setTxq (h : Invariants s) {q : List Entry} (hlevel : 4 * q.length ≤ s.cfg.fifoDepth)
    (hcounts : countsLegal q) : Invariants { s with txq := q } :=
  { h with txLevel := hlevel, txCounts := hcounts }

theorem Invariants.setRxq (h : Invariants s) {q : List Entry} (hlevel : countSum q ≤ s.cfg.fifoDepth)
    (htail : onlyLastPartial q) (hcounts : countsLegal q) : Invariants { s with rxq := q } :=
  { h with rxLevel := hlevel, rxTail := htail, rxCounts := hcounts }

theorem Invariants.setTmr (h : Invariants s) {tm : Timer} (hstart : tm.startTick.toNat < s.cfg.tickReload)
    (hprev : tm.prevTick.toNat < s.cfg.tickReload) (hcross : tm.cross.toNat ≤ tm.budget.toNat)
    (hdirect : tm.mode = .direct → tm.budget.toNat < s.cfg.tickReload) : Invariants { s with tmr := tm } :=
  { h with startTick := hstart, prevTick := hprev, cross := hcross, direct := hdirect }

/-- A poll leaves what TMR_START fixed (R123). -/
theorem Invariants.pollTmr (h : Invariants s) (st : TmrState) {prev cross : Word} (hprev : prev.toNat < s.cfg.tickReload)
    (hcross : cross.toNat ≤ s.tmr.budget.toNat) :
    Invariants { s with tmr := { s.tmr with state := st, prevTick := prev, cross := cross } } :=
  h.setTmr h.startTick hprev hcross h.direct

theorem Invariants.setMem (h : Invariants s) {m : Memory} (hwf : Memory.wf m) (hbelow : Memory.below (2 ^ 32) m) :
    Invariants { s with mem := m } :=
  { h with mem := hwf, memBelow := hbelow }

/-- Entries removed from the head of TXQ, or of RXQ. -/
theorem Invariants.dropTxq (h : Invariants s) (n : Nat) : Invariants { s with txq := s.txq.drop n } :=
  h.setTxq (by have := h.txLevel; simp only [State.txLevel, List.length_drop] at *; omega)
    fun e he => h.txCounts e (List.mem_of_mem_drop he)

theorem Invariants.dropRxq (h : Invariants s) (n : Nat) : Invariants { s with rxq := s.rxq.drop n } := by
  have hsplit : s.rxq.take n ++ s.rxq.drop n = s.rxq := List.take_append_drop n _
  have hlevel : countSum (s.rxq.take n) + countSum (s.rxq.drop n) ≤ s.cfg.fifoDepth := by
    rw [← countSum_append, hsplit]; exact h.rxLevel
  exact h.setRxq (by omega) (onlyLastPartial_of_append (hsplit.symm ▸ h.rxTail))
    fun e he => h.rxCounts e (List.mem_of_mem_drop he)

/-- Entries appended to TXQ, within its free space. -/
theorem Invariants.appendTxq (h : Invariants s) {es : List Entry} (hroom : 4 * (s.txq.length + es.length) ≤ s.cfg.fifoDepth)
    (hcounts : countsLegal es) : Invariants { s with txq := s.txq ++ es } :=
  h.setTxq (by rwa [List.length_append]) (List.forall_mem_append.2 ⟨h.txCounts, hcounts⟩)

/-- The receive step, where it is enabled: the entry is received after full ones only, or dropped (R267, R268). -/
theorem Invariants.receive (h : Invariants s) {e : Entry} (hcount : 1 ≤ e.count ∧ e.count ≤ 4)
    (ht : tailPartial s.rxq = false) : Invariants (Sys2Proof.Machine.receive e s) := by
  rcases receive_cases e s with ⟨hroom, heq⟩ | ⟨-, heq⟩ <;> rw [heq]
  · refine h.setRxq ?_ ?_ (List.forall_mem_append.2 ⟨h.rxCounts, by simpa using hcount⟩)
    · simpa [State.rxLevel] using hroom
    · rw [onlyLastPartial, List.dropLast_concat]
      exact counts_full_of_not_tailPartial h.rxTail ht
  · exact { h with }

theorem Invariants.tickStep (h : Invariants s) : Invariants (Sys2Proof.Machine.tickStep s) :=
  { h with
    tick := lt_of_le_of_lt (Nat.mod_le _ _) (Nat.mod_lt _ (Nat.zero_lt_of_lt h.tick)) }

/-- A block reset needs of the state before only what it leaves as it was (R280). -/
theorem invariants_resetBlock (hcfg : s.cfg.Legal) (htick : s.tick.toNat < s.cfg.tickReload)
    (hmem : Memory.wf s.mem ∧ Memory.below (2 ^ 32) s.mem) : Invariants (resetBlock s) where
  cfg := hcfg
  cmdLen := Nat.zero_le _
  addrLen := Nat.zero_le _
  bits := Nat.zero_le _
  posLe := Nat.zero_le _
  lenLe := Nat.zero_le _
  posMod := rfl
  lenMod := rfl
  lenRaw := (by decide : 0 = 4 * ceilDiv 0 4)
  txLevel := Nat.zero_le _
  rxLevel := Nat.zero_le _
  rxTail := onlyLastPartial_nil
  txCounts := countsLegal_nil
  rxCounts := countsLegal_nil
  tick := htick
  startTick := Nat.zero_lt_of_lt htick
  prevTick := Nat.zero_lt_of_lt htick
  cross := le_rfl
  direct := fun _ => Nat.zero_lt_of_lt htick
  result := fun _ => rfl
  notFailed := by simp
  mem := hmem.1
  memBelow := hmem.2
  hdrBuf := memory_wf_nil
  hdrBelow := memory_below_nil _

/-! ### One lemma per command -/

/-- SET_HEADER stores only fields it has checked (R151, R26). -/
theorem setHeader_keeps_invariants {cl al db : Nat} {cmd : BitVec 16} {addr : Word} (h : Invariants s)
    (hx : exec (.setHeader cl al db cmd addr) s = .next t) : Invariants t := by
  rcases setHeader_cases hx with ⟨hcl, hal, hbits, rfl⟩ | ⟨-, rfl⟩
  · refine (h.setHdr ?_ ?_ ?_).finish .ok 0 (by decide) <;> simp only [BitVec.toNat_ofNat] <;> omega
  · exact h.finish .invalidParam 0 (by decide)

theorem setEndian_keeps_invariants {e : Bool} (h : Invariants s) (hx : exec (.setEndian e) s = .next t) :
    Invariants t := by
  rcases setEndian_cases hx with ⟨-, rfl⟩ | ⟨-, rfl⟩
  · exact h.setUnconstrained.finish .ok 0 (by decide)
  · exact h.finish .alreadyBusy 0 (by decide)

/-- Under the invariants HDR_RAW and HDR_LEN hold the lengths of the header built (R28, R152). -/
theorem Invariants.headerLengths_toNat (h : Invariants s) :
    (BitVec.ofNat 14 (Header.raw s.hdr)).toNat = Header.raw s.hdr ∧
    (BitVec.ofNat 14 (Header.padded s.hdr)).toNat = Header.padded s.hdr := by
  have := header_le h
  simp only [BitVec.toNat_ofNat]; omega

theorem orderedLayout_length (be : Bool) (hd : Header) :
    (order be (Header.layout hd) (Header.raw hd)).length = Header.padded hd := by
  rw [order_length]; exact layout_length ..

/-- BUILD_HEADER writes at most 8192 bytes, and the header fields it consumes become 0 (R155). -/
theorem buildHeader_keeps_invariants (h : Invariants s) (hx : exec .buildHeader s = .next t) : Invariants t := by
  rcases buildHeader_cases hx with ⟨-, rfl⟩ | ⟨-, rfl⟩
  · obtain ⟨hraw, hlen⟩ := h.headerLengths_toNat
    obtain ⟨-, hle⟩ := header_le h
    have hconsumed : Invariants { s with hdr := Header.zero } := h.setHdr (by decide) (by decide) (by decide)
    have hbuilt := hconsumed.setBuilt (raw := BitVec.ofNat 14 (Header.raw s.hdr)) (hlen.symm ▸ hle) (by rw [hlen, hraw]; rfl)
      (Memory.storeLow_wf h.hdrBuf _) (Memory.storeLow_below h.hdrBelow (orderedLayout_length s.be s.hdr ▸ hle))
    exact hbuilt.setUnconstrained.finish .ok _ (by decide)
  · exact h.finish .alreadyBusy 0 (by decide)

/-- FILL_HDR pushes whole words that fit, and HDR_POS stays within the header (R156). -/
theorem fillHdr_keeps_invariants (h : Invariants s) (hx : exec .fillHdr s = .next t) : Invariants t := by
  rcases fillHdr_cases hx with ⟨-, rfl⟩ | ⟨hne, rfl⟩
  · exact h.finish .ok 0 (by decide)
  · obtain ⟨hmod, hpos, hroom, -⟩ := fillHdrCount_spec h
    have hlen0 : s.built.len.toNat ≠ 0 := fun h0 =>
      hne (BitVec.eq_of_toNat_eq (by have := h.posLe; omega))
    obtain ⟨hlength, hcounts⟩ := headerEntries_spec s.built (fillHdrCount s) h.lenRaw hlen0
    have hlen := h.lenLe
    have hposMod := h.posMod
    have hadvanced := h.setPos (p := BitVec.ofNat 14 (s.built.pos.toNat + fillHdrCount s))
      (by simp only [BitVec.toNat_ofNat]; omega) (by simp only [BitVec.toNat_ofNat]; omega)
    exact (hadvanced.appendTxq (hlength.symm ▸ hroom) hcounts).finish .ok _ (by decide)

theorem fillTx_keeps_invariants {src : Word} {len : Nat} (h : Invariants s)
    (hx : exec (.fillTx src len) s = .next t) : Invariants t := by
  rcases fillTx_cases hx with ⟨-, rfl⟩ | ⟨-, -, rfl⟩ | ⟨-, -, -, rfl⟩ | ⟨-, -, -, rfl⟩
  · exact h.finish .invalidParam 0 (by decide)
  · exact h.finish .alreadyBusy 0 (by decide)
  · exact h.setUnconstrained
  · obtain ⟨hlength, hcounts⟩ := packedEntries_spec s.be s.mem src (fillTxCount len s)
    exact (h.appendTxq (hlength.symm ▸ (fillTxCount_spec h len).1) hcounts).finish .ok _ (by decide)

theorem drainRx_keeps_invariants {dst : Word} {remaining : Nat} (h : Invariants s)
    (hx : exec (.drainRx dst remaining) s = .next t) : Invariants t := by
  rcases drainRx_cases hx with ⟨-, rfl⟩ | ⟨-, -, rfl⟩ | ⟨-, -, -, rfl⟩ | ⟨-, -, -, rfl⟩
  · exact h.finish .invalidParam 0 (by decide)
  · exact h.finish .ok 0 (by decide)
  · exact h.setUnconstrained
  · have hpopped := h.dropRxq (ceilDiv (drainRxCount remaining s) 4)
    have hwritten := hpopped.setMem (writeBuf_wf h.mem dst 0 (drainedBytes s.be s.rxq (drainRxCount remaining s)))
      (writeBuf_below h.memBelow dst 0 _)
    exact hwritten.setUnconstrained.finish .ok _ (by decide)

/-- FIFO_CLEAR empties both FIFOs and takes the header as wholly pushed (R193). -/
theorem fifoClear_keeps_invariants (h : Invariants s) (hx : exec .fifoClear s = .next t) : Invariants t := by
  rw [fifoClear_cases hx]
  have hcleared : Invariants { s with txq := [], rxq := [] } :=
    (h.setTxq (Nat.zero_le _) countsLegal_nil).setRxq (Nat.zero_le _) onlyLastPartial_nil countsLegal_nil
  exact (hcleared.setPos le_rfl h.lenMod).setUnconstrained.finish .ok 0 (by decide)

/-- TMR_START samples TICK, and a DIRECT budget is below R (R122, R124). -/
theorem tmrStart_keeps_invariants {T c : Nat} (h : Invariants s) (hx : exec (.tmrStart T c) s = .next t) :
    Invariants t := by
  rcases tmrStart_cases hx with ⟨hc, -, -, rfl⟩ | ⟨-, rfl⟩
  · refine (h.setTmr h.tick h.tick (Nat.zero_le _) fun hmode => ?_).finish .ok 0 (by decide)
    have hlt := timerMode_direct_iff.1 hmode
    rw [timerBudget_direct hlt]
    exact lt_of_le_of_lt (Nat.mod_le _ _) (direct_budget_lt hc hlt)
  · exact h.finish .invalidParam 0 (by decide)

/-- TMR_POLL counts a crossing only below the budget (R125). -/
theorem tmrPoll_keeps_invariants (h : Invariants s) (hx : exec .tmrPoll s = .next t) : Invariants t := by
  rcases tmrPoll_cases hx with
    ⟨-, rfl⟩ | ⟨-, rfl⟩ | ⟨-, rfl⟩ | ⟨-, -, rfl⟩ | ⟨-, -, -, rfl⟩ | ⟨-, -, -, rfl⟩ | ⟨-, -, -, -, hne, rfl⟩
  · exact h.finish .illegalCommand 0 (by decide)
  · exact h.finish .ok 0 (by decide)
  · exact h.finish .timeout 0 (by decide)
  · exact (h.pollTmr .doneOk h.prevTick h.cross).finish .ok 0 (by decide)
  · exact (h.pollTmr .doneTimeout h.tick h.cross).finish .timeout 0 (by decide)
  · exact (h.pollTmr s.tmr.state h.tick h.cross).finish .ok 1 (by decide)
  · have hlt : s.tmr.cross.toNat < s.tmr.budget.toNat :=
      lt_of_le_of_ne h.cross fun he => hne (BitVec.eq_of_toNat_eq he)
    have hcross : (s.tmr.cross + 1).toNat ≤ s.tmr.budget.toNat := by
      have := s.tmr.budget.isLt
      rw [BitVec.toNat_add_of_lt (by simp; omega)]; simpa using hlt
    exact (h.pollTmr s.tmr.state h.tick hcross).finish .ok 1 (by decide)

theorem readCsr_keeps_invariants {idx : Nat} (h : Invariants s) (hx : exec (.readCsr idx) s = .next t) :
    Invariants t := by
  rcases readCsr_cases hx with ⟨-, rfl⟩ | ⟨-, -, -, rfl⟩ | ⟨-, -, -, rfl⟩
  · exact h.finish .invalidParam 0 (by decide)
  · exact h.setUnconstrained.finish .ok _ (by decide)
  · exact h.finish .ok _ (by decide)

/-! ### Every agent's step -/

theorem exec_keeps_invariants {i : Instr} (h : Invariants s) (hx : exec i s = .next t) : Invariants t := by
  cases i with
  | setHeader => exact setHeader_keeps_invariants h hx
  | setEndian => exact setEndian_keeps_invariants h hx
  | buildHeader => exact buildHeader_keeps_invariants h hx
  | fillHdr => exact fillHdr_keeps_invariants h hx
  | fillTx => exact fillTx_keeps_invariants h hx
  | drainRx => exact drainRx_keeps_invariants h hx
  | fifoClear => exact fifoClear_keeps_invariants h hx
  | tmrStart => exact tmrStart_keeps_invariants h hx
  | tmrPoll => exact tmrPoll_keeps_invariants h hx
  | readCsr => exact readCsr_keeps_invariants h hx

/-- The transmit step removes the head of TXQ; in the loopback configuration RXQ receives it (R266, R271). -/
theorem shiftOut_keeps_invariants (h : Invariants s) (hx : shiftOut s = .next t) : Invariants t := by
  obtain ⟨e, es, hq, hcase⟩ := shiftOut_cases hx
  have hsent : Invariants { s with txq := es } := by simpa [hq] using h.dropTxq 1
  rcases hcase with ⟨-, rfl⟩ | ⟨-, ht, rfl⟩
  · exact hsent
  · exact hsent.receive (h.txCounts e (hq ▸ List.mem_cons_self)) ht

theorem agentStep_keeps_invariants {e : Event} (h : Invariants s) (hx : agentStep e s = .next t) : Invariants t := by
  cases e with
  | command c =>
    obtain ⟨-, ⟨i, -, hi⟩ | ⟨_, -, rfl⟩⟩ := issueCommand_cases hx
    · exact exec_keeps_invariants h hi
    · exact h.finish .illegalCommand 0 (by decide)
  | shiftOut => exact shiftOut_keeps_invariants h hx
  | rxPush w c =>
    obtain ⟨-, h1, h4, ht, rfl⟩ := rxPush_cases hx
    exact h.receive ⟨h1, h4⟩ ht
  | setBusy b => cases hx; exact h.setUnconstrained
  | tick => cases hx; exact h.tickStep
  | blockReset => cases hx; exact invariants_resetBlock h.cfg h.tick ⟨h.mem, h.memBelow⟩
  | bufWrite a v => cases hx; exact h.setMem (Memory.write_wf h.mem _ v) (Memory.write_below h.memBelow a.isLt v)

/-- A launch state is a block reset's result but for what HDR_BUF holds (R296). -/
theorem CleanEntry.eq_resetBlock (h : CleanEntry s) :
    s = { resetBlock s with built := ⟨s.built.buf, 0, 0, 0⟩ } :=
  (congrArg (fun u : State => { u with built := { u.built with buf := s.built.buf } }) h.reset).symm

/-! ### The statements -/

/-- Settles O50: a step idles or is one agent's step from the state with that event taken off the schedule. -/
theorem stepKeepsInvariants : Obligations.StepKeepsInvariants := by
  intro s t h hstep
  rcases step_cases hstep with ⟨-, rfl⟩ | ⟨e, es, -, hagent⟩
  · exact h
  · exact agentStep_keeps_invariants h.setUnconstrained hagent

/-- Settles O49: a launch state is a reset state with any bytes in HDR_BUF. -/
theorem invariantsHoldAtLaunch : Obligations.InvariantsHoldAtLaunch := by
  intro s h
  obtain ⟨hwf, hbelow⟩ := h.hdrBuf
  rw [h.eq_resetBlock]
  exact (invariants_resetBlock h.cfg h.tick h.mem).setBuilt (by decide) rfl hwf hbelow

/-- Settles O48: `State.reset` is a launch state with the parameters of the test vectors. -/
theorem invariantsHoldAtReset : Obligations.InvariantsHoldAtReset :=
  invariantsHoldAtLaunch State.reset
    { cfg := by decide, reset := rfl, hdrBuf := by decide, marks := ⟨rfl, rfl⟩, tick := by decide, mem := by decide }

/-- Settles O47: each value is the one `State.reset` writes down. -/
theorem resetStateValues : Obligations.ResetStateValues :=
  ⟨rfl, rfl, rfl, rfl, rfl, rfl, rfl, rfl, rfl, rfl, rfl, rfl, rfl⟩

end Sys2Proof.Machine
end

section
/-! PROOF. What no step undoes and what no step of another copy reaches: the marks (10_state.md R37), and the state of the
other copies of the block (R42, 60_exceptions.md R263). -/

namespace Sys2Proof.Machine

variable {s t : State}

/-! ### The marks -/

/-- A command leaves the parameters, the inputs, the mark RX_OVERFLOW and what is scheduled. -/
theorem exec_sameSurroundings {i : Instr} (h : exec i s = .next t) : sameSurroundings s t := by
  cases i with
  | setHeader => rcases setHeader_cases h with ⟨-, -, -, rfl⟩ | ⟨-, rfl⟩ <;> exact ⟨rfl, rfl, rfl, rfl, rfl⟩
  | setEndian => rcases setEndian_cases h with ⟨-, rfl⟩ | ⟨-, rfl⟩ <;> exact ⟨rfl, rfl, rfl, rfl, rfl⟩
  | buildHeader => rcases buildHeader_cases h with ⟨-, rfl⟩ | ⟨-, rfl⟩ <;> exact ⟨rfl, rfl, rfl, rfl, rfl⟩
  | fillHdr => rcases fillHdr_cases h with ⟨-, rfl⟩ | ⟨-, rfl⟩ <;> exact ⟨rfl, rfl, rfl, rfl, rfl⟩
  | fillTx =>
    rcases fillTx_cases h with ⟨-, rfl⟩ | ⟨-, -, rfl⟩ | ⟨-, -, -, rfl⟩ | ⟨-, -, -, rfl⟩ <;>
      exact ⟨rfl, rfl, rfl, rfl, rfl⟩
  | drainRx =>
    rcases drainRx_cases h with ⟨-, rfl⟩ | ⟨-, -, rfl⟩ | ⟨-, -, -, rfl⟩ | ⟨-, -, -, rfl⟩ <;>
      exact ⟨rfl, rfl, rfl, rfl, rfl⟩
  | fifoClear => rw [fifoClear_cases h]; exact ⟨rfl, rfl, rfl, rfl, rfl⟩
  | tmrStart => rcases tmrStart_cases h with ⟨-, -, -, rfl⟩ | ⟨-, rfl⟩ <;> exact ⟨rfl, rfl, rfl, rfl, rfl⟩
  | tmrPoll =>
    rcases tmrPoll_cases h with
      ⟨-, rfl⟩ | ⟨-, rfl⟩ | ⟨-, rfl⟩ | ⟨-, -, rfl⟩ | ⟨-, -, -, rfl⟩ | ⟨-, -, -, rfl⟩ | ⟨-, -, -, -, -, rfl⟩ <;>
      exact ⟨rfl, rfl, rfl, rfl, rfl⟩
  | readCsr =>
    rcases readCsr_cases h with ⟨-, rfl⟩ | ⟨-, -, -, rfl⟩ | ⟨-, -, -, rfl⟩ <;> exact ⟨rfl, rfl, rfl, rfl, rfl⟩

/-- Receiving an entry may set RX_OVERFLOW and leaves BUS_FAULT (R267, R268). -/
theorem receive_marks (e : Entry) (s : State) :
    (s.rxOverflow = true → (receive e s).rxOverflow = true) ∧ (receive e s).busFault = s.busFault := by
  rcases receive_cases e s with ⟨-, h⟩ | ⟨-, h⟩ <;> rw [h]
  · exact ⟨id, rfl⟩
  · exact ⟨fun _ => rfl, rfl⟩

/-- No agent clears a mark; where BUS_FAULT is set, the Controller has no step (R64). -/
theorem agentStep_keeps_marks {e : Event} (h : agentStep e s = .next t) :
    (s.rxOverflow = true → t.rxOverflow = true) ∧ (s.busFault = true → t.busFault = true) := by
  cases e with
  | command c =>
    obtain ⟨hclear, hcase⟩ := issueCommand_cases h
    refine ⟨fun ho => ?_, fun hb => absurd hb (by simp [hclear])⟩
    rcases hcase with ⟨i, -, hx⟩ | ⟨_, -, rfl⟩
    · obtain ⟨-, -, -, hoverflow, -⟩ := exec_sameSurroundings hx
      rw [hoverflow, ho]
    · exact ho
  | shiftOut =>
    obtain ⟨e, es, -, ⟨-, rfl⟩ | ⟨-, -, rfl⟩⟩ := shiftOut_cases h
    · exact ⟨id, id⟩
    · obtain ⟨hoverflow, hbus⟩ := receive_marks e { s with txq := es }
      exact ⟨hoverflow, fun hb => hbus.trans hb⟩
  | rxPush w c =>
    obtain ⟨-, -, -, -, rfl⟩ := rxPush_cases h
    obtain ⟨hoverflow, hbus⟩ := receive_marks ⟨w, c⟩ s
    exact ⟨hoverflow, fun hb => hbus.trans hb⟩
  | setBusy | tick | blockReset | bufWrite => cases h; exact ⟨id, id⟩

/-! ### Several copies -/

/-- A step of copy `k` is a step of its state, shown to the other copies (R42). -/
theorem System.stepAt_cases {k : Nat} {sys sys' : System} (h : sys.stepAt k = .next sys') :
    ∃ s t, sys.blocks[k]? = some s ∧ step s = .next t ∧ sys' = System.update k t sys := by
  unfold System.stepAt at h
  split at h
  · cases h
  · next s hs =>
    split at h
    · next t ht => cases h; exact ⟨s, t, hs, ht, rfl⟩
    · cases h
    · cases h

/-- Another copy takes over only what is shared. -/
theorem System.update_getElem?_of_ne {k j : Nat} (hne : j ≠ k) (t : State) (sys : System) :
    (System.update k t sys).blocks[j]? = sys.blocks[j]?.map (seeShared sys.sharedTick t) := by
  simp [System.update, hne]

/-! ### The statements -/

/-- Settles O51: a step idles or is one agent's step, and no agent clears a mark. -/
theorem marksAreSticky : Obligations.MarksAreSticky := by
  intro s t h
  rcases step_cases h with ⟨-, rfl⟩ | ⟨e, es, -, hagent⟩
  · exact ⟨id, id⟩
  · exact agentStep_keeps_marks (s := { s with schedule := es }) hagent

/-- Settles O53: what another copy takes over from a step is memory, and TICK where it is shared. -/
theorem blocksDoNotInteract : Obligations.BlocksDoNotInteract := by
  intro k j sys sys' s h hne hs
  obtain ⟨-, t, -, -, rfl⟩ := System.stepAt_cases h
  refine ⟨seeShared sys.sharedTick t s, ?_, rfl, fun hshared => ?_⟩
  · rw [System.update_getElem?_of_ne hne, hs]; rfl
  · simp [seeShared, hshared]

end Sys2Proof.Machine
end

section
/-! PROOF. The bytes of HDR_BUF at and above HDR_LEN influence no command (10_state.md R28): most commands read and write
no byte of HDR_BUF, BUILD_HEADER writes every byte below the new HDR_LEN, and FILL_HDR and READ_CSR read below it. -/

namespace Sys2Proof.Machine

variable {s t : State} {m : Memory}

/-- The same state with other contents of HDR_BUF. -/
def State.withHdrBuf (m : Memory) (s : State) : State := { s with built := { s.built with buf := m } }

/-- HDR_BUF reads as `m` below HDR_LEN. -/
def agreesBelowLen (m : Memory) (b : Built) : Prop := ∀ a, a < b.len.toNat → Memory.read m a = Memory.read b.buf a

/-! ### Reads below HDR_LEN -/

theorem hdrGroup_congr {b : Built} {a : Nat} (h : agreesBelowLen m b) (ha : a + 3 < b.len.toNat) :
    hdrGroup { b with buf := m } a = hdrGroup b a := by
  simp [hdrGroup, h a (by omega), h (a + 1) (by omega), h (a + 2) (by omega), h (a + 3) ha]

/-- Header words within the header (R156). -/
theorem headerEntries_congr {b : Built} {n : Nat} (h : agreesBelowLen m b) (hn : b.pos.toNat + n ≤ b.len.toNat) :
    headerEntries { b with buf := m } n = headerEntries b n := by
  refine List.map_congr_left fun j hj => ?_
  have hj' : j < n / 4 := List.mem_range.1 hj
  rw [show hdrGroup { b with buf := m } (b.pos.toNat + 4 * j) = _ from hdrGroup_congr h (by omega)]
  rfl

/-- Whether a register has a value is decided by HDR_LEN (R231). -/
theorem csrUnspecified_withHdrBuf (m : Memory) (s : State) (c : Csr) :
    csrUnspecified (s.withHdrBuf m) c = csrUnspecified s c := rfl

/-- A register whose value is specified (R38). -/
theorem csrValue_congr {c : Csr} (h : agreesBelowLen m s.built) (hmod : s.built.len.toNat % 4 = 0)
    (hc : csrUnspecified s c = false) : csrValue (s.withHdrBuf m) c = csrValue s c := by
  cases c with
  | hdrBufWord j =>
    have hj : 4 * j < s.built.len.toNat := by simpa [csrUnspecified] using hc
    exact congrArg hdrword (hdrGroup_congr h (by omega))
  | _ => rfl

/-! ### Commands that touch no byte of HDR_BUF -/

/-- A command that reads and writes no byte of HDR_BUF. -/
def leavesHdrBuf : Instr → Bool
  | .buildHeader | .fillHdr | .readCsr _ => false
  | .setHeader _ _ _ _ _ | .setEndian _ | .fillTx _ _ | .drainRx _ _ | .fifoClear | .tmrStart _ _ | .tmrPoll => true

/-- A change of the next state, where there is one. -/
def onNext (f : State → State) : Host.Outcome State Fault Refusal → Host.Outcome State Fault Refusal
  | .next s    => .next (f s)
  | .fault r   => .fault r
  | .refused r => .refused r

theorem pollDirect_withHdrBuf (m : Memory) (s : State) :
    pollDirect (s.withHdrBuf m) = (pollDirect s).withHdrBuf m := by
  simp only [pollDirect, apply_ite (State.withHdrBuf m)]; rfl

theorem pollCrossing_withHdrBuf (m : Memory) (s : State) :
    pollCrossing (s.withHdrBuf m) = (pollCrossing s).withHdrBuf m := by
  simp only [pollCrossing, apply_ite (State.withHdrBuf m)]; rfl

theorem execTmrPoll_withHdrBuf (m : Memory) (s : State) :
    execTmrPoll (s.withHdrBuf m) = onNext (State.withHdrBuf m) (execTmrPoll s) := by
  have htmr : (s.withHdrBuf m).tmr = s.tmr := rfl
  have hbusy : (s.withHdrBuf m).busy = s.busy := rfl
  simp only [execTmrPoll, htmr, hbusy, pollDirect_withHdrBuf, pollCrossing_withHdrBuf]
  cases s.tmr.state with
  | running => cases s.busy <;> cases s.tmr.mode <;> rfl
  | idle | doneOk | doneTimeout => rfl

/-- Such a command does the same whatever HDR_BUF holds. -/
theorem exec_withHdrBuf {i : Instr} (hi : leavesHdrBuf i = true) (m : Memory) (s : State) :
    exec i (s.withHdrBuf m) = onNext (State.withHdrBuf m) (exec i s) := by
  cases i with
  | setHeader => simp only [exec, execSetHeader, apply_ite (onNext (State.withHdrBuf m))]; rfl
  | setEndian => simp only [exec, execSetEndian, apply_ite (onNext (State.withHdrBuf m))]; rfl
  | fillTx => simp only [exec, execFillTx, apply_ite (onNext (State.withHdrBuf m))]; rfl
  | drainRx => simp only [exec, execDrainRx, apply_ite (onNext (State.withHdrBuf m))]; rfl
  | fifoClear => rfl
  | tmrStart => simp only [exec, execTmrStart, apply_ite (onNext (State.withHdrBuf m))]; rfl
  | tmrPoll => exact execTmrPoll_withHdrBuf m s
  | buildHeader | fillHdr | readCsr => cases hi

/-- And it leaves HDR_BUF and HDR_LEN. -/
theorem exec_leaves_hdrBuf {i : Instr} (hi : leavesHdrBuf i = true) (h : exec i s = .next t) :
    t.built.buf = s.built.buf ∧ t.built.len = s.built.len := by
  cases i with
  | setHeader => rcases setHeader_cases h with ⟨-, -, -, rfl⟩ | ⟨-, rfl⟩ <;> exact ⟨rfl, rfl⟩
  | setEndian => rcases setEndian_cases h with ⟨-, rfl⟩ | ⟨-, rfl⟩ <;> exact ⟨rfl, rfl⟩
  | fillTx =>
    rcases fillTx_cases h with ⟨-, rfl⟩ | ⟨-, -, rfl⟩ | ⟨-, -, -, rfl⟩ | ⟨-, -, -, rfl⟩ <;> exact ⟨rfl, rfl⟩
  | drainRx =>
    rcases drainRx_cases h with ⟨-, rfl⟩ | ⟨-, -, rfl⟩ | ⟨-, -, -, rfl⟩ | ⟨-, -, -, rfl⟩ <;> exact ⟨rfl, rfl⟩
  | fifoClear => rw [fifoClear_cases h]; exact ⟨rfl, rfl⟩
  | tmrStart => rcases tmrStart_cases h with ⟨-, -, -, rfl⟩ | ⟨-, rfl⟩ <;> exact ⟨rfl, rfl⟩
  | tmrPoll =>
    rcases tmrPoll_cases h with
      ⟨-, rfl⟩ | ⟨-, rfl⟩ | ⟨-, rfl⟩ | ⟨-, -, rfl⟩ | ⟨-, -, -, rfl⟩ | ⟨-, -, -, rfl⟩ | ⟨-, -, -, -, -, rfl⟩ <;>
      exact ⟨rfl, rfl⟩
  | buildHeader | fillHdr | readCsr => cases hi

/-! ### The commands that read or write HDR_BUF -/

/-- The command does the same on other contents of HDR_BUF that agree below HDR_LEN, and what it leaves agrees again. -/
def StaleBytesUnobserved (i : Instr) (s t : State) (m : Memory) : Prop :=
  ∃ m', exec i (s.withHdrBuf m) = .next (t.withHdrBuf m') ∧ agreesBelowLen m' t.built

theorem unobserved_of_leavesHdrBuf {i : Instr} (hi : leavesHdrBuf i = true) (hx : exec i s = .next t)
    (hm : agreesBelowLen m s.built) : StaleBytesUnobserved i s t m := by
  obtain ⟨hbuf, hlen⟩ := exec_leaves_hdrBuf hi hx
  refine ⟨m, by rw [exec_withHdrBuf hi, hx]; rfl, fun a ha => ?_⟩
  rw [hlen] at ha
  rw [hbuf, hm a ha]

/-- BUILD_HEADER writes every byte below the new HDR_LEN (R155). -/
theorem buildHeader_unobserved (hinv : Invariants s) (hx : exec .buildHeader s = .next t)
    (hm : agreesBelowLen m s.built) : StaleBytesUnobserved .buildHeader s t m := by
  rcases buildHeader_cases hx with ⟨hsent, rfl⟩ | ⟨hunsent, rfl⟩
  · refine ⟨Memory.storeLow m (order s.be (Header.layout s.hdr) (Header.raw s.hdr)),
      if_neg (mt headerUnsent_iff.1 (Nat.not_lt.2 hsent)), fun a ha => ?_⟩
    obtain ⟨-, hlen⟩ := hinv.headerLengths_toNat
    have hlt : a < (order s.be (Header.layout s.hdr) (Header.raw s.hdr)).length := by
      rw [orderedLayout_length]; exact hlen ▸ ha
    simp only [finish_built, Memory.read_storeLow, hlt, dif_pos]
  · exact ⟨m, if_pos (headerUnsent_iff.2 hunsent), hm⟩

/-- FILL_HDR reads only bytes of the header (R156). -/
theorem fillHdr_unobserved (hinv : Invariants s) (hx : exec .fillHdr s = .next t) (hm : agreesBelowLen m s.built) :
    StaleBytesUnobserved .fillHdr s t m := by
  rcases fillHdr_cases hx with ⟨hsent, rfl⟩ | ⟨hunsent, rfl⟩
  · exact ⟨m, if_pos hsent, hm⟩
  · obtain ⟨-, hwithin, -⟩ := fillHdrCount_spec hinv
    refine ⟨m, ?_, hm⟩
    rw [← headerEntries_congr hm hwithin]
    exact if_neg hunsent

/-- READ_CSR gives a byte of HDR_BUF only below HDR_LEN, and a free value from there on (R231, log 12). -/
theorem readCsr_unobserved {idx : Nat} (hinv : Invariants s) (hx : exec (.readCsr idx) s = .next t)
    (hm : agreesBelowLen m s.built) : StaleBytesUnobserved (.readCsr idx) s t m := by
  rcases readCsr_cases hx with ⟨hidx, rfl⟩ | ⟨c, hidx, hfree, rfl⟩ | ⟨c, hidx, hgiven, rfl⟩ <;> refine ⟨m, ?_, hm⟩
  · simp only [exec, execReadCsr, hidx]; rfl
  · simp only [exec, execReadCsr, hidx, csrUnspecified_withHdrBuf, hfree]; rfl
  · rw [← csrValue_congr hm hinv.lenMod hgiven]
    simp only [exec, execReadCsr, hidx, csrUnspecified_withHdrBuf, hgiven]; rfl

/-- Settles O18: a command leaves HDR_BUF alone, or is one of the three that do not. -/
theorem staleHeaderBytesUnobservable : Obligations.StaleHeaderBytesUnobservable := by
  intro i s t m hinv hx hm
  cases i with
  | buildHeader => exact buildHeader_unobserved hinv hx hm
  | fillHdr => exact fillHdr_unobserved hinv hx hm
  | readCsr => exact readCsr_unobserved hinv hx hm
  | setHeader | setEndian | fillTx | drainRx | fifoClear | tmrStart | tmrPoll =>
    exact unobserved_of_leavesHdrBuf rfl hx hm

end Sys2Proof.Machine
end

section
/-! PROOF. Byte order (20_memory.md R66 to R68): in which lane `pack` puts each byte, that `unpack` reads only the lanes
it names, and that it gives back what was packed. -/

namespace Sys2Proof.Machine

variable {b : List Byte} {w w' : Word} {i j k : Nat}

/-! ### Lanes -/

/-- A word has four lanes. -/
theorem lane_of_four_le (w : Word) (h : 4 ≤ j) : lane w j = 0 := by
  have hlt : w.toNat < 2 ^ (8 * j) := w.isLt.trans_le (Nat.pow_le_pow_right (by decide) (by omega))
  apply BitVec.eq_of_toNat_eq
  rw [lane_toNat, Nat.div_eq_of_lt hlt]
  rfl

/-- Lane j is below the end of lane k - 1. -/
theorem lane_toNat_of_lt (w : Word) (hj : j < k) :
    (lane w j).toNat = w.toNat % 2 ^ (8 * k) / 2 ^ (8 * j) % 256 := by
  have hsplit : 2 ^ (8 * k) = 2 ^ (8 * j) * (256 * 2 ^ (8 * (k - j - 1))) := by
    rw [show 256 = 2 ^ 8 from rfl, ← pow_add, ← pow_add]; congr 1; omega
  rw [lane_toNat, hsplit, Nat.mod_mul_right_div_self, Nat.mod_mul_right_mod]

theorem lane_congr_of_mod (h : w'.toNat % 2 ^ (8 * k) = w.toNat % 2 ^ (8 * k)) (hj : j < k) :
    lane w' j = lane w j := by
  apply BitVec.eq_of_toNat_eq
  rw [lane_toNat_of_lt w' hj, lane_toNat_of_lt w hj, h]

/-! ### pack (R66) -/

/-- The lanes of up to four bytes packed, those beyond the word included. -/
theorem lane_packLow_of_length_le (h : b.length ≤ 4) (j : Nat) : lane (packLow b) j = b[j]?.getD 0 := by
  by_cases hj : j < 4
  · exact lane_packLow b j hj
  · rw [lane_of_four_le _ (by omega), List.getElem?_eq_none (by omega), Option.getD_none]

theorem getElem?_eq_lane_packLow (h : b.length ≤ 4) (hi : i < b.length) : b[i]? = some (lane (packLow b) i) := by
  simp [lane_packLow_of_length_le h, hi]

/-- Little-endian: byte i is in lane i. -/
theorem getElem?_eq_lane_pack_false (h : b.length ≤ 4) (hi : i < b.length) : b[i]? = some (lane (pack false b) i) :=
  getElem?_eq_lane_packLow h hi

/-- Big-endian: byte i is in lane k - 1 - i. -/
theorem getElem?_eq_lane_pack_true (h : b.length ≤ 4) (hi : i < b.length) :
    b[i]? = some (lane (pack true b) (b.length - 1 - i)) := by
  have hrev := getElem?_eq_lane_packLow (b := b.reverse) (i := b.length - 1 - i) (by simpa using h) (by simp; omega)
  rwa [List.getElem?_reverse (by omega), show b.length - 1 - (b.length - 1 - i) = i by omega] at hrev

/-- The lanes without a byte are zero, in either byte order. -/
theorem lane_pack_of_length_le (be : Bool) (h : b.length ≤ 4) (hj : b.length ≤ j) : lane (pack be b) j = 0 := by
  cases be with
  | false =>
    rw [show pack false b = packLow b from rfl, lane_packLow_of_length_le h, List.getElem?_eq_none hj, Option.getD_none]
  | true =>
    rw [show pack true b = packLow b.reverse from rfl, lane_packLow_of_length_le (by simpa using h),
      List.getElem?_eq_none (by simpa using hj), Option.getD_none]

/-! ### unpack (R67, R68) -/

/-- `unpack` reads no lane but the first k. -/
theorem unpack_congr (be : Bool) (h : ∀ j, j < k → lane w' j = lane w j) : unpack be w' k = unpack be w k := by
  have hlanes : (List.range k).map (lane w') = (List.range k).map (lane w) :=
    List.map_congr_left fun j hj => h j (List.mem_range.1 hj)
  simp only [unpack, hlanes]

/-- Byte i goes to the lane it comes back from. -/
theorem unpack_pack (be : Bool) (h : b.length ≤ 4) : unpack be (pack be b) b.length = b := by
  refine List.ext_getElem?' fun i hi => ?_
  rw [unpack_length, Nat.max_self] at hi
  cases be with
  | false => rw [unpack_false_getElem? hi, getElem?_eq_lane_pack_false h hi]
  | true => rw [unpack_true_getElem? hi, getElem?_eq_lane_pack_true h hi]

/-! ### The statements -/

/-- Settles O19: byte by byte in either order, then the lanes from k on. -/
theorem packLanes : Obligations.PackLanes := by
  rintro b k rfl - hk
  exact ⟨fun i => getElem?_eq_lane_pack_false hk, fun i => getElem?_eq_lane_pack_true hk,
    fun be j => lane_pack_of_length_le be hk⟩

/-- Settles O20: the lanes `unpack` takes as numbers, that it takes no other, and the round trip. -/
theorem unpackOfPack : Obligations.UnpackOfPack := by
  refine ⟨fun w k _ _ => ⟨fun be => unpack_length be w k, fun i hi => ?_, fun i hi => ?_, fun be w' hmod => ?_⟩, ?_⟩
  · rw [unpack_false_getElem? hi, Option.map_some, lane_toNat]
  · rw [unpack_true_getElem? hi, Option.map_some, lane_toNat]
  · exact unpack_congr be fun j => lane_congr_of_mod hmod
  · rintro be k b - hk rfl
    exact unpack_pack be hk

end Sys2Proof.Machine
end

section
/-! PROOF. The bus fault (20_memory.md R64, log 9): the two commands that access a buffer end in `busError` where the
platform does not admit the access, and the Controller issues nothing after it. -/

namespace Sys2Proof.Machine

variable {s : State}

/-- FILL_TX of a buffer with a byte the platform does not admit reading. -/
theorem exec_fillTx_of_not_readable {src : Word} {len : Nat} (hnull : ¬ nullBuffer src len = true)
    (hsent : ¬ s.headerUnsent = true) (hread : ¬ bufReadable s.cfg src (fillTxCount len s) = true) :
    exec (.fillTx src len) s = .next (busError s) := by
  obtain ⟨t, ht⟩ := exec_ne_stop (.fillTx src len) s
  rcases fillTx_cases ht with ⟨hn, -⟩ | ⟨-, hu, -⟩ | ⟨-, -, -, rfl⟩ | ⟨-, -, hr, -⟩
  · exact absurd hn hnull
  · exact absurd hu hsent
  · exact ht
  · exact absurd hr hread

/-- DRAIN_RX into a buffer with a byte the platform does not admit writing. -/
theorem exec_drainRx_of_not_writable {dst : Word} {remaining : Nat} (hnull : ¬ nullBuffer dst remaining = true)
    (hcount : drainRxCount remaining s ≠ 0) (hwrite : ¬ bufWritable s.cfg dst (drainRxCount remaining s) = true) :
    exec (.drainRx dst remaining) s = .next (busError s) := by
  obtain ⟨t, ht⟩ := exec_ne_stop (.drainRx dst remaining) s
  rcases drainRx_cases ht with ⟨hn, -⟩ | ⟨-, hz, -⟩ | ⟨-, -, -, rfl⟩ | ⟨-, -, hw, -⟩
  · exact absurd hn hnull
  · exact absurd hz hcount
  · exact ht
  · exact absurd hw hwrite

/-- A command issued after a bus fault has no step. -/
theorem issueCommand_of_busFault (c : Command) (h : s.busFault = true) : issueCommand c s = .fault .controllerStuck :=
  if_pos h

/-- Settles O9: the byte that is not admitted is one of the buffer's, so FILL_TX and DRAIN_RX meet the bus error. -/
theorem busFaultSticksController : Obligations.BusFaultSticksController := by
  refine ⟨fun src len s hnull hsent ⟨i, hi, hbad⟩ => ?_, fun dst remaining s hnull ⟨i, hi, hbad⟩ => ?_,
    fun c s => issueCommand_of_busFault c⟩
  · refine exec_fillTx_of_not_readable (mt nullBuffer_iff.1 hnull) (mt headerUnsent_iff.1 hsent) fun hread => ?_
    exact Bool.false_ne_true (hbad.symm.trans (bufReadable_iff.1 hread i hi))
  · refine exec_drainRx_of_not_writable (mt nullBuffer_iff.1 hnull) (Nat.ne_zero_of_lt hi) fun hwrite => ?_
    exact Bool.false_ne_true (hbad.symm.trans (bufWritable_iff.1 hwrite i hi))

end Sys2Proof.Machine
end

section
/-! PROOF. Encoding and decoding (30_encoding.md R90 to R100): the row an encoded word selects and the operands read back
from it, the command word written back from what was decoded, and the words that select no row. -/

namespace Sys2Proof

variable {c : Command} {cw : Word} {i : Instr} {op : Op}

/-! ### Decoding an encoding (R100) -/

/-- The family `EncodedWordSelectsRow`, collected. -/
theorem encode_selects_row (i : Instr) : Laws.EncodedWordSelectsRow.Statement i := by
  cases i with
  | setHeader cl al db cmd addr => exact Laws.EncodedWordSelectsRow.setHeader cl al db cmd addr
  | setEndian e => exact Laws.EncodedWordSelectsRow.setEndian e
  | buildHeader => exact Laws.EncodedWordSelectsRow.buildHeader
  | fillHdr => exact Laws.EncodedWordSelectsRow.fillHdr
  | fillTx src len => exact Laws.EncodedWordSelectsRow.fillTx src len
  | drainRx dst remaining => exact Laws.EncodedWordSelectsRow.drainRx dst remaining
  | fifoClear => exact Laws.EncodedWordSelectsRow.fifoClear
  | tmrStart t c => exact Laws.EncodedWordSelectsRow.tmrStart t c
  | tmrPoll => exact Laws.EncodedWordSelectsRow.tmrPoll
  | readCsr idx => exact Laws.EncodedWordSelectsRow.readCsr idx

/-- A number that fits an operand word comes back from it (R95). -/
theorem operand_toNat {n : Nat} (h : n < 2 ^ 32) : (BitVec.ofNat 32 n).toNat = n := by
  rw [BitVec.toNat_ofNat, Nat.mod_eq_of_lt h]

/-- OPA[15:0], where SET_HEADER has its command value, as a number (R95). -/
theorem opaLow_toNat (v : Word) : (v.extractLsb' 0 16).toNat = v.toNat % 2 ^ 16 := by
  rw [BitVec.extractLsb'_toNat, Nat.shiftRight_zero]

/-- The fields of SET_HEADER read back from its command word (R92). -/
theorem operandsOf_encode_setHeader {cl al db : Nat} (hc : cl < 2 ^ 2) (ha : al < 2 ^ 3) (hd : db < 2 ^ 16)
    (cmd : BitVec 16) (addr : Word) :
    operandsOf .setHeader (encode (.setHeader cl al db cmd addr)) = .setHeader cl al db cmd addr := by
  have hcw := cw_setHeader hc ha hd cmd addr
  have hcmd : (cmd.setWidth 32).extractLsb' 0 16 = cmd := by
    apply BitVec.eq_of_toNat_eq
    have := cmd.isLt
    rw [opaLow_toNat, BitVec.toNat_setWidth]
    omega
  simp only [operandsOf, bitField_eq, hcw]
  congr 1
  · omega
  · omega
  · omega

/-- Every operand is read from where the encoder put it. -/
theorem operandsOf_encode (h : i.wf = true) : operandsOf i.op (encode i) = i := by
  cases i with
  | setHeader cl al db cmd addr =>
    simp only [Instr.wf, Bool.and_eq_true, decide_eq_true_eq] at h
    obtain ⟨⟨hc, ha⟩, hd⟩ := h
    exact operandsOf_encode_setHeader hc ha hd cmd addr
  | setEndian e => cases e <;> rfl
  | buildHeader | fillHdr | fifoClear | tmrPoll => rfl
  | fillTx src len => exact congrArg (Instr.fillTx src) (operand_toNat (of_decide_eq_true h))
  | drainRx dst remaining => exact congrArg (Instr.drainRx dst) (operand_toNat (of_decide_eq_true h))
  | tmrStart t c =>
    simp only [Instr.wf, Bool.and_eq_true, decide_eq_true_eq] at h
    obtain ⟨ht, hc⟩ := h
    exact congrArg₂ Instr.tmrStart (operand_toNat ht) (operand_toNat hc)
  | readCsr idx =>
    have hidx : idx < 2 ^ 16 := of_decide_eq_true h
    refine congrArg Instr.readCsr ?_
    rw [bitField_eq, cw_readCsr hidx]
    omega

/-- Settles O1: the encoded word selects the instruction's own row, whose fields are read back. -/
theorem decodeOfEncode : Obligations.DecodeOfEncode := by
  intro i h
  rw [decode_of_select (selectOp_eq_some.2 (encode_selects_row i h)), operandsOf_encode h]

/-! ### Encoding a decoded word (R91 to R94) -/

theorem bitField_lt (v : Word) (lo n : Nat) : bitField v lo n < 2 ^ n := (v.extractLsb' lo n).isLt

/-- A decoded instruction's numbers come from fields of their widths. -/
theorem operandsOf_wf (op : Op) (c : Command) : (operandsOf op c).wf = true := by
  cases op with
  | setHeader =>
    simp only [operandsOf, Instr.wf, Bool.and_eq_true, decide_eq_true_eq]
    exact ⟨⟨bitField_lt _ _ _, bitField_lt _ _ _⟩, bitField_lt _ _ _⟩
  | setEndian | buildHeader | fillHdr | fifoClear | tmrPoll => rfl
  | fillTx | drainRx => exact decide_eq_true c.opb.isLt
  | tmrStart =>
    simp only [operandsOf, Instr.wf, Bool.and_eq_true, decide_eq_true_eq]
    exact ⟨c.opa.isLt, c.opb.isLt⟩
  | readCsr => exact decide_eq_true (bitField_lt _ _ _)

/-- SET_HEADER's word is its opcode and its three fields (R92). -/
theorem encode_operandsOf_setHeader (h : c.cw &&& maskValue .setHeader = matchValue .setHeader) :
    (encode (operandsOf .setHeader c)).cw = c.cw := by
  obtain ⟨hop, hreserved⟩ := select_setHeader.1 h
  have := c.cw.isLt
  apply BitVec.eq_of_toNat_eq
  rw [operandsOf, cw_setHeader (bitField_lt _ _ _) (bitField_lt _ _ _) (bitField_lt _ _ _)]
  simp only [bitField_eq]
  omega

/-- SET_ENDIAN's word is its opcode and the bit E (R93). -/
theorem encode_operandsOf_setEndian (h : c.cw &&& maskValue .setEndian = matchValue .setEndian) :
    (encode (operandsOf .setEndian c)).cw = c.cw := by
  obtain ⟨hop, hreserved⟩ := select_setEndian.1 h
  have hlt := c.cw.isLt
  have hbit : c.cw.getLsbD 8 = decide (c.cw.toNat / 2 ^ 8 % 2 = 1) := Nat.testBit_eq_decide_div_mod_eq
  apply BitVec.eq_of_toNat_eq
  rw [operandsOf, hbit]
  by_cases he : c.cw.toNat / 2 ^ 8 % 2 = 1
  · rw [decide_eq_true he, show (encode (.setEndian true)).cw.toNat = 258 from rfl]; omega
  · rw [decide_eq_false he, show (encode (.setEndian false)).cw.toNat = 2 from rfl]; omega

/-- READ_CSR's word is its opcode and IDX (R94). -/
theorem encode_operandsOf_readCsr (h : c.cw &&& maskValue .readCsr = matchValue .readCsr) :
    (encode (operandsOf .readCsr c)).cw = c.cw := by
  obtain ⟨hop, hreserved⟩ := select_readCsr.1 h
  have := c.cw.isLt
  apply BitVec.eq_of_toNat_eq
  rw [operandsOf, cw_readCsr (bitField_lt _ _ _), bitField_eq]
  omega

/-- A command word that selects an operation is written back as it was. -/
theorem encode_operandsOf (h : c.cw &&& maskValue op = matchValue op) : (encode (operandsOf op c)).cw = c.cw := by
  cases op with
  | setHeader => exact encode_operandsOf_setHeader h
  | setEndian => exact encode_operandsOf_setEndian h
  | readCsr => exact encode_operandsOf_readCsr h
  | buildHeader | fillHdr | fillTx | drainRx | fifoClear | tmrStart | tmrPoll =>
    exact (BitVec.or_zero (x := matchValue _)).trans (h.symm.trans (and_allBits c.cw))

/-- Settles O2: the operands decoded fit their fields, and the fields make up the command word. -/
theorem encodeOfDecode : Obligations.EncodeOfDecode := by
  intro c i h
  obtain ⟨op, hsel, rfl⟩ := select_of_decode h
  exact ⟨operandsOf_wf op c, encode_operandsOf (selectOp_eq_some.1 hsel)⟩

/-! ### Words that select no row (R98, R99) -/

/-- A row of the table is known by its operation (R97). -/
theorem row_eq_of_op {r r' : Row} (hr : r ∈ opcodeRows) (hr' : r' ∈ opcodeRows) (h : r.op = r'.op) : r = r' := by
  obtain ⟨hmask, hvalue⟩ := row_of_mem r hr
  obtain ⟨hmask', hvalue'⟩ := row_of_mem r' hr'
  cases r; cases r'; simp_all

/-- A row of the table selects a word exactly when its operation does. -/
theorem selects_iff {r : Row} (hr : r ∈ opcodeRows) : r.selects cw = true ↔ cw &&& maskValue r.op = matchValue r.op := by
  obtain ⟨hmask, hvalue⟩ := row_of_mem r hr
  rw [Row.selects, beq_iff_eq, hmask, hvalue]

/-- Settles O3: the rows' match values differ in the opcode byte, which every mask covers. -/
theorem oneRowAtMostSelects : Obligations.OneRowAtMostSelects := by
  refine ⟨fun cw r r' hr hr' h h' => ?_, fun c h => selectOp_eq_none.1 ?_⟩
  · exact row_eq_of_op hr hr' (op_unique ((selects_iff hr).1 h) ((selects_iff hr').1 h'))
  · rw [selectOp, Option.map_eq_none_iff, List.find?_eq_none]
    exact fun r hr => by simp [h r hr]

/-- A row whose mask covers the whole word is selected by its match value alone. -/
theorem select_of_toNat_eq (hmask : maskValue op = 0xFFFFFFFF) (h : cw.toNat = (matchValue op).toNat) :
    cw &&& maskValue op = matchValue op := by
  rw [hmask, and_allBits, BitVec.eq_of_toNat_eq h]

/-- The command words that select a row, by opcode and reserved bits (R97). -/
theorem exists_select_iff :
    (∃ op, cw &&& maskValue op = matchValue op) ↔
      (cw.toNat % 2 ^ 8 = 0x01 ∧ cw.toNat / 2 ^ 13 % 2 ^ 3 = 0) ∨ (cw.toNat % 2 ^ 8 = 0x02 ∧ cw.toNat / 2 ^ 9 = 0) ∨
      (0x03 ≤ cw.toNat ∧ cw.toNat ≤ 0x09) ∨ (cw.toNat % 2 ^ 8 = 0x0A ∧ cw.toNat / 2 ^ 24 = 0) := by
  have hlt := cw.isLt
  constructor
  · rintro ⟨op, h⟩
    cases op with
    | setHeader => exact .inl (select_setHeader.1 h)
    | setEndian => have := select_setEndian.1 h; omega
    | readCsr => have := select_readCsr.1 h; omega
    | buildHeader | fillHdr | fillTx | drainRx | fifoClear | tmrStart | tmrPoll =>
      rw [show cw = matchValue _ from (and_allBits cw).symm.trans h]
      decide
  · rintro (h | h | ⟨h3, h9⟩ | h)
    · exact ⟨.setHeader, select_setHeader.2 h⟩
    · exact ⟨.setEndian, select_setEndian.2 (by omega)⟩
    · interval_cases hcw : cw.toNat
      · exact ⟨.buildHeader, select_of_toNat_eq rfl hcw⟩
      · exact ⟨.fillHdr, select_of_toNat_eq rfl hcw⟩
      · exact ⟨.fillTx, select_of_toNat_eq rfl hcw⟩
      · exact ⟨.drainRx, select_of_toNat_eq rfl hcw⟩
      · exact ⟨.fifoClear, select_of_toNat_eq rfl hcw⟩
      · exact ⟨.tmrStart, select_of_toNat_eq rfl hcw⟩
      · exact ⟨.tmrPoll, select_of_toNat_eq rfl hcw⟩
    · exact ⟨.readCsr, select_readCsr.2 (by omega)⟩

/-- The decoder rejects a word exactly when it selects no row. -/
theorem decode_error_iff : (∃ e, decode c = .error e) ↔ ¬ ∃ op, c.cw &&& maskValue op = matchValue op := by
  rw [← selectOp_eq_none, Option.eq_none_iff_forall_ne_some, not_exists]
  exact forall_congr' fun op => not_congr selectOp_eq_some

/-- A rejected word's one outcome (R99). -/
theorem issueCommand_of_decode_error {e : Reject} {s : Machine.State} (hd : decode c = .error e)
    (hb : s.busFault = false) : Machine.issueCommand c s = .next { s with status := .illegalCommand, result := 0 } := by
  rw [Machine.issueCommand, if_neg (Bool.eq_false_iff.1 hb), hd]
  rfl

/-- Settles O4: the words the decoder rejects are those outside the four ranges that select a row. -/
theorem illegalCommandWordOutcome : Obligations.IllegalCommandWordOutcome := by
  refine fun c => ⟨?_, fun s e => issueCommand_of_decode_error⟩
  rw [decode_error_iff, exists_select_iff]
  omega

/-! ### Operand words (R95) -/

/-- Settles O5: each operation's operands, as the decoder takes them from the three words. -/
theorem operandUse : Obligations.OperandUse := by
  intro cw a b a' b'
  have decoded (x y : Word) {op : Op} (h : selectOp cw = some op) :
      decode ⟨cw, x, y⟩ = .ok (operandsOf op ⟨cw, x, y⟩) := decode_of_select h
  refine ⟨fun h ha => ?_, fun h => ⟨_, _, _, _, decoded a b h, opaLow_toNat a⟩, decoded a b, decoded a b, decoded a b,
    fun op hop h => ?_⟩
  · have hcmd : a.extractLsb' 0 16 = a'.extractLsb' 0 16 :=
      BitVec.eq_of_toNat_eq (by rw [opaLow_toNat, opaLow_toNat, ha])
    rw [decoded a b h, decoded a' b h, operandsOf, operandsOf, hcmd]
  · rw [decoded a b h, decoded a' b' h]
    fin_cases hop <;> rfl

/-! ### Sample words (95_test_vectors.md) -/

/-- Settles O6: the decoder run on each word. -/
theorem sampleWordsDecode : Obligations.SampleWordsDecode :=
  ⟨rfl, rfl, rfl, rfl, rfl, rfl, rfl, rfl⟩

end Sys2Proof
end

section
/-! PROOF. WAIT_IDLE (30_encoding.md R101): the environment leaves the comparator as it is, a poll of a running wait ends it
or finds the bus still busy, and so does a loop of polls. -/

namespace Sys2Proof.Machine

variable {s t u : State} {gap : List Event} {gaps : List (List Event)}

/-! ### Steps of the environment (60_exceptions.md R265) -/

/-- Only the FIFOs, RX_OVERFLOW and the inputs TICK and BUSY may differ. -/
def environmentFrame (s t : State) : Prop :=
  t = { s with txq := t.txq, rxq := t.rxq, busy := t.busy, tick := t.tick, rxOverflow := t.rxOverflow }

theorem environmentFrame.refl (s : State) : environmentFrame s s := rfl

theorem environmentFrame.trans (h : environmentFrame s t) (h' : environmentFrame t u) : environmentFrame s u :=
  Eq.trans h' (by rw [h])

theorem environmentFrame_receive (e : Entry) (s : State) : environmentFrame s (receive e s) := by
  rcases receive_cases e s with ⟨-, h⟩ | ⟨-, h⟩ <;> rw [h] <;> rfl

/-- An environment agent's step, R266 to R271. -/
theorem environmentStep_frame {e : Event} (he : e.environment = true) (h : agentStep e s = .next t) :
    environmentFrame s t := by
  cases e with
  | command | blockReset | bufWrite => cases he
  | shiftOut =>
    obtain ⟨e, es, -, ⟨-, rfl⟩ | ⟨-, -, rfl⟩⟩ := shiftOut_cases h
    · rfl
    · exact environmentFrame.trans (t := { s with txq := es }) rfl (environmentFrame_receive e _)
  | rxPush w n =>
    obtain ⟨-, -, -, -, rfl⟩ := rxPush_cases h
    exact environmentFrame_receive _ s
  | setBusy | tick => cases h; rfl

theorem environmentRun_frame {es : List Event} (hes : ∀ e ∈ es, e.environment = true) (h : runEvents es s = .next t) :
    environmentFrame s t :=
  runEvents_keeps (P := environmentFrame s) (fun e he _ _ hs hstep => hs.trans (environmentStep_frame (hes e he) hstep))
    (environmentFrame.refl s) h

theorem environmentFrame.tmr_eq (h : environmentFrame s t) : t.tmr = s.tmr := by rw [h]

/-! ### The loop of polls -/

/-- TMR_POLL has ended the wait: the bus is idle, or the time is over (R123). -/
def waitEnded (t : State) : Prop :=
  (t.status = .ok ∧ t.result = 0 ∧ t.tmr.state = .doneOk ∧ t.busy = false) ∨
  (t.status = .timeout ∧ t.result = 0 ∧ t.tmr.state = .doneTimeout ∧ t.busy = true)

/-- TMR_POLL has found the bus busy and the time not over (R123). -/
def waitGoesOn (t : State) : Prop :=
  t.status = .ok ∧ t.result = 1 ∧ t.tmr.state = .running ∧ t.busy = true

theorem tmrPoll_of_running (hrun : s.tmr.state = .running) (h : exec .tmrPoll s = .next t) :
    waitEnded t ∨ waitGoesOn t := by
  rcases tmrPoll_cases h with
    ⟨hst, -⟩ | ⟨hst, -⟩ | ⟨hst, -⟩ | ⟨-, hb, rfl⟩ | ⟨-, hb, -, rfl⟩ | ⟨-, hb, -, rfl⟩ | ⟨-, hb, -, -, -, rfl⟩
  · simp [hst] at hrun
  · simp [hst] at hrun
  · simp [hst] at hrun
  · exact .inl (.inl ⟨rfl, rfl, rfl, hb⟩)
  · exact .inl (.inr ⟨rfl, rfl, rfl, hb⟩)
  · exact .inr ⟨rfl, rfl, hrun, hb⟩
  · exact .inr ⟨rfl, rfl, hrun, hb⟩

/-- A pass from a running wait ends the wait, or goes on from a wait still running. -/
theorem pollPass_of_running {again : State → Host.Outcome State Fault Refusal}
    (hgap : ∀ e ∈ gap, e.environment = true) (hrun : s.tmr.state = .running) (h : pollPass gap s again = .next t) :
    waitEnded t ∨ ∃ v, waitGoesOn v ∧ again v = .next t := by
  obtain ⟨u, v, hu, -, hv, hcase⟩ := pollPass_cases h
  have hpoll := tmrPoll_of_running (s := u) ((environmentRun_frame hgap hu).tmr_eq ▸ hrun) hv
  rcases hcase with ⟨hstop, rfl⟩ | ⟨hok, hresult, hagain⟩
  · refine .inl (hpoll.resolve_right fun ⟨hok, hresult, _⟩ => ?_)
    rcases hstop with hne | hzero
    · exact hne hok
    · exact absurd (hresult.symm.trans hzero) (by decide)
  · refine .inr ⟨v, hpoll.resolve_left ?_, hagain⟩
    rintro (⟨-, hzero, -⟩ | ⟨-, hzero, -⟩) <;> exact hresult hzero

/-- The loop ends the wait, or has used up its passes with the wait still running (log 16). -/
theorem pollLoop_of_running (hgaps : ∀ g ∈ gap :: gaps, ∀ e ∈ g, e.environment = true)
    (hrun : s.tmr.state = .running) (h : pollLoop gap gaps s = .next t) : waitEnded t ∨ waitGoesOn t := by
  induction gaps generalizing gap s with
  | nil =>
    rcases pollPass_of_running (hgaps gap (by simp)) hrun h with hended | ⟨v, hon, hv⟩
    · exact .inl hended
    · cases hv; exact .inr hon
  | cons gap' gaps ih =>
    rcases pollPass_of_running (hgaps gap (by simp)) hrun h with hended | ⟨v, ⟨-, -, hrun', -⟩, hv⟩
    · exact .inl hended
    · exact ih (fun g hg => hgaps g (by simp [hg])) hrun' hv

/-- Settles O36: TMR_START refuses or starts a wait, and the loop polls it. -/
theorem waitIdleOutcome : Obligations.WaitIdleOutcome := by
  intro T c s u gap gaps hT hc hgaps h
  have hwf : (Instr.tmrStart T c).wf = true := by
    rw [Instr.wf, Bool.and_eq_true, decide_eq_true_eq, decide_eq_true_eq]
    exact ⟨hT, hc⟩
  obtain ⟨s₁, hstart, h⟩ := andThen_cases h
  obtain ⟨-, hstart⟩ := issue_cases (decodeOfEncode _ hwf) hstart
  rcases tmrStart_cases hstart with ⟨-, -, -, rfl⟩ | ⟨-, rfl⟩
  · rcases pollLoop_of_running hgaps rfl h with (hidle | htimeout) | hon
    · exact .inr (.inl hidle)
    · exact .inr (.inr (.inl htimeout))
    · exact .inr (.inr (.inr hon))
  · cases h
    exact .inl ⟨rfl, rfl, rfl⟩

end Sys2Proof.Machine
end

section
/-! PROOF. The bytes of the header words FILL_HDR pushes (42_framing.md R154, R156, R159): the byte-order step and the byte
order in which the words are unpacked cancel, so the entries carry the natural layout. -/

namespace Sys2Proof.Machine

variable {be : Bool} {lay g : List Byte} {b : Built} {a k l n : Nat}

/-! ### Unpacking a header word -/

/-- The lanes of a header word are its group's bytes (R69). -/
theorem lanes_hdrword (hg : g.length = 4) (hk : k ≤ 4) : (List.range k).map (lane (hdrword g)) = g.take k := by
  apply List.ext_getElem?
  intro i
  by_cases hi : i < k
  · rw [List.getElem?_take_of_lt hi, getElem?_eq_lane_packLow hg.le (by omega), List.getElem?_map,
      List.getElem?_range hi, Option.map_some]
    rfl
  · rw [List.getElem?_eq_none (by simpa using hi), List.getElem?_eq_none (by simp; omega)]

/-- Unpacked big-endian, the bytes of a header word come out reversed. -/
theorem unpack_hdrword (be : Bool) (hg : g.length = 4) (hk : k ≤ 4) :
    unpack be (hdrword g) k = if be then (g.take k).reverse else g.take k := by
  simp only [unpack, lanes_hdrword hg hk]

/-! ### The header in HDR_BUF -/

/-- HDR_BUF holds the layout `lay` after the byte-order step, and HDR_RAW the length it was laid out for (R155). -/
structure HoldsHeader (be : Bool) (lay : List Byte) (b : Built) : Prop where
  length : lay.length = headerPadded b.raw.toNat
  bytes  : ∀ a, a < lay.length → some (Memory.read b.buf a) = (order be lay b.raw.toNat)[a]?

/-- Four bytes of HDR_BUF within the header. -/
theorem HoldsHeader.hdrGroup_eq (h : HoldsHeader be lay b) (ha : a + 4 ≤ lay.length) :
    hdrGroup b a = ((order be lay b.raw.toNat).drop a).take 4 := by
  apply List.ext_getElem?
  intro i
  by_cases hi : i < 4
  · rw [List.getElem?_take_of_lt hi, List.getElem?_drop, ← h.bytes _ (by omega)]
    interval_cases i <;> rfl
  · rw [List.getElem?_eq_none (by simpa [hdrGroup] using hi), List.getElem?_eq_none (by simp; omega)]

/-- In a header of four bytes or more the byte-order step reverses each group (R154). -/
theorem order_true_group (hl : 4 ≤ l) (hmod : lay.length % 4 = 0) (ha : a % 4 = 0) (hlen : a + 4 ≤ lay.length) :
    ((order true lay l).drop a).take 4 = ((lay.drop a).take 4).reverse := by
  obtain ⟨j, rfl⟩ := Nat.dvd_of_mod_eq_zero ha
  have horder : order true lay l = reverseGroups lay := by simp [order, show ¬ l < 4 by omega]
  apply List.ext_getElem?
  intro i
  by_cases hi : i < 4
  · rw [horder, List.getElem?_take_of_lt hi, List.getElem?_drop, reverseGroups_getElem? hmod j hi,
      List.getElem?_reverse (by simp; omega), List.length_take_of_le (by simp; omega),
      List.getElem?_take_of_lt (by omega), List.getElem?_drop, show 4 - 1 - i = 3 - i by omega]
  · rw [List.getElem?_eq_none (by simp; omega), List.getElem?_eq_none (by simp; omega)]

/-- A whole header word carries the layout's bytes at its place. -/
theorem HoldsHeader.unpack_word (h : HoldsHeader be lay b) (hl : 4 ≤ b.raw.toNat) (ha : a % 4 = 0)
    (hlen : a + 4 ≤ lay.length) : unpack be (hdrword (hdrGroup b a)) 4 = (lay.drop a).take 4 := by
  rw [unpack_hdrword be rfl le_rfl, h.hdrGroup_eq hlen, List.take_take, Nat.min_self]
  cases be with
  | false => rfl
  | true =>
    rw [order_true_group hl (h.length ▸ (headerPadded_bounds _).2.2) ha hlen, if_pos rfl, List.reverse_reverse]

/-- The only word of a header shorter than four bytes carries its first HDR_RAW bytes (R157). -/
theorem HoldsHeader.unpack_short (h : HoldsHeader be lay b) (hl : b.raw.toNat < 4) (hlen : 4 ≤ lay.length) :
    unpack be (hdrword (hdrGroup b 0)) b.raw.toNat = lay.take b.raw.toNat := by
  rw [unpack_hdrword be rfl hl.le, h.hdrGroup_eq (by omega), List.take_take, Nat.min_eq_left hl.le, List.drop_zero]
  cases be with
  | false => rfl
  | true =>
    have horder : order true lay b.raw.toNat = (lay.take b.raw.toNat).reverse ++ lay.drop b.raw.toNat := by
      rw [order, if_pos rfl, if_pos hl]
    rw [horder, List.take_left' (by simp; omega), if_pos rfl, List.reverse_reverse]

/-! ### The entries pushed -/

/-- Consecutive groups of four, from `a` on. -/
theorem flatMap_groups (lay : List Byte) (a k : Nat) :
    ((List.range k).flatMap fun j => (lay.drop (a + 4 * j)).take 4) = (lay.drop a).take (4 * k) := by
  induction k with
  | zero => rfl
  | succ k ih =>
    rw [List.range_succ, List.flatMap_append, ih, List.flatMap_singleton, Nat.mul_succ, List.take_add, List.drop_drop]

/-- What `n` bytes' worth of header words carries, for a header of four bytes or more (R159). -/
theorem HoldsHeader.entriesBytes_long (h : HoldsHeader be lay b) (hl : 4 ≤ b.raw.toNat) (hpos : b.pos.toNat % 4 = 0)
    (hn : n % 4 = 0) (hlen : b.pos.toNat + n ≤ lay.length) :
    entriesBytes be (headerEntries b n) = (lay.drop b.pos.toNat).take n := by
  have hcount : headerEntryCount b = 4 := if_neg (by omega)
  have hword (j : Nat) (hj : j ∈ List.range (n / 4)) :
      Entry.bytes be ⟨hdrword (hdrGroup b (b.pos.toNat + 4 * j)), headerEntryCount b⟩ =
        (lay.drop (b.pos.toNat + 4 * j)).take 4 := by
    have := List.mem_range.1 hj
    rw [Entry.bytes, hcount]
    exact h.unpack_word hl (by omega) (by omega)
  rw [entriesBytes, headerEntries, List.flatMap_map, List.flatMap_congr hword, flatMap_groups,
    show 4 * (n / 4) = n by omega]

/-- What the only word of a shorter header carries (R159). -/
theorem HoldsHeader.entriesBytes_short (h : HoldsHeader be lay b) (hl : b.raw.toNat < 4) (hpos : b.pos = 0)
    (hlen : 4 ≤ lay.length) : entriesBytes be (headerEntries b 4) = lay.take b.raw.toNat := by
  have hcount : headerEntryCount b = b.raw.toNat := if_pos hl
  rw [← h.unpack_short hl hlen]
  simp [headerEntries, Entry.bytes, hcount, hpos]

/-- What the words of a whole header carry. -/
theorem HoldsHeader.entriesBytes_whole (h : HoldsHeader be lay b) (hpos : b.pos = 0) :
    entriesBytes be (headerEntries b lay.length) = if b.raw.toNat < 4 then lay.take b.raw.toNat else lay := by
  obtain ⟨hle, hlt, hmod⟩ := headerPadded_bounds b.raw.toNat
  rw [← h.length] at hle hlt hmod
  split
  · rename_i hl
    by_cases h0 : lay.length = 0
    · obtain rfl := List.eq_nil_of_length_eq_zero h0
      simp [headerEntries]
    · rw [show lay.length = 4 by omega]
      exact h.entriesBytes_short hl hpos (by omega)
  · rw [h.entriesBytes_long (by omega) (by simp [hpos]) hmod (by simp [hpos])]
    simp [hpos]

end Sys2Proof.Machine
end

section
/-! PROOF. SEND_HEADER (30_encoding.md R102): BUILD_HEADER refuses or builds a header, and while only the environment acts
beside it every pass of the loop ends with HDR_LEN in RESULT; one undisturbed pass sends a header that fits. -/

namespace Sys2Proof.Machine

variable {s t u : State} {p : Nat}

/-! ### Building -/

/-- BUILD_HEADER is refused while a header is unsent (R155). -/
theorem exec_buildHeader_of_unsent (h : s.built.pos.toNat < s.built.len.toNat) :
    exec .buildHeader s = .next (finish .alreadyBusy 0 s) :=
  if_pos (headerUnsent_iff.2 h)

/-- A header being sent: `p` bytes long, its fields consumed. -/
structure SendsHeader (p : Nat) (s : State) : Prop where
  inv : Invariants s
  hdr : s.hdr = Header.zero
  len : s.built.len.toNat = p

theorem SendsHeader.finish (h : SendsHeader p s) (r : Word) : SendsHeader p (finish .ok r s) where
  inv := h.inv.finish .ok r (by decide)
  hdr := h.hdr
  len := h.len

/-- What an accepted BUILD_HEADER leaves: a header of the padded length, held in HDR_BUF, none of it pushed (R155). -/
theorem buildHeader_of_sent (hinv : Invariants s) (hsent : ¬ s.built.pos.toNat < s.built.len.toNat)
    (h : exec .buildHeader s = .next t) :
    t.status = .ok ∧ SendsHeader (Header.padded s.hdr) t ∧ HoldsHeader s.be (Header.layout s.hdr) t.built ∧
    t.built.raw.toNat = Header.raw s.hdr ∧ t.built.pos = 0 ∧ t.txq = s.txq ∧ t.cfg = s.cfg ∧ t.busFault = s.busFault := by
  have hkept := buildHeader_keeps_invariants hinv h
  obtain ⟨hraw, hlen⟩ := hinv.headerLengths_toNat
  rcases buildHeader_cases h with ⟨-, rfl⟩ | ⟨hunsent, -⟩
  · refine ⟨rfl, ⟨hkept, rfl, hlen⟩, ⟨?_, fun a ha => ?_⟩, hraw, rfl, rfl, rfl, rfl⟩
    · rw [finish_built, hraw]
      exact layout_length ..
    · have ha' : a < (order s.be (Header.layout s.hdr) (Header.raw s.hdr)).length := by rwa [order_length]
      simp only [finish_built, hraw, Memory.read_storeLow, dif_pos ha', List.getElem?_eq_getElem ha']
  · exact absurd hunsent hsent

/-! ### Filling -/

/-- FILL_HDR ends with OK and leaves the header as it is but for HDR_POS (R156). -/
theorem fillHdr_sends (h : SendsHeader p s) (hx : exec .fillHdr s = .next t) : t.status = .ok ∧ SendsHeader p t := by
  have hkept := fillHdr_keeps_invariants h.inv hx
  rcases fillHdr_cases hx with ⟨-, rfl⟩ | ⟨-, rfl⟩ <;> exact ⟨rfl, hkept, h.hdr, h.len⟩

/-- FILL_HDR of a header none of which is pushed and for which TXQ has room (R156, R159). -/
theorem fillHdr_whole {be : Bool} {lay : List Byte} (hsend : SendsHeader p s) (hhold : HoldsHeader be lay s.built)
    (hlay : lay.length = p) (hpos : s.built.pos = 0) (hfits : p ≤ s.txFree) (h : exec .fillHdr s = .next t) :
    t.built.pos = t.built.len ∧ t.built.raw = s.built.raw ∧ t.busFault = s.busFault ∧
    ∃ es, t.txq = s.txq ++ es ∧
      entriesBytes be es = if s.built.raw.toNat < 4 then lay.take s.built.raw.toNat else lay := by
  have hbytes := hhold.entriesBytes_whole hpos
  rcases fillHdr_cases h with ⟨hnone, rfl⟩ | ⟨-, rfl⟩
  · have hempty : lay.length = 0 := by rw [hlay, ← hsend.len, ← hnone, hpos]; rfl
    refine ⟨hnone, rfl, rfl, headerEntries s.built lay.length, ?_, hbytes⟩
    simp [hempty, headerEntries]
  · have hcount : fillHdrCount s = lay.length := by
      rw [fillHdrCount, hsend.len, hpos, hlay]
      exact Nat.min_eq_left hfits
    refine ⟨?_, rfl, rfl, headerEntries s.built lay.length, by rw [← hcount]; rfl, hbytes⟩
    show BitVec.ofNat 14 (s.built.pos.toNat + fillHdrCount s) = s.built.len
    rw [hcount, hpos, hlay, ← hsend.len]
    simp

/-! ### The loop of passes -/

theorem environmentStep_sends {e : Event} (he : e.environment = true) (h : SendsHeader p s)
    (hstep : agentStep e s = .next t) : SendsHeader p t := by
  have hframe := environmentStep_frame he hstep
  have hhdr : t.hdr = s.hdr := by rw [hframe]
  have hbuilt : t.built = s.built := by rw [hframe]
  exact ⟨agentStep_keeps_invariants h.inv hstep, hhdr.trans h.hdr, hbuilt ▸ h.len⟩

theorem environmentRun_sends {es : List Event} (hes : ∀ e ∈ es, e.environment = true) (h : SendsHeader p s)
    (hrun : runEvents es s = .next t) : SendsHeader p t :=
  runEvents_keeps (P := SendsHeader p) (fun e he _ _ hs hstep => environmentStep_sends (hes e he) hs hstep) h hrun

/-- HDR_LEN as READ_CSR gives it (R38). -/
theorem SendsHeader.readLen_toNat (h : SendsHeader p s) : ((s.built.len.setWidth 32 : Word)).toNat = p := by
  rw [BitVec.toNat_setWidth_of_le (by decide), h.len]

/-- A pass reads HDR_LEN last, and ends there or goes on (R102, log 16). -/
theorem headerPass_sends {g : PassGaps} {again : State → Host.Outcome State Fault Refusal}
    (hg : ∀ e ∈ g.events, e.environment = true) (h : SendsHeader p s) (hpass : headerPass g s again = .next t) :
    ∃ v, SendsHeader p v ∧ v.status = .ok ∧ v.result.toNat = p ∧ (t = v ∨ again v = .next t) := by
  simp only [PassGaps.events, List.forall_mem_append] at hg
  obtain ⟨⟨hfill, hpos⟩, hlen⟩ := hg
  obtain ⟨u, v, hu, -, hv, hcase⟩ := headerPass_cases hpass
  obtain ⟨hok, hsends⟩ := fillHdr_sends (environmentRun_sends hfill h hu) hv
  rcases hcase with ⟨hne, -⟩ | ⟨q, l, -, hq, hl, hend⟩
  · exact absurd hok hne
  · have hl' := environmentRun_sends hlen ((environmentRun_sends hpos hsends hq).finish _) hl
    refine ⟨_, hl'.finish _, rfl, hl'.readLen_toNat, ?_⟩
    rcases hend with ⟨-, rfl⟩ | ⟨-, hagain⟩
    · exact .inl rfl
    · exact .inr hagain

/-- However many passes the loop makes, it ends after one (R102, log 16). -/
theorem headerLoop_sends {g : PassGaps} {gs : List PassGaps}
    (hgs : ∀ g' ∈ g :: gs, ∀ e ∈ g'.events, e.environment = true) (h : SendsHeader p s)
    (hloop : headerLoop g gs s = .next t) : SendsHeader p t ∧ t.status = .ok ∧ t.result.toNat = p := by
  induction gs generalizing g s with
  | nil =>
    obtain ⟨v, hsends, hok, hresult, rfl | hv⟩ := headerPass_sends (hgs g (by simp)) h hloop
    · exact ⟨hsends, hok, hresult⟩
    · cases hv; exact ⟨hsends, hok, hresult⟩
  | cons g' gs ih =>
    obtain ⟨v, hsends, hok, hresult, rfl | hv⟩ := headerPass_sends (hgs g (by simp)) h hloop
    · exact ⟨hsends, hok, hresult⟩
    · exact ih (fun g'' hg => hgs g'' (by simp [hg])) hsends hv

/-- A first pass in which no other agent acts and that pushes the whole header is the last (R102). -/
theorem headerLoop_undisturbed (gs : List PassGaps) (hb : s.busFault = false) (hfill : exec .fillHdr s = .next t)
    (hok : t.status = .ok) (hbt : t.busFault = false) (hwhole : t.built.pos = t.built.len) :
    headerLoop ⟨[], [], []⟩ gs s = .next (finish .ok (t.built.len.setWidth 32) t) := by
  have hpass (again : State → Host.Outcome State Fault Refusal) :
      headerPass ⟨[], [], []⟩ s again = .next (finish .ok (t.built.len.setWidth 32) t) := by
    have hpos := issue_of_decode decode_encode_readPos hbt
    have hlen := issue_of_decode (s := finish .ok (t.built.pos.setWidth 32) t) decode_encode_readLen hbt
    rw [exec_readPos, hwhole] at hpos
    rw [exec_readLen, finish_built, finish_finish, hwhole] at hlen
    simp [headerPass, issueAfter, issue_of_decode decode_encode_fillHdr hb, hfill, hok, hpos, hlen]
  cases gs <;> exact hpass _

/-! ### The pseudo-command -/

theorem decode_encode_buildHeader : decode (encode .buildHeader) = .ok .buildHeader := decodeOfEncode _ rfl

theorem sendHeader_of_built {g : PassGaps} {gs : List PassGaps} (hb : s.busFault = false)
    (hbuild : exec .buildHeader s = .next t) (hok : t.status = .ok) : sendHeader g gs s = headerLoop g gs t := by
  rw [sendHeader, issue_of_decode decode_encode_buildHeader hb, hbuild, andThen_next, if_pos hok]

/-- SEND_HEADER is refused while a header is unsent. -/
theorem sendHeader_of_unsent (g : PassGaps) (gs : List PassGaps) (hb : s.busFault = false)
    (hunsent : s.built.pos.toNat < s.built.len.toNat) : sendHeader g gs s = .next (finish .alreadyBusy 0 s) := by
  rw [sendHeader, issue_of_decode decode_encode_buildHeader hb, exec_buildHeader_of_unsent hunsent]
  rfl

/-- Else it builds the header and ends with the last pass made. -/
theorem sendHeader_sends {g : PassGaps} {gs : List PassGaps} (hinv : Invariants s)
    (hsent : ¬ s.built.pos.toNat < s.built.len.toNat) (hgs : ∀ g' ∈ g :: gs, ∀ e ∈ g'.events, e.environment = true)
    (h : sendHeader g gs s = .next t) :
    SendsHeader (Header.padded s.hdr) t ∧ t.status = .ok ∧ t.result.toNat = Header.padded s.hdr := by
  obtain ⟨s₁, hissue, -⟩ := andThen_cases h
  obtain ⟨hb, hbuild⟩ := issue_cases decode_encode_buildHeader hissue
  obtain ⟨hok, hsends, -⟩ := buildHeader_of_sent hinv hsent hbuild
  rw [sendHeader_of_built hb hbuild hok] at h
  exact headerLoop_sends hgs hsends h

/-- A header that fits TXQ is sent by an undisturbed first pass. -/
theorem sendHeader_undisturbed (gs : List PassGaps) (hinv : Invariants s) (hb : s.busFault = false)
    (hsent : ¬ s.built.pos.toNat < s.built.len.toNat) (hfits : Header.padded s.hdr ≤ s.txFree) :
    ∃ (t : State) (es : List Entry), sendHeader ⟨[], [], []⟩ gs s = .next t ∧ t.status = .ok ∧
      t.result.toNat = Header.padded s.hdr ∧ t.built.pos = t.built.len ∧ t.built.raw.toNat = Header.raw s.hdr ∧
      t.txq = s.txq ++ es ∧ entriesBytes s.be es =
        if Header.raw s.hdr < 4 then (Header.layout s.hdr).take (Header.raw s.hdr) else Header.layout s.hdr := by
  obtain ⟨s₁, hbuild⟩ := exec_ne_stop .buildHeader s
  obtain ⟨hok₁, hsends₁, hhold, hraw, hpos, htxq, hcfg, hb₁⟩ := buildHeader_of_sent hinv hsent hbuild
  have hfits₁ : Header.padded s.hdr ≤ s₁.txFree := by rwa [State.txFree, State.txLevel, htxq, hcfg]
  obtain ⟨s₂, hfill⟩ := exec_ne_stop .fillHdr s₁
  obtain ⟨hok₂, hsends₂⟩ := fillHdr_sends hsends₁ hfill
  obtain ⟨hwhole, hraw₂, hb₂, es, htxq₂, hbytes⟩ := fillHdr_whole hsends₁ hhold (layout_length ..) hpos hfits₁ hfill
  rw [hraw] at hbytes
  refine ⟨finish .ok (s₂.built.len.setWidth 32) s₂, es, ?_, rfl, hsends₂.readLen_toNat, hwhole, hraw₂ ▸ hraw,
    htxq ▸ htxq₂, hbytes⟩
  rw [sendHeader_of_built hb hbuild hok₁]
  exact headerLoop_undisturbed gs (hb₁.trans hb) hfill hok₂ (hb₂.trans (hb₁.trans hb)) hwhole

/-- Settles O57: refused by BUILD_HEADER; or the loop sends what it built; or its first pass sends all of it. -/
theorem sendHeaderOutcome : Obligations.SendHeaderOutcome := by
  refine ⟨fun g gs s => sendHeader_of_unsent g gs, fun g gs s u p hinv hsent hp hgs h => ?_,
    fun gs s lay l hinv hb hsent hlay hl hfits => ?_⟩
  · subst hp
    obtain ⟨⟨hkept, hhdr, hlen⟩, hok, hresult⟩ := sendHeader_sends hinv hsent hgs h
    exact ⟨hok, hresult, hlen, hkept.posLe.trans_eq hlen, hhdr⟩
  · subst hlay hl
    exact sendHeader_undisturbed gs hinv hb hsent hfits

end Sys2Proof.Machine
end

section
/-! PROOF. The two commands of the comparator (41_timer.md R120 to R125, R128), an equation per case: what TMR_START writes
or refuses, what TMR_POLL does in each TMR_STATE and mode, and what these and the two control commands leave. -/

namespace Sys2Proof.Machine

variable {s t : State} {T c : Nat}

/-! ### TMR_START (R122) -/

theorem selectOp_tmrStart : selectOp 0x00000008 = some .tmrStart := by decide

/-- The state TMR_START leaves when it accepts its operands (R122). -/
def startWait (T c : Nat) (s : State) : State :=
  finish .ok 0
    { s with tmr := ⟨.running, timerMode s.cfg T c, s.tick, BitVec.ofNat 32 (timerBudget s.cfg T c), 0, s.tick⟩ }

theorem exec_tmrStart_of_accepted (hc : c ≠ 0) (hT : T ≠ 0) (hM : s.cfg.tickReload / c ≠ 0) :
    exec (.tmrStart T c) s = .next (startWait T c s) :=
  if_pos (timerAccepted_iff.2 ⟨hc, hT, hM⟩)

theorem exec_tmrStart_of_refused (h : c = 0 ∨ T = 0 ∨ s.cfg.tickReload / c = 0) :
    exec (.tmrStart T c) s = .next (finish .invalidParam 0 s) :=
  if_neg fun hacc => by
    obtain ⟨hc, hT, hM⟩ := timerAccepted_iff.1 hacc
    rcases h with h | h | h
    · exact hc h
    · exact hT h
    · exact hM h

/-- A TMR_START that ends with OK has accepted its operands. -/
theorem tmrStart_of_ok (h : exec (.tmrStart T c) s = .next t) (hok : t.status = .ok) :
    c ≠ 0 ∧ T ≠ 0 ∧ s.cfg.tickReload / c ≠ 0 ∧ t = startWait T c s := by
  rcases tmrStart_cases h with hstarted | ⟨-, rfl⟩
  · exact hstarted
  · cases hok

/-- A DIRECT budget is T·c, whole (R122). -/
theorem startWait_budget_direct (hcfg : s.cfg.Legal) (hc : c ≠ 0) (h : T < s.cfg.tickReload / c) :
    (startWait T c s).tmr.budget.toNat = T * c := by
  obtain ⟨-, -, -, -, hR, -⟩ := hcfg
  have hlt := direct_budget_lt hc h
  show (BitVec.ofNat 32 (timerBudget s.cfg T c)).toNat = T * c
  rw [timerBudget_direct h, operand_toNat (by omega)]

/-- A CROSSING budget is ceil(T / M), whole (R122). -/
theorem startWait_budget_crossing (hT : T < 2 ^ 32) (hT0 : T ≠ 0) (hM : s.cfg.tickReload / c ≠ 0)
    (h : s.cfg.tickReload / c ≤ T) :
    (startWait T c s).tmr.budget.toNat = ceilDiv T (s.cfg.tickReload / c) := by
  show (BitVec.ofNat 32 (timerBudget s.cfg T c)).toNat = _
  rw [timerBudget_crossing h, operand_toNat (crossing_budget_lt hT hT0 hM)]

/-! ### TMR_POLL (R123 to R125) -/

theorem selectOp_tmrPoll : selectOp 0x00000009 = some .tmrPoll := by decide

theorem exec_tmrPoll_of_idle (h : s.tmr.state = .idle) : exec .tmrPoll s = .next (finish .illegalCommand 0 s) := by
  simp [exec, execTmrPoll, h]

theorem exec_tmrPoll_of_doneOk (h : s.tmr.state = .doneOk) : exec .tmrPoll s = .next (finish .ok 0 s) := by
  simp [exec, execTmrPoll, h]

theorem exec_tmrPoll_of_doneTimeout (h : s.tmr.state = .doneTimeout) :
    exec .tmrPoll s = .next (finish .timeout 0 s) := by
  simp [exec, execTmrPoll, h]

theorem exec_tmrPoll_of_not_busy (hrun : s.tmr.state = .running) (hbusy : s.busy = false) :
    exec .tmrPoll s = .next (finish .ok 0 { s with tmr := { s.tmr with state := .doneOk } }) := by
  simp [exec, execTmrPoll, hrun, hbusy]

/-- The outcome of a poll that finds the bus busy and the time over. -/
def pollExpired (s : State) : State :=
  finish .timeout 0 { s with tmr := { s.tmr with prevTick := s.tick, state := .doneTimeout } }

/-- The outcome of a poll that finds the bus busy and the time not over, with `k` crossings counted so far. -/
def pollOn (k : Word) (s : State) : State :=
  finish .ok 1 { s with tmr := { s.tmr with prevTick := s.tick, cross := k } }

section Busy
variable (hrun : s.tmr.state = .running) (hbusy : s.busy = true)
include hrun hbusy

theorem exec_tmrPoll_direct (hmode : s.tmr.mode = .direct) :
    exec .tmrPoll s = .next (if directExpired s s.tick.toNat then pollExpired s else pollOn s.tmr.cross s) := by
  have hpoll : exec .tmrPoll s = .next (pollDirect s) := by simp [exec, execTmrPoll, hrun, hbusy, hmode]
  exact hpoll

theorem exec_tmrPoll_crossing (hmode : s.tmr.mode = .crossing) : exec .tmrPoll s = .next (pollCrossing s) := by
  simp [exec, execTmrPoll, hrun, hbusy, hmode]

theorem exec_tmrPoll_uncrossed (hmode : s.tmr.mode = .crossing)
    (h : ¬ crossed s.cfg s.tmr.prevTick.toNat s.tick.toNat = true) :
    exec .tmrPoll s = .next (pollOn s.tmr.cross s) := by
  rw [exec_tmrPoll_crossing hrun hbusy hmode]
  exact congrArg Host.Outcome.next (if_neg h)

theorem exec_tmrPoll_crossed (hmode : s.tmr.mode = .crossing)
    (h : crossed s.cfg s.tmr.prevTick.toNat s.tick.toNat = true) :
    exec .tmrPoll s = .next (if s.tmr.cross = s.tmr.budget then pollExpired s else pollOn (s.tmr.cross + 1) s) := by
  rw [exec_tmrPoll_crossing hrun hbusy hmode]
  exact congrArg Host.Outcome.next (if_pos h)

end Busy

/-- Below the budget there is room to count one more crossing. -/
theorem Invariants.cross_succ_toNat (h : Invariants s) (hne : s.tmr.cross ≠ s.tmr.budget) :
    (s.tmr.cross + 1).toNat = s.tmr.cross.toNat + 1 := by
  have hlt : s.tmr.cross.toNat < s.tmr.budget.toNat :=
    lt_of_le_of_ne h.cross fun he => hne (BitVec.eq_of_toNat_eq he)
  have hbudget := s.tmr.budget.isLt
  rw [BitVec.toNat_add_of_lt (by simp; omega)]
  rfl

/-! ### What the commands leave -/

/-- Only the comparator, STATUS and RESULT may differ. -/
def timerFrame (s t : State) : Prop := t = { s with tmr := t.tmr, status := t.status, result := t.result }

theorem tmrStart_frame (h : exec (.tmrStart T c) s = .next t) : timerFrame s t := by
  rcases tmrStart_cases h with ⟨-, -, -, rfl⟩ | ⟨-, rfl⟩ <;> rfl

theorem tmrPoll_frame (h : exec .tmrPoll s = .next t) : timerFrame s t := by
  rcases tmrPoll_cases h with
    ⟨-, rfl⟩ | ⟨-, rfl⟩ | ⟨-, rfl⟩ | ⟨-, -, rfl⟩ | ⟨-, -, -, rfl⟩ | ⟨-, -, -, rfl⟩ | ⟨-, -, -, -, -, rfl⟩ <;> rfl

/-- Once a wait has its outcome a poll leaves the comparator (R123). -/
theorem tmrPoll_tmr_of_done (hdone : s.tmr.state = .doneOk ∨ s.tmr.state = .doneTimeout)
    (h : exec .tmrPoll s = .next t) : t.tmr = s.tmr := by
  rcases hdone with hok | htimeout
  · rw [exec_tmrPoll_of_doneOk hok] at h; cases h; rfl
  · rw [exec_tmrPoll_of_doneTimeout htimeout] at h; cases h; rfl

/-! ### The statements -/

/-- Settles O30: the operands are refused, or the strategy fixes which budget is stored, and either fits its register. -/
theorem tmrStartResult : Obligations.TmrStartResult := by
  refine ⟨fun a b => decode_of_select (c := ⟨_, a, b⟩) selectOp_tmrStart, fun T c s => exec_tmrStart_of_refused,
    fun T c s hinv hT hc hT0 hM => ⟨_, _, exec_tmrStart_of_accepted hc hT0 hM, fun hlt => ?_, fun hle => ?_⟩⟩
  · exact ⟨timerMode_direct_iff.2 hlt, startWait_budget_direct hinv.cfg hc hlt, direct_budget_lt hc hlt⟩
  · obtain ⟨hcover, hleast, hpos⟩ := ceilDiv_spec (Nat.pos_of_ne_zero hM) (Nat.pos_of_ne_zero hT0)
    rw [← startWait_budget_crossing hT hT0 hM hle] at hcover hleast hpos
    exact ⟨timerMode_crossing_iff.2 hle, hpos, hcover, hleast⟩

/-- A poll of a busy DIRECT wait, by the elapsed ticks as R124 writes them. -/
theorem tmrPoll_direct_result (hinv : Invariants s) (hrun : s.tmr.state = .running) (hbusy : s.busy = true)
    (hmode : s.tmr.mode = .direct) :
    ((s.tmr.budget.toNat : Int) < ((s.tick.toNat : Int) - s.tmr.startTick.toNat) % s.cfg.tickReload →
      exec .tmrPoll s = .next (pollExpired s)) ∧
    (((s.tick.toNat : Int) - s.tmr.startTick.toNat) % s.cfg.tickReload ≤ s.tmr.budget.toNat →
      exec .tmrPoll s = .next (pollOn s.tmr.cross s)) := by
  rw [← tickDelta_eq (Nat.zero_lt_of_lt hinv.tick), Nat.cast_lt, Nat.cast_le, exec_tmrPoll_direct hrun hbusy hmode]
  refine ⟨fun hlt => ?_, fun hle => ?_⟩
  · rw [if_pos (directExpired_iff.2 hlt)]
  · rw [if_neg (mt directExpired_iff.1 hle.not_gt)]

/-- A poll of a busy CROSSING wait (R125). -/
theorem tmrPoll_crossing_result (hinv : Invariants s) (hrun : s.tmr.state = .running) (hbusy : s.busy = true)
    (hmode : s.tmr.mode = .crossing) :
    (¬ (s.tmr.prevTick.toNat < s.cfg.tickReload / 2 ∧ s.cfg.tickReload / 2 ≤ s.tick.toNat) →
      exec .tmrPoll s = .next (pollOn s.tmr.cross s)) ∧
    (s.tmr.prevTick.toNat < s.cfg.tickReload / 2 → s.cfg.tickReload / 2 ≤ s.tick.toNat →
      (s.tmr.cross = s.tmr.budget → exec .tmrPoll s = .next (pollExpired s)) ∧
      (s.tmr.cross ≠ s.tmr.budget →
        ∃ k : Word, k.toNat = s.tmr.cross.toNat + 1 ∧ exec .tmrPoll s = .next (pollOn k s))) := by
  refine ⟨fun hnot => exec_tmrPoll_uncrossed hrun hbusy hmode (mt crossed_iff.1 hnot), fun hp ht => ?_⟩
  rw [exec_tmrPoll_crossed hrun hbusy hmode (crossed_iff.2 ⟨hp, ht⟩)]
  refine ⟨fun he => by rw [if_pos he], fun hne => ⟨_, hinv.cross_succ_toNat hne, by rw [if_neg hne]⟩⟩

/-- Settles O31: one case per TMR_STATE, and of a running wait per BUSY and mode. -/
theorem tmrPollResult : Obligations.TmrPollResult :=
  ⟨fun a b => decode_of_select (c := ⟨_, a, b⟩) selectOp_tmrPoll, fun _ => exec_tmrPoll_of_idle,
    fun _ => exec_tmrPoll_of_doneOk, fun _ => exec_tmrPoll_of_doneTimeout, fun _ => exec_tmrPoll_of_not_busy,
    fun _ => tmrPoll_direct_result, fun _ => tmrPoll_crossing_result⟩

/-- Settles O32: no step but a TMR_POLL could touch the comparator, and a TMR_POLL leaves an outcome as it is. -/
theorem waitOutcomeSticky : Obligations.WaitOutcomeSticky := by
  intro es s t hdone hes hrun
  have htmr : t.tmr = s.tmr := by
    refine runEvents_keeps (P := fun u => u.tmr = s.tmr) (fun e he u v hu hstep => ?_) rfl hrun
    obtain ⟨-, hsame | hpoll, -⟩ := agentStep_timer hstep (hes e he)
    · exact hsame.trans hu
    · exact (tmrPoll_tmr_of_done (hu ▸ hdone) hpoll).trans hu
  refine ⟨htmr, ?_⟩
  rcases hdone with hst | hst <;> rw [hst]
  · exact exec_tmrPoll_of_doneOk (htmr ▸ hst)
  · exact exec_tmrPoll_of_doneTimeout (htmr ▸ hst)

theorem tmrPoll_or_tmrStart_frame {i : Instr} (hi : i = .tmrPoll ∨ ∃ a b, i = .tmrStart a b) (h : exec i s = .next t) :
    timerFrame s t := by
  rcases hi with rfl | ⟨a, b, rfl⟩
  · exact tmrPoll_frame h
  · exact tmrStart_frame h

/-- Settles O56: each command's cases write only the fields left open. -/
theorem comparatorAndControlFrame : Obligations.ComparatorAndControlFrame := by
  refine ⟨fun i s t hi h => ?_, fun e s t h => ?_, fun idx s t h => ?_⟩
  · have hfixed : i = .tmrPoll →
        t.tmr.startTick = s.tmr.startTick ∧ t.tmr.budget = s.tmr.budget ∧ t.tmr.mode = s.tmr.mode := by
      rintro rfl
      obtain ⟨-, -, -, hmode, hbudget, hstart⟩ := tmrPoll_leaves h
      exact ⟨hstart, hbudget, hmode⟩
    have hframe := tmrPoll_or_tmrStart_frame hi h
    refine ⟨?_, exec_sameSurroundings h, ?_, ?_, ?_, ?_, ?_, ?_, ?_, ?_, hfixed⟩
    · rw [hframe]; exact fun _ => rfl
    all_goals rw [hframe]
  · refine ⟨?_, exec_sameSurroundings h, ?_⟩ <;>
      rcases setEndian_cases h with ⟨-, rfl⟩ | ⟨-, rfl⟩
    · exact fun _ => rfl
    · exact fun _ => rfl
    · exact ⟨rfl, rfl, rfl, rfl, rfl, rfl, rfl, rfl⟩
    · exact ⟨rfl, rfl, rfl, rfl, rfl, rfl, rfl, rfl⟩
  · rcases readCsr_cases h with ⟨-, rfl⟩ | ⟨-, -, -, rfl⟩ | ⟨-, -, -, rfl⟩ <;> rfl

end Sys2Proof.Machine
end

section
/-! PROOF. A wait over a run (41_timer.md R126, R127): TICK after a run with so many Tick Counter steps, and how many
reload-midpoints lie behind it, which bounds the crossings that polls have counted. -/

namespace Sys2Proof.Machine

variable {s t u s₁ : State} {T c n : Nat}

/-! ### Counting ticks -/

theorem tickCount_append (es fs : List Event) : tickCount (es ++ fs) = tickCount es + tickCount fs :=
  List.count_append

theorem tickCount_cons (e : Event) (es : List Event) : tickCount (e :: es) = tickCount [e] + tickCount es :=
  tickCount_append [e] es

theorem tickCount_singleton_of_ne {e : Event} (h : e ≠ .tick) : tickCount [e] = 0 :=
  List.count_eq_zero.2 (by simpa using h.symm)

/-- What every step of a run keeps, given the ticks so far, holds after the run. -/
theorem runEvents_counts {P : Nat → State → Prop} {es : List Event}
    (hstep : ∀ e ∈ es, ∀ n s t, P n s → agentStep e s = .next t → P (n + tickCount [e]) t)
    (hs : P n s) (h : runEvents es s = .next t) : P (n + tickCount es) t := by
  induction es generalizing n s with
  | nil => cases h; exact hs
  | cons e es ih =>
    obtain ⟨u, hu, h⟩ := andThen_cases h
    rw [tickCount_cons, ← Nat.add_assoc]
    exact ih (fun e he => hstep e (by simp [he])) (hstep e (by simp) n s u hs hu) h

/-- `t` follows `s₁` by `n` ticks, with no TMR_START and no reset between them. -/
structure TicksAfter (s₁ : State) (n : Nat) (t : State) : Prop where
  inv       : Invariants t
  cfg       : t.cfg = s₁.cfg
  tick      : t.tick.toNat = (s₁.tick.toNat + n) % s₁.cfg.tickReload
  mode      : t.tmr.mode = s₁.tmr.mode
  budget    : t.tmr.budget = s₁.tmr.budget
  startTick : t.tmr.startTick = s₁.tmr.startTick

theorem TicksAfter.refl (h : Invariants s₁) : TicksAfter s₁ 0 s₁ :=
  ⟨h, rfl, (Nat.mod_eq_of_lt h.tick).symm, rfl, rfl, rfl⟩

theorem Invariants.tickStep_toNat (h : Invariants s) :
    (Sys2Proof.Machine.tickStep s).tick.toNat = (s.tick.toNat + 1) % s.cfg.tickReload := by
  obtain ⟨-, -, -, -, hR, -⟩ := h.cfg
  have hlt := Nat.mod_lt (s.tick.toNat + 1) (Nat.zero_lt_of_lt h.tick)
  exact operand_toNat (hlt.trans_le hR)

theorem TicksAfter.poll (h : TicksAfter s₁ n s) (hx : exec .tmrPoll s = .next t) : TicksAfter s₁ n t := by
  obtain ⟨htick, -, hcfg, hmode, hbudget, hstart⟩ := tmrPoll_leaves hx
  exact ⟨tmrPoll_keeps_invariants h.inv hx, hcfg.trans h.cfg, htick ▸ h.tick, hmode.trans h.mode,
    hbudget.trans h.budget, hstart.trans h.startTick⟩

/-- TICK advances with the Tick Counter's steps and no other (R270, R265). -/
theorem TicksAfter.tick_step {e : Event} (h : TicksAfter s₁ n s) (hr : e.restartsTimer = false)
    (hstep : agentStep e s = .next t) :
    t.tick.toNat = (s₁.tick.toNat + (n + tickCount [e])) % s₁.cfg.tickReload := by
  obtain ⟨-, -, htick, hother⟩ := agentStep_timer hstep hr
  by_cases he : e = .tick
  · subst he
    rw [htick rfl, h.inv.tickStep_toNat, h.tick, h.cfg, Nat.mod_add_mod]
    rfl
  · rw [hother he, tickCount_singleton_of_ne he, h.tick, Nat.add_zero]

theorem TicksAfter.step {e : Event} (h : TicksAfter s₁ n s) (hr : e.restartsTimer = false)
    (hstep : agentStep e s = .next t) : TicksAfter s₁ (n + tickCount [e]) t := by
  obtain ⟨hcfg, hcase, -⟩ := agentStep_timer hstep hr
  have hinv := agentStep_keeps_invariants h.inv hstep
  have htick := h.tick_step hr hstep
  rcases hcase with htmr | hpoll
  · exact ⟨hinv, hcfg.trans h.cfg, htick, htmr ▸ h.mode, htmr ▸ h.budget, htmr ▸ h.startTick⟩
  · have hp := h.poll hpoll
    exact ⟨hinv, hp.cfg, htick, hp.mode, hp.budget, hp.startTick⟩

theorem TicksAfter.run {es : List Event} (h : TicksAfter s₁ n s) (hes : ∀ e ∈ es, e.restartsTimer = false)
    (hrun : runEvents es s = .next t) : TicksAfter s₁ (n + tickCount es) t :=
  runEvents_counts (P := TicksAfter s₁) (fun e he _ _ _ hs hstep => hs.step (hes e he) hstep) h hrun

/-- With TICK sampled at the start, the budget is exceeded by the ticks since then modulo R (R124). -/
theorem TicksAfter.directExpired_iff (h : TicksAfter s₁ n t) (hstart : s₁.tmr.startTick = s₁.tick) :
    directExpired t t.tick.toNat = true ↔ s₁.tmr.budget.toNat < n % s₁.cfg.tickReload := by
  rw [Sys2Proof.Machine.directExpired_iff, h.budget, h.startTick, h.cfg, h.tick, hstart, tickDelta_after]

/-! ### DIRECT (R126) -/

/-- Settles O33: the ticks since the start sample, modulo R, are compared with T·c, which is below R. -/
theorem directTimesOutExactly : Obligations.DirectTimesOutExactly := by
  intro T c s s₁ s₂ es hinv hstart hok hmode hes hrun hrunning hbusy
  have hinv₁ := tmrStart_keeps_invariants hinv hstart
  obtain ⟨hc, -, -, rfl⟩ := tmrStart_of_ok hstart hok
  have hafter := (TicksAfter.refl hinv₁).run hes hrun
  have hbudget := startWait_budget_direct hinv.cfg hc (timerMode_direct_iff.1 hmode)
  have hexp : directExpired s₂ s₂.tick.toNat = true ↔ T * c < tickCount es % s.cfg.tickReload := by
    rw [hafter.directExpired_iff rfl, hbudget, Nat.zero_add]
    rfl
  have hlt : tickCount es % s.cfg.tickReload < s.cfg.tickReload := Nat.mod_lt _ (Nat.zero_lt_of_lt hinv.tick)
  have hle : tickCount es % s.cfg.tickReload ≤ tickCount es := Nat.mod_le _ _
  refine ⟨_, exec_tmrPoll_direct hrunning hbusy (hafter.mode.trans hmode), ?_⟩
  by_cases h : T * c < tickCount es % s.cfg.tickReload
  · rw [if_pos (hexp.2 h)]
    refine ⟨⟨fun _ => h, fun _ => rfl⟩, fun hne => absurd rfl hne, fun _ => h.trans_le hle, fun _ _ => rfl,
      fun hc1 hT1 => ?_⟩
    rw [hc1, Nat.mul_one] at h
    omega
  · rw [if_neg (mt hexp.1 h)]
    refine ⟨⟨(nomatch ·), (absurd · h)⟩, fun _ => ⟨rfl, rfl⟩, (nomatch ·), fun hover hE => ?_,
      fun _ _ => (nomatch ·)⟩
    rw [Nat.mod_eq_of_lt hE] at h
    exact absurd hover h

/-! ### Reload-midpoints -/

/-- How many times a counter that has made `a` steps from 0 and wraps at R has come to R div 2. -/
def midpoints (R a : Nat) : Nat := a / R + if R / 2 ≤ a % R then 1 else 0

theorem midpoints_mono {R a b : Nat} (h : a ≤ b) : midpoints R a ≤ midpoints R b := by
  have hdiv : a / R ≤ b / R := Nat.div_le_div_right h
  unfold midpoints
  rcases hdiv.lt_or_eq with hlt | heq
  · split <;> omega
  · have ha := Nat.div_add_mod a R
    have hb := Nat.div_add_mod b R
    rw [heq] at ha
    rw [heq]
    split <;> split <;> omega

/-- Each turn of R steps passes one. -/
theorem midpoints_add_mul {R : Nat} (hR : 0 < R) (a k : Nat) : midpoints R (a + k * R) = midpoints R a + k := by
  unfold midpoints
  rw [Nat.add_mul_div_right _ _ hR, Nat.add_mul_mod_self_right]
  omega

/-- A crossing between two samples passes at least one (R127). -/
theorem midpoints_of_crossed {cfg : Config} {a b : Nat} (hab : a ≤ b)
    (h : crossed cfg (a % cfg.tickReload) (b % cfg.tickReload) = true) :
    midpoints cfg.tickReload a + 1 ≤ midpoints cfg.tickReload b := by
  obtain ⟨ha, hb⟩ := crossed_iff.1 h
  have hdiv : a / cfg.tickReload ≤ b / cfg.tickReload := Nat.div_le_div_right hab
  rw [midpoints, midpoints, if_neg ha.not_ge, if_pos hb]
  omega

/-- Samples fewer than min(mid, R - mid) ticks apart show every midpoint passed as a crossing (R127). -/
theorem midpoints_of_near {cfg : Config} {d : Nat} (a : Nat)
    (hd : d < min (cfg.tickReload / 2) (cfg.tickReload - cfg.tickReload / 2)) :
    midpoints cfg.tickReload (a + d) = midpoints cfg.tickReload a +
      if crossed cfg (a % cfg.tickReload) ((a + d) % cfg.tickReload) then 1 else 0 := by
  simp only [midpoints, crossed_iff]
  generalize cfg.tickReload = R at hd ⊢
  have hR : 0 < R := by omega
  have hr := Nat.mod_lt a hR
  have ha := Nat.div_add_mod a R
  by_cases hwrap : a % R + d < R
  · obtain ⟨hq, hm⟩ := (Nat.div_mod_unique hR).2 ⟨(show a % R + d + R * (a / R) = a + d by omega), hwrap⟩
    rw [hq, hm]
    split_ifs <;> omega
  · obtain ⟨hq, hm⟩ := (Nat.div_mod_unique hR).2
      ⟨(show a % R + d - R + R * (a / R + 1) = a + d by rw [Nat.mul_succ]; omega), (by omega : a % R + d - R < R)⟩
    rw [hq, hm]
    split_ifs <;> omega

/-! ### CROSSING never early (R127) -/

/-- What a poll does to the previous sample and the count: nothing, or it samples TICK and counts a crossing it finds. -/
theorem tmrPoll_sample (h : exec .tmrPoll s = .next t) :
    (t.tmr.prevTick = s.tmr.prevTick ∧ t.tmr.cross = s.tmr.cross) ∨
    (t.tmr.prevTick = s.tick ∧ (t.tmr.cross = s.tmr.cross ∨
      (crossed s.cfg s.tmr.prevTick.toNat s.tick.toNat = true ∧ t.tmr.cross = s.tmr.cross + 1))) := by
  rcases tmrPoll_cases h with
    ⟨-, rfl⟩ | ⟨-, rfl⟩ | ⟨-, rfl⟩ | ⟨-, -, rfl⟩ | ⟨-, -, -, rfl⟩ | ⟨-, -, -, rfl⟩ | ⟨-, -, -, hcrossed, -, rfl⟩
  · exact .inl ⟨rfl, rfl⟩
  · exact .inl ⟨rfl, rfl⟩
  · exact .inl ⟨rfl, rfl⟩
  · exact .inl ⟨rfl, rfl⟩
  · exact .inr ⟨rfl, .inl rfl⟩
  · exact .inr ⟨rfl, .inl rfl⟩
  · exact .inr ⟨rfl, .inr ⟨hcrossed, rfl⟩⟩

/-- A CROSSING wait times out at a crossing that finds the count at the budget (R125). -/
theorem crossed_of_timeout (hrun : s.tmr.state = .running) (hmode : s.tmr.mode = .crossing)
    (h : exec .tmrPoll s = .next t) (hst : t.status = .timeout) :
    crossed s.cfg s.tmr.prevTick.toNat s.tick.toNat = true ∧ s.tmr.cross = s.tmr.budget := by
  rcases tmrPoll_cases h with
    ⟨hs, -⟩ | ⟨hs, -⟩ | ⟨hs, -⟩ | ⟨-, -, rfl⟩ | ⟨-, -, hcase, -⟩ | ⟨-, -, -, rfl⟩ | ⟨-, -, -, -, -, rfl⟩
  · simp [hs] at hrun
  · simp [hs] at hrun
  · simp [hs] at hrun
  · cases hst
  · rcases hcase with ⟨hdirect, -⟩ | ⟨-, hcrossed⟩
    · simp [hdirect] at hmode
    · exact hcrossed
  · cases hst
  · cases hst

/-- The previous sample was taken after `a` steps of the Tick Counter, counted from where TICK was 0, and no more
crossings are counted than midpoints were passed by then. -/
structure CrossingsPassed (s₁ : State) (n a : Nat) (t : State) : Prop where
  sampled : a ≤ s₁.tick.toNat + n
  prev    : t.tmr.prevTick.toNat = a % s₁.cfg.tickReload
  counted : midpoints s₁.cfg.tickReload s₁.tick.toNat + t.tmr.cross.toNat ≤ midpoints s₁.cfg.tickReload a

/-- A crossing found at TICK lies between the previous sample and now. -/
theorem CrossingsPassed.of_crossed {a : Nat} (h : CrossingsPassed s₁ n a s) (hafter : TicksAfter s₁ n s)
    (hcrossed : crossed s.cfg s.tmr.prevTick.toNat s.tick.toNat = true) :
    midpoints s₁.cfg.tickReload s₁.tick.toNat + s.tmr.cross.toNat + 1 ≤
      midpoints s₁.cfg.tickReload (s₁.tick.toNat + n) := by
  rw [h.prev, hafter.tick, hafter.cfg] at hcrossed
  have := midpoints_of_crossed h.sampled hcrossed
  have := h.counted
  omega

theorem CrossingsPassed.poll {a : Nat} (h : CrossingsPassed s₁ n a s) (hafter : TicksAfter s₁ n s)
    (hx : exec .tmrPoll s = .next t) : ∃ b, CrossingsPassed s₁ n b t := by
  rcases tmrPoll_sample hx with ⟨hprev, hcross⟩ | ⟨hprev, hcross⟩
  · exact ⟨a, h.sampled, hprev ▸ h.prev, hcross ▸ h.counted⟩
  · refine ⟨s₁.tick.toNat + n, le_rfl, hprev ▸ hafter.tick, ?_⟩
    rcases hcross with hsame | ⟨hcrossed, hmore⟩
    · rw [hsame]
      exact h.counted.trans (midpoints_mono h.sampled)
    · have hpassed := h.of_crossed hafter hcrossed
      have hle : (s.tmr.cross + 1).toNat ≤ s.tmr.cross.toNat + 1 := Nat.mod_le _ _
      rw [hmore]
      omega

/-- A wait `n` ticks after its start, with a previous sample up to which no crossing is counted too many. -/
def CountingWait (s₁ : State) (n : Nat) (t : State) : Prop :=
  TicksAfter s₁ n t ∧ ∃ a, CrossingsPassed s₁ n a t

theorem CountingWait.start (hinv : Invariants s) (hinv₁ : Invariants (startWait T c s)) :
    CountingWait (startWait T c s) 0 (startWait T c s) :=
  ⟨TicksAfter.refl hinv₁, s.tick.toNat, le_rfl, (Nat.mod_eq_of_lt hinv.tick).symm, le_rfl⟩

theorem CountingWait.step {e : Event} (h : CountingWait s₁ n s) (hr : e.restartsTimer = false)
    (hstep : agentStep e s = .next t) : CountingWait s₁ (n + tickCount [e]) t := by
  obtain ⟨hafter, a, ha⟩ := h
  refine ⟨hafter.step hr hstep, ?_⟩
  obtain ⟨-, htmr | hpoll, -⟩ := agentStep_timer hstep hr
  · exact ⟨a, by have := ha.sampled; omega, htmr ▸ ha.prev, htmr ▸ ha.counted⟩
  · obtain ⟨b, hb⟩ := ha.poll hafter hpoll
    exact ⟨b, by have := hb.sampled; omega, hb.prev, hb.counted⟩

theorem CountingWait.run {es : List Event} (h : CountingWait s₁ n s) (hes : ∀ e ∈ es, e.restartsTimer = false)
    (hrun : runEvents es s = .next t) : CountingWait s₁ (n + tickCount es) t :=
  runEvents_counts (P := CountingWait s₁) (fun e he _ _ _ hs hstep => hs.step (hes e he) hstep) h hrun

/-- From any phase, passing more than B midpoints takes more than B turns of the counter. -/
theorem ticks_of_midpoints {R a e B : Nat} (hR : 0 < R) (h : midpoints R a + B + 1 ≤ midpoints R (a + e)) :
    B * R + 1 ≤ e := by
  by_contra hlt
  have hmono : midpoints R (a + e) ≤ midpoints R (a + B * R) := midpoints_mono (by omega)
  rw [midpoints_add_mul hR] at hmono
  omega

/-- B turns of the counter are at least T·c ticks (R127). -/
theorem budget_le_turns {R B : Nat} (hB : T ≤ B * (R / c)) : T * c ≤ B * R :=
  calc T * c ≤ B * (R / c) * c := Nat.mul_le_mul_right c hB
    _ = B * (R / c * c) := Nat.mul_assoc ..
    _ ≤ B * R := Nat.mul_le_mul_left B (Nat.div_mul_le_self R c)

/-- Settles O34: at the TIMEOUT more midpoints have been passed than the budget B, which takes more than B turns of R. -/
theorem crossingNeverTimesOutEarly : Obligations.CrossingNeverTimesOutEarly := by
  intro T c s s₁ s₂ u es hinv hT hstart hok hmode hes hrun hrunning hpoll htimeout
  have hinv₁ := tmrStart_keeps_invariants hinv hstart
  obtain ⟨-, hT0, hM, rfl⟩ := tmrStart_of_ok hstart hok
  obtain ⟨hafter, a, hpassed⟩ := (CountingWait.start hinv hinv₁).run hes hrun
  obtain ⟨hcrossed, hfull⟩ := crossed_of_timeout hrunning (hafter.mode.trans hmode) hpoll htimeout
  have hcount := hpassed.of_crossed hafter hcrossed
  rw [hfull, hafter.budget, Nat.zero_add] at hcount
  have hE : (startWait T c s).tmr.budget.toNat * s.cfg.tickReload + 1 ≤ tickCount es :=
    ticks_of_midpoints (Nat.zero_lt_of_lt hinv.tick) hcount
  have hbudget := startWait_budget_crossing hT hT0 hM (timerMode_crossing_iff.1 hmode)
  obtain ⟨hcover, -, -⟩ := ceilDiv_spec (Nat.pos_of_ne_zero hM) (Nat.pos_of_ne_zero hT0)
  exact ⟨hE, (budget_le_turns (hbudget ▸ hcover)).trans_lt hE⟩

end Sys2Proof.Machine
end

section
/-! PROOF. WAIT_IDLE ends within its bound while BUSY stays 1 (70_reset_and_hazards.md R285, R286, R298): what is enabled
for the other agents does not depend on the comparator, and each poll ends the wait or leaves it within its budget. -/

namespace Sys2Proof.Machine

variable {s t u v s₁ : State} {T c n d bound : Nat} {gap : List Event} {gaps : List (List Event)}

/-! ### Runs of the environment do not read the comparator -/

/-- Another comparator, STATUS and RESULT. -/
def withTimer (tm : Timer) (st : Status) (r : Word) (s : State) : State := { s with tmr := tm, status := st, result := r }

theorem receive_withTimer (tm : Timer) (st : Status) (r : Word) (e : Entry) (s : State) :
    receive e (withTimer tm st r s) = withTimer tm st r (receive e s) := by
  rcases receive_cases e s with ⟨hroom, h⟩ | ⟨hfull, h⟩ <;> rw [h]
  · exact if_pos hroom
  · exact if_neg hfull.not_ge

theorem environmentStep_withTimer {e : Event} (tm : Timer) (st : Status) (r : Word) (he : e.environment = true)
    (h : agentStep e s = .next t) : agentStep e (withTimer tm st r s) = .next (withTimer tm st r t) := by
  cases e with
  | command | blockReset | bufWrite => cases he
  | shiftOut =>
    obtain ⟨e, es, hq, ⟨hloop, rfl⟩ | ⟨hloop, htail, rfl⟩⟩ := shiftOut_cases h
    · simp [agentStep, shiftOut, withTimer, hq, hloop]
    · rw [← receive_withTimer]
      simp [agentStep, shiftOut, withTimer, hq, hloop, htail]
  | rxPush w k =>
    obtain ⟨hloop, h1, h4, htail, rfl⟩ := rxPush_cases h
    rw [← receive_withTimer]
    simp [agentStep, rxPush, withTimer, hloop, htail]
    omega
  | setBusy | tick => cases h; rfl

theorem environmentRun_withTimer {es : List Event} (tm : Timer) (st : Status) (r : Word)
    (hes : ∀ e ∈ es, e.environment = true) (h : runEvents es s = .next t) :
    runEvents es (withTimer tm st r s) = .next (withTimer tm st r t) := by
  induction es generalizing s with
  | nil => cases h; rfl
  | cons e es ih =>
    obtain ⟨u, hu, h⟩ := andThen_cases h
    rw [runEvents_cons, environmentStep_withTimer tm st r (hes e (by simp)) hu, andThen_next]
    exact ih (fun e he => hes e (by simp [he])) h

/-- What the environment can do before a command that writes only the comparator, STATUS and RESULT, it can do after it. -/
theorem timerFrame.enabled {es : List Event} (h : timerFrame s t) (hes : ∀ e ∈ es, e.environment = true)
    (hrun : ∃ s', runEvents es s = .next s') : ∃ t', runEvents es t = .next t' := by
  obtain ⟨s', hs'⟩ := hrun
  rw [h]
  exact ⟨_, environmentRun_withTimer t.tmr t.status t.result hes hs'⟩

theorem runEvents_append_cases {es fs : List Event} (h : runEvents (es ++ fs) s = .next t) :
    ∃ u, runEvents es s = .next u ∧ runEvents fs u = .next t := by
  induction es generalizing s with
  | nil => exact ⟨s, rfl, h⟩
  | cons e es ih =>
    obtain ⟨u, hu, h⟩ := andThen_cases h
    obtain ⟨w, hw, hrest⟩ := ih h
    exact ⟨w, by rw [runEvents_cons, hu]; exact hw, hrest⟩

/-! ### A wait still running -/

theorem Event.environment_of_keepsBusy {e : Event} (h : e.keepsBusy = true) : e.environment = true := by
  cases e with
  | command | blockReset | bufWrite => cases h
  | shiftOut | rxPush | setBusy | tick => rfl

theorem environment_of_gaps (h : ∀ g ∈ gaps, ∀ e ∈ g, e.keepsBusy = true) :
    ∀ e ∈ gaps.flatten, e.environment = true := fun e he => by
  obtain ⟨g, hg, heg⟩ := List.mem_flatten.1 he
  exact Event.environment_of_keepsBusy (h g hg e heg)

theorem Event.restartsTimer_of_environment {e : Event} (h : e.environment = true) : e.restartsTimer = false := by
  cases e with
  | command | blockReset | bufWrite => cases h
  | shiftOut | rxPush | setBusy | tick => rfl

theorem agentStep_keeps_busy {e : Event} (he : e.keepsBusy = true) (hs : s.busy = true) (h : agentStep e s = .next t) :
    t.busy = true := by
  cases e with
  | command | blockReset | bufWrite => cases he
  | shiftOut =>
    obtain ⟨e, es, -, ⟨-, rfl⟩ | ⟨-, -, rfl⟩⟩ := shiftOut_cases h
    · exact hs
    · rw [receive_eq]; exact hs
  | rxPush =>
    obtain ⟨-, -, -, -, rfl⟩ := rxPush_cases h
    rw [receive_eq]; exact hs
  | setBusy b => cases h; exact he
  | tick => cases h; exact hs

/-- The wait that `s₁` started runs on, `n` ticks later, with the bus busy. -/
structure StillWaiting (s₁ : State) (n : Nat) (t : State) : Prop where
  after   : TicksAfter s₁ n t
  running : t.tmr.state = .running
  busy    : t.busy = true
  noFault : t.busFault = false

theorem StillWaiting.run (h : StillWaiting s₁ n s) (hgap : ∀ e ∈ gap, e.keepsBusy = true)
    (hrun : runEvents gap s = .next u) : StillWaiting s₁ (n + tickCount gap) u ∧ u.tmr = s.tmr := by
  have henv : ∀ e ∈ gap, e.environment = true := fun e he => Event.environment_of_keepsBusy (hgap e he)
  have hframe := environmentRun_frame henv hrun
  have hbusy : u.busy = true :=
    runEvents_keeps (P := fun w => w.busy = true) (fun e he _ _ => agentStep_keeps_busy (hgap e he)) h.busy hrun
  have hfault : u.busFault = s.busFault := by rw [hframe]
  exact ⟨⟨h.after.run (fun e he => Event.restartsTimer_of_environment (henv e he)) hrun, hframe.tmr_eq ▸ h.running,
    hbusy, hfault.trans h.noFault⟩, hframe.tmr_eq⟩

theorem StillWaiting.pollOn {k : Word} (h : StillWaiting s₁ n u) (hx : exec .tmrPoll u = .next (pollOn k u)) :
    StillWaiting s₁ n (pollOn k u) :=
  ⟨h.after.poll hx, h.running, h.busy, h.noFault⟩

/-! ### The loop -/

/-- `d` ticks after a state of the wait `W`, a poll ends it with TIMEOUT or finds it in `W` still. -/
def PollsWithin (s₁ : State) (W : Nat → State → Prop) (d : Nat) : Prop :=
  ∀ n s u, W n s → StillWaiting s₁ (n + d) u → u.tmr = s.tmr →
    exec .tmrPoll u = .next (pollExpired u) ∨
    ∃ k, exec .tmrPoll u = .next (pollOn k u) ∧ W (n + d) (pollOn k u)

theorem pollPass_of_expired {again : State → Host.Outcome State Fault Refusal} (hgap : runEvents gap s = .next u)
    (hb : u.busFault = false) (hx : exec .tmrPoll u = .next (pollExpired u)) :
    pollPass gap s again = .next (pollExpired u) := by
  rw [pollPass, issueAfter, hgap, andThen_next, issue_of_decode decode_encode_tmrPoll hb, hx, andThen_next]
  exact if_pos (.inr rfl)

theorem pollPass_of_on {again : State → Host.Outcome State Fault Refusal} {k : Word} (hgap : runEvents gap s = .next u)
    (hb : u.busFault = false) (hx : exec .tmrPoll u = .next (pollOn k u)) :
    pollPass gap s again = again (pollOn k u) := by
  rw [pollPass, issueAfter, hgap, andThen_next, issue_of_decode decode_encode_tmrPoll hb, hx, andThen_next]
  refine if_neg ?_
  rintro (hne | hzero)
  · exact hne rfl
  · exact absurd (show (1 : Word) = 0 from hzero) (by decide)

/-- The outcome TIMEOUT. -/
def timedOut (t : State) : Prop := t.status = .timeout ∧ t.result = 0 ∧ t.tmr.state = .doneTimeout

theorem timedOut_pollExpired (s : State) : timedOut (pollExpired s) := ⟨rfl, rfl, rfl⟩

/-- A pass from `W` ends the wait with TIMEOUT, or goes on from `W`. -/
theorem pollPass_within {W : Nat → State → Prop} {again : State → Host.Outcome State Fault Refusal}
    (hwait : StillWaiting s₁ n s) (hgap : ∀ e ∈ gap, e.keepsBusy = true)
    (hpolls : PollsWithin s₁ W (tickCount gap)) (hs : W n s) (hrun : runEvents gap s = .next u) :
    pollPass gap s again = .next (pollExpired u) ∨
    ∃ k, pollPass gap s again = again (pollOn k u) ∧ W (n + tickCount gap) (pollOn k u) := by
  obtain ⟨hwait', htmr⟩ := hwait.run hgap hrun
  rcases hpolls n s u hs hwait' htmr with hx | ⟨k, hx, hon⟩
  · exact .inl (pollPass_of_expired hrun hwait'.noFault hx)
  · exact .inr ⟨k, pollPass_of_on hrun hwait'.noFault hx, hon⟩

/-- A wait that cannot still be running after `bound` ticks ends with TIMEOUT when given as many. -/
theorem pollLoop_timesOut {W : Nat → State → Prop} (hW : ∀ n s, W n s → StillWaiting s₁ n s ∧ n < bound)
    (hgaps : ∀ g ∈ gap :: gaps, ∀ e ∈ g, e.keepsBusy = true)
    (hpolls : ∀ g ∈ gap :: gaps, PollsWithin s₁ W (tickCount g)) (hs : W n s)
    (hrun : ∃ s', runEvents (gap :: gaps).flatten s = .next s')
    (hbound : bound ≤ n + tickCount (gap :: gaps).flatten) :
    ∃ t, pollLoop gap gaps s = .next t ∧ timedOut t := by
  induction gaps generalizing gap n s with
  | nil =>
    obtain ⟨u, hu⟩ := hrun
    rw [List.flatten_singleton] at hu hbound
    obtain ⟨hwait, -⟩ := hW n s hs
    rcases pollPass_within hwait (hgaps gap (by simp)) (hpolls gap (by simp)) hs hu with hover | ⟨k, -, hon⟩
    · exact ⟨_, hover, timedOut_pollExpired u⟩
    · obtain ⟨-, hlt⟩ := hW _ _ hon
      exact absurd hlt hbound.not_gt
  | cons gap' gaps ih =>
    obtain ⟨s', hs'⟩ := hrun
    rw [List.flatten_cons] at hs' hbound
    obtain ⟨u, hu, hrest⟩ := runEvents_append_cases hs'
    obtain ⟨hwait, -⟩ := hW n s hs
    have hgaps' : ∀ g ∈ gap' :: gaps, ∀ e ∈ g, e.keepsBusy = true := fun g hg => hgaps g (List.mem_cons_of_mem _ hg)
    rcases pollPass_within hwait (hgaps gap (by simp)) (hpolls gap (by simp)) hs hu with hover | ⟨k, hagain, hon⟩
    · exact ⟨_, hover, timedOut_pollExpired u⟩
    · have henabled := timerFrame.enabled (s := u) (t := pollOn k u) rfl (environment_of_gaps hgaps') ⟨s', hrest⟩
      rw [pollLoop, hagain]
      exact ih hgaps' (fun g hg => hpolls g (List.mem_cons_of_mem _ hg)) hon henabled
        (by rwa [Nat.add_assoc, ← tickCount_append])

/-! ### DIRECT polled often enough (R126 (b), R285) -/

/-- A DIRECT wait polled so far within its budget. -/
structure DirectWait (s₁ : State) (n : Nat) (t : State) : Prop where
  waiting : StillWaiting s₁ n t
  within  : n ≤ s₁.tmr.budget.toNat

/-- So soon after a sample within the budget TICK has not come round again. -/
theorem directWait_polls (hinv : Invariants s₁) (hmode : s₁.tmr.mode = .direct)
    (hstart : s₁.tmr.startTick = s₁.tick) (hd : d ≤ s₁.cfg.tickReload - 1 - s₁.tmr.budget.toNat) :
    PollsWithin s₁ (DirectWait s₁) d := by
  intro n s u hs hu htmr
  have hlt := hinv.direct hmode
  have hwithin := hs.within
  have hexp := hu.after.directExpired_iff hstart
  rw [Nat.mod_eq_of_lt (by omega)] at hexp
  have hx := exec_tmrPoll_direct hu.running hu.busy (hu.after.mode.trans hmode)
  by_cases h : directExpired u u.tick.toNat = true
  · rw [if_pos h] at hx
    exact .inl hx
  · rw [if_neg h] at hx
    exact .inr ⟨_, hx, hu.pollOn hx, Nat.le_of_not_lt (mt hexp.2 h)⟩

/-! ### CROSSING polled often enough (R127, R286) -/

/-- A CROSSING wait whose last sample is now, and which has counted every midpoint passed. -/
structure CrossingWait (s₁ : State) (n : Nat) (t : State) : Prop where
  waiting : StillWaiting s₁ n t
  prev    : t.tmr.prevTick = t.tick
  counted : midpoints s₁.cfg.tickReload (s₁.tick.toNat + n) =
    midpoints s₁.cfg.tickReload s₁.tick.toNat + t.tmr.cross.toNat

/-- So soon after a sample no crossing is missed. -/
theorem crossingWait_polls (hmode : s₁.tmr.mode = .crossing)
    (hd : d < min (s₁.cfg.tickReload / 2) (s₁.cfg.tickReload - s₁.cfg.tickReload / 2)) :
    PollsWithin s₁ (CrossingWait s₁) d := by
  intro n s u hs hu htmr
  have hmode' := hu.after.mode.trans hmode
  have hcount := midpoints_of_near (s₁.tick.toNat + n) hd
  rw [hs.counted, ← hs.waiting.after.tick, ← hs.prev, ← htmr, Nat.add_assoc, ← hu.after.tick] at hcount
  by_cases hcrossed : crossed u.cfg u.tmr.prevTick.toNat u.tick.toNat = true
  · have hx := exec_tmrPoll_crossed hu.running hu.busy hmode' hcrossed
    by_cases hfull : u.tmr.cross = u.tmr.budget
    · rw [if_pos hfull] at hx
      exact .inl hx
    · rw [if_neg hfull] at hx
      refine .inr ⟨_, hx, hu.pollOn hx, rfl, ?_⟩
      rw [hcount, ← hu.after.cfg, if_pos hcrossed, Nat.add_assoc]
      exact congrArg _ (hu.after.inv.cross_succ_toNat hfull).symm
  · have hx := exec_tmrPoll_uncrossed hu.running hu.busy hmode' hcrossed
    refine .inr ⟨_, hx, hu.pollOn hx, rfl, ?_⟩
    rw [hcount, ← hu.after.cfg, if_neg hcrossed]
    rfl

/-- Such a wait has counted at most B crossings, so it is less than B + 1 turns of the counter old. -/
theorem CrossingWait.lt_bound (h : CrossingWait s₁ n t) :
    n < (s₁.tmr.budget.toNat + 1) * s₁.cfg.tickReload := by
  have hR : 0 < s₁.cfg.tickReload := h.waiting.after.cfg ▸ Nat.zero_lt_of_lt h.waiting.after.inv.tick
  have hcross := h.waiting.after.inv.cross
  rw [h.waiting.after.budget] at hcross
  by_contra hge
  have hmono : midpoints s₁.cfg.tickReload (s₁.tick.toNat + (s₁.tmr.budget.toNat + 1) * s₁.cfg.tickReload) ≤
      midpoints s₁.cfg.tickReload (s₁.tick.toNat + n) := midpoints_mono (by omega)
  rw [midpoints_add_mul hR, h.counted] at hmono
  omega

/-! ### The statement -/

theorem startWait_waiting (h : Invariants (startWait T c s)) (hb : s.busFault = false) (hbusy : s.busy = true) :
    StillWaiting (startWait T c s) 0 (startWait T c s) :=
  ⟨TicksAfter.refl h, rfl, hbusy, hb⟩

theorem waitIdle_of_accepted (hT : T < 2 ^ 32) (hc : c < 2 ^ 32) (hb : s.busFault = false)
    (hstart : exec (.tmrStart T c) s = .next (startWait T c s)) :
    waitIdle T c gap gaps s = pollLoop gap gaps (startWait T c s) := by
  have hwf : (Instr.tmrStart T c).wf = true := by
    rw [Instr.wf, Bool.and_eq_true, decide_eq_true_eq, decide_eq_true_eq]
    exact ⟨hT, hc⟩
  rw [waitIdle, issue_of_decode (decodeOfEncode _ hwf) hb, hstart, andThen_next]
  exact if_pos rfl

/-- Settles O35: DIRECT is over once its budget is, and CROSSING once more than B midpoints are passed. -/
theorem waitIdleEndsWithinBound : Obligations.WaitIdleEndsWithinBound := by
  intro T c s s' gap gaps hinv hb hbusy hT hc hT0 hcR hc32 hgaps hrun hcase
  have hM : s.cfg.tickReload / c ≠ 0 := (Nat.div_pos hcR (Nat.pos_of_ne_zero hc)).ne'
  have hstart := exec_tmrStart_of_accepted hc hT0 hM
  have hinv₁ := tmrStart_keeps_invariants hinv hstart
  have hwait := startWait_waiting hinv₁ hb hbusy
  have hrun₁ := (tmrStart_frame hstart).enabled (environment_of_gaps hgaps) ⟨s', hrun⟩
  rw [waitIdle_of_accepted hT hc32 hb hstart]
  rcases hcase with ⟨hdirect, hnear, htotal⟩ | ⟨hcrossing, hnear, htotal⟩
  · have hbudget := startWait_budget_direct hinv.cfg hc hdirect
    have hpolls (g : List Event) (hg : g ∈ gap :: gaps) :=
      directWait_polls hinv₁ (timerMode_direct_iff.2 hdirect) rfl (hbudget ▸ hnear g hg)
    refine pollLoop_timesOut (bound := T * c + 1) (fun n t ht => ⟨ht.waiting, ?_⟩) hgaps hpolls
      ⟨hwait, Nat.zero_le _⟩ hrun₁ ((Nat.zero_add _).symm ▸ htotal)
    exact Nat.lt_succ_of_le (hbudget ▸ ht.within)
  · have hbudget := startWait_budget_crossing hT hT0 hM hcrossing
    have hpolls (g : List Event) (hg : g ∈ gap :: gaps) :=
      crossingWait_polls (s₁ := startWait T c s) (timerMode_crossing_iff.2 hcrossing) (hnear g hg)
    refine pollLoop_timesOut (fun n t ht => ⟨ht.waiting, ht.lt_bound⟩) hgaps hpolls
      ⟨hwait, rfl, rfl⟩ hrun₁ ?_
    rw [hbudget, Nat.zero_add]
    exact htotal

end Sys2Proof.Machine
end

section
/-! PROOF. SET_HEADER and the functions of a header (42_framing.md R151 to R154): the fields read from a command word, the
two outcomes, the lengths, and the layout and the byte-order step byte by byte. -/

namespace Sys2Proof.Machine

variable {s : State} {cl al db i g l : Nat} {cmd : BitVec 16} {addr : Word} {buf : List Byte}

/-! ### SET_HEADER (R151) -/

/-- A word of SET_HEADER's row decodes to its fields (R92, R95). -/
theorem decode_setHeader {c : Command} (h : c.cw &&& 0x0000E0FF = 0x00000001) :
    decode c = .ok (.setHeader (c.cw.toNat / 2 ^ 8 % 2 ^ 2) (c.cw.toNat / 2 ^ 10 % 2 ^ 3) (c.cw.toNat / 2 ^ 16)
      (c.opa.setWidth 16) c.opb) := by
  have hdb : c.cw.toNat / 2 ^ 16 < 2 ^ 16 := by have := c.cw.isLt; omega
  have hcmd : c.opa.extractLsb' 0 16 = c.opa.setWidth 16 :=
    BitVec.eq_of_toNat_eq (by rw [opaLow_toNat, BitVec.toNat_setWidth])
  rw [decode_of_select (op := .setHeader) (selectOp_eq_some.2 h), operandsOf, hcmd]
  simp only [bitField_eq, Nat.mod_eq_of_lt hdb]

theorem exec_setHeader_of_accepted (h : cl ≤ 2 ∧ al ≤ 4 ∧ 8 * cl + 8 * al + db ≤ 65535) :
    exec (.setHeader cl al db cmd addr) s = .next (finish .ok 0
      { s with hdr := ⟨cmd, addr, BitVec.ofNat 2 cl, BitVec.ofNat 3 al, BitVec.ofNat 16 db⟩ }) :=
  if_pos (headerAccepted_iff.2 h)

theorem exec_setHeader_of_refused (h : ¬ (cl ≤ 2 ∧ al ≤ 4 ∧ 8 * cl + 8 * al + db ≤ 65535)) :
    exec (.setHeader cl al db cmd addr) s = .next (finish .invalidParam 0 s) :=
  if_neg (mt headerAccepted_iff.1 h)

/-- Settles O10: the row's fields as numbers, and fields in range are stored whole. -/
theorem setHeaderResult : Obligations.SetHeaderResult := by
  refine ⟨fun c => decode_setHeader, fun cl al db cmd addr s => ⟨fun h => ?_, fun h => ?_⟩⟩
  · refine ⟨_, exec_setHeader_of_accepted h, rfl, rfl, ?_, ?_, ?_⟩ <;>
      exact (BitVec.toNat_ofNat _ _).trans (Nat.mod_eq_of_lt (by omega))
  · exact exec_setHeader_of_refused (by omega)

/-! ### The lengths (R152) -/

/-- L is the number of bytes that ib bits fill: ceil(ib / 8). -/
theorem headerRaw_eq_ceil_invalidBits (cl al db : Nat) : headerRaw cl al db = (headerInvalidBits cl al db + 7) / 8 := by
  simp only [headerRaw, headerInvalidBits, ceilDiv_eight]
  omega

/-- Settles O11: every bound follows from L = ceil(ib / 8) and P = 4·ceil(L / 4). -/
theorem headerLengths : Obligations.HeaderLengths := by
  intro cl al db hbits
  have hib : headerInvalidBits cl al db = 8 * cl + 8 * al + db := rfl
  have hpadded : headerPadded (headerRaw cl al db) = 4 * ((headerRaw cl al db + 3) / 4) := rfl
  have hraw := headerRaw_eq_ceil_invalidBits cl al db
  refine ⟨rfl, hpadded, hib, ?_, hraw, ?_, ?_, ?_, ?_⟩ <;> omega

/-! ### The natural layout (R153) -/

theorem layout_getElem?_cmd (h : i < cl) :
    ((layout cl al db cmd addr)[i]?).map (·.toNat) = some (cmd.toNat / 2 ^ (8 * (cl - 1 - i)) % 256) := by
  rw [layout, List.append_assoc, List.getElem?_append_left (by simpa using h), msbFirst_getElem? h, Option.map_some,
    lane_toNat, BitVec.toNat_setWidth_of_le (by decide)]

theorem layout_getElem?_addr (h : i < al) :
    ((layout cl al db cmd addr)[cl + i]?).map (·.toNat) = some (addr.toNat / 2 ^ (8 * (al - 1 - i)) % 256) := by
  rw [layout, List.append_assoc, List.getElem?_append_right (by simp), msbFirst_length, Nat.add_sub_cancel_left,
    List.getElem?_append_left (by simpa using h), msbFirst_getElem? h, Option.map_some, lane_toNat]

/-- The dummy bytes and the padding. -/
theorem layout_getElem?_filler (h : cl + al ≤ i) (hi : i < headerPadded (headerRaw cl al db)) :
    (layout cl al db cmd addr)[i]? = some filler := by
  rw [layout, List.getElem?_append_right (by simpa using h), List.getElem?_replicate_of_lt (by simp; omega)]

/-- Settles O12: the three ranges of bytes, one lemma each. -/
theorem layoutBytes : Obligations.LayoutBytes := fun cl al db cmd addr _ _ =>
  ⟨layout_length cl al db cmd addr, fun _ => layout_getElem?_cmd, fun _ => layout_getElem?_addr,
    fun _ => layout_getElem?_filler⟩

/-! ### The byte-order step (R154) -/

theorem order_true_of_short (h : l < 4) : order true buf l = (buf.take l).reverse ++ buf.drop l := by
  rw [order, if_pos rfl, if_pos h]

theorem order_true_of_long (h : 4 ≤ l) : order true buf l = reverseGroups buf := by
  rw [order, if_pos rfl, if_neg (by omega)]

/-- The first L bytes of a short header change places. -/
theorem order_true_getElem?_of_lt (h : l < 4) (hlen : l ≤ buf.length) (hi : i < l) :
    (order true buf l)[i]? = buf[l - 1 - i]? := by
  have htake : (buf.take l).length = l := List.length_take_of_le hlen
  rw [order_true_of_short h, List.getElem?_append_left (by simpa [htake] using hi),
    List.getElem?_reverse (by omega), htake, List.getElem?_take_of_lt (by omega)]

/-- The filler after them stays. -/
theorem order_true_getElem?_of_ge (h : l < 4) (hlen : l ≤ buf.length) (hi : l ≤ i) :
    (order true buf l)[i]? = buf[i]? := by
  have hrev : (buf.take l).reverse.length = l := by simpa using hlen
  rw [order_true_of_short h, List.getElem?_append_right (by omega), hrev, List.getElem?_drop, Nat.add_sub_cancel' hi]

/-- Settles O13: the two cases of the step for a big-endian buffer; its length is kept in every case. -/
theorem orderBytes : Obligations.OrderBytes := by
  intro buf l hlen
  refine ⟨rfl, order_length true buf l, fun hshort => ⟨fun i hi => ?_, fun i hi => ?_⟩, fun hlong g i hi _ => ?_⟩
  · exact order_true_getElem?_of_lt hshort (by omega) hi
  · exact order_true_getElem?_of_ge hshort (by omega) hi
  · rw [order_true_of_long hlong, reverseGroups_getElem? (by omega) g hi]

end Sys2Proof.Machine
end

section
/-! PROOF. BUILD_HEADER and FILL_HDR (42_framing.md R155 to R159): what the built header and the entries pushed hold, that
the entries carry the natural layout, that a header is built once, and what the framing commands leave. -/

namespace Sys2Proof.Machine

variable {s t : State} {b b' : Built}

/-! ### BUILD_HEADER (R155) -/

theorem selectOp_buildHeader : selectOp 0x00000003 = some .buildHeader := by decide

/-- A BUILD_HEADER that ends with OK found no header unsent. -/
theorem not_unsent_of_buildHeader_ok (h : exec .buildHeader s = .next t) (hok : t.status = .ok) :
    ¬ s.built.pos.toNat < s.built.len.toNat := by
  rcases buildHeader_cases h with ⟨hsent, -⟩ | ⟨-, rfl⟩
  · exact Nat.not_lt.2 hsent
  · cases hok

theorem Invariants.invalidBits_lt (h : Invariants s) : Header.invalidBits s.hdr < 2 ^ 16 :=
  Nat.lt_succ_of_le h.bits

/-- RESULT of BUILD_HEADER as a number: ib in the high half, P in the low half. -/
theorem Invariants.buildResult_toNat (h : Invariants s) :
    (BitVec.ofNat 16 (Header.invalidBits s.hdr) ++ BitVec.ofNat 16 (Header.padded s.hdr)).toNat =
      (BitVec.ofNat 16 (Header.invalidBits s.hdr)).toNat * 2 ^ 16 + Header.padded s.hdr := by
  obtain ⟨-, hpadded⟩ := header_le h
  rw [append_toNat, BitVec.toNat_ofNat (Header.padded s.hdr) 16, Nat.mod_eq_of_lt (by omega)]

/-- BUILD_HEADER stores no byte of HDR_BUF at P or above. -/
theorem read_built_of_padded_le (be : Bool) (hd : Header) (m : Memory) {a : Nat} (ha : Header.padded hd ≤ a) :
    Memory.read (Memory.storeLow m (order be (Header.layout hd) (Header.raw hd))) a = Memory.read m a := by
  rw [Memory.read_storeLow, dif_neg (by rw [orderedLayout_length]; omega)]

/-- Settles O14: the lengths fit their registers, HDR_BUF holds the ordered layout, and the bytes above it are kept. -/
theorem buildHeaderResult : Obligations.BuildHeaderResult := by
  refine ⟨fun a b => decode_of_select (c := ⟨_, a, b⟩) selectOp_buildHeader, fun s => exec_buildHeader_of_unsent, ?_⟩
  rintro s cl al db hinv hsent rfl rfl rfl
  obtain ⟨t, hx⟩ := exec_ne_stop .buildHeader s
  obtain ⟨-, ⟨-, -, hlen⟩, hhold, hraw, -⟩ := buildHeader_of_sent hinv hsent hx
  rcases buildHeader_cases hx with ⟨-, rfl⟩ | ⟨hunsent, -⟩
  · simp only [finish_built] at hlen hhold hraw
    refine ⟨_, _, _, hx, ?_, ?_, hraw, hlen, rfl, fun i hi => ?_, fun i hi => ?_⟩
    · exact (BitVec.toNat_ofNat _ _).trans (Nat.mod_eq_of_lt hinv.invalidBits_lt)
    · rw [hlen]
      exact hinv.buildResult_toNat
    · have hbyte := hhold.bytes i (by rw [hlen] at hi; exact hi.trans_eq (layout_length ..).symm)
      rwa [hraw] at hbyte
    · exact read_built_of_padded_le s.be s.hdr s.built.buf (hlen ▸ hi)
  · exact absurd hunsent hsent

/-! ### FILL_HDR (R156, R157) -/

theorem selectOp_fillHdr : selectOp 0x00000004 = some .fillHdr := by decide

theorem exec_fillHdr_of_sent (h : s.built.pos = s.built.len) : exec .fillHdr s = .next (finish .ok 0 s) :=
  if_pos h

/-- A header word as a number (R69). -/
theorem hdrword_hdrGroup_toNat (b : Built) (a : Nat) :
    (hdrword (hdrGroup b a)).toNat =
      (Memory.read b.buf a).toNat + (Memory.read b.buf (a + 1)).toNat * 2 ^ 8 +
      (Memory.read b.buf (a + 2)).toNat * 2 ^ 16 + (Memory.read b.buf (a + 3)).toNat * 2 ^ 24 :=
  packLow_four_toNat _ _ _ _

theorem headerEntries_length (b : Built) (n : Nat) : (headerEntries b n).length = n / 4 := by
  rw [headerEntries, List.length_map, List.length_range]

theorem headerEntries_getElem? {n j : Nat} {e : Entry} (h : (headerEntries b n)[j]? = some e) :
    e = ⟨hdrword (hdrGroup b (b.pos.toNat + 4 * j)), headerEntryCount b⟩ := by
  obtain ⟨k, hk, rfl⟩ := by simpa only [headerEntries, List.getElem?_map, Option.map_eq_some_iff] using h
  obtain ⟨-, rfl⟩ := by simpa [List.getElem?_eq_some_iff] using hk
  rfl

/-- HDR_POS after FILL_HDR, as a number. -/
theorem Invariants.advancedPos_toNat (h : Invariants s) :
    (BitVec.ofNat 14 (s.built.pos.toNat + fillHdrCount s)).toNat = s.built.pos.toNat + fillHdrCount s := by
  obtain ⟨-, hwithin, -, -⟩ := fillHdrCount_spec h
  have := h.lenLe
  rw [BitVec.toNat_ofNat, Nat.mod_eq_of_lt (by omega)]

/-- Settles O15: nothing pending, or the header words from HDR_POS on, as many as are left and fit. -/
theorem fillHdrResult : Obligations.FillHdrResult := by
  refine ⟨fun a b => decode_of_select (c := ⟨_, a, b⟩) selectOp_fillHdr, fun s => exec_fillHdr_of_sent, ?_⟩
  rintro s n hinv hpending rfl
  obtain ⟨t, hx⟩ := exec_ne_stop .fillHdr s
  obtain ⟨hmod, -, -, hle⟩ := fillHdrCount_spec hinv
  rcases fillHdr_cases hx with ⟨hnone, -⟩ | ⟨-, rfl⟩
  · exact absurd hnone hpending
  · refine ⟨_, _, _, hx, hinv.advancedPos_toNat, ?_, hmod, headerEntries_length _ _, fun j e he => ?_⟩
    · exact (BitVec.toNat_ofNat _ _).trans (Nat.mod_eq_of_lt (hle.trans_lt (by decide)))
    · rw [headerEntries_getElem? he]
      exact ⟨hdrword_hdrGroup_toNat _ _, rfl⟩

/-! ### The bytes sent (R159) -/

/-- With nothing pending FILL_HDR's count is 0, so in every case it pushes that many bytes of header words. -/
theorem fillHdr_pushes (hinv : Invariants s) (h : exec .fillHdr s = .next t) :
    t.txq = s.txq ++ headerEntries s.built (fillHdrCount s) ∧
    t.built.pos.toNat = s.built.pos.toNat + fillHdrCount s ∧ t.built.len = s.built.len := by
  rcases fillHdr_cases h with ⟨hnone, rfl⟩ | ⟨-, rfl⟩
  · have hcount : fillHdrCount s = 0 := by rw [fillHdrCount, hnone, Nat.sub_self, Nat.zero_min]
    rw [hcount]
    exact ⟨(List.append_nil _).symm, rfl, rfl⟩
  · exact ⟨rfl, hinv.advancedPos_toNat, rfl⟩

theorem HoldsHeader.congr {be : Bool} {lay : List Byte} (h : HoldsHeader be lay b) (hbuf : b'.buf = b.buf)
    (hraw : b'.raw = b.raw) : HoldsHeader be lay b' :=
  ⟨hraw ▸ h.length, by rw [hbuf, hraw]; exact h.bytes⟩

/-- A header shorter than four bytes is one word, so FILL_HDR pushes nothing or the whole of it. -/
theorem HoldsHeader.entriesBytes_fillHdr_short {be : Bool} {lay : List Byte} (h : HoldsHeader be lay s.built)
    (hinv : Invariants s) (hlen : lay.length = s.built.len.toNat) (hl : s.built.raw.toNat < 4) :
    entriesBytes be (headerEntries s.built (fillHdrCount s)) =
      if fillHdrCount s = 0 then [] else lay.take s.built.raw.toNat := by
  split
  · rename_i hnone
    rw [hnone]
    rfl
  · obtain ⟨hmod, hwithin, -, -⟩ := fillHdrCount_spec hinv
    obtain ⟨-, hpadded, -⟩ := headerPadded_bounds s.built.raw.toNat
    have := h.length
    have := hinv.lenMod
    have hpos : s.built.pos.toNat = 0 := by omega
    rw [show fillHdrCount s = 4 by omega]
    exact h.entriesBytes_short hl (BitVec.eq_of_toNat_eq hpos) (by omega)

/-- Settles O16: FILL_HDR's entries by the length of the header, and all of them where they fit. -/
theorem headerByteSequence : Obligations.HeaderByteSequence := by
  rintro s s₁ s₂ s₃ _ _ hinv rfl rfl hbuild hok hinv₂ - hbuf hraw hlen hfill
  obtain ⟨-, ⟨-, -, hlen₁⟩, hhold₁, hraw₁, -⟩ :=
    buildHeader_of_sent hinv (not_unsent_of_buildHeader_ok hbuild hok) hbuild
  have hhold := hhold₁.congr hbuf hraw
  have hlay : (Header.layout s.hdr).length = s₂.built.len.toNat := by rw [hlen, hlen₁]; exact layout_length ..
  rw [← hraw] at hraw₁
  obtain ⟨hmod, hwithin, -, -⟩ := fillHdrCount_spec hinv₂
  obtain ⟨htxq, hpos, hlen₃⟩ := fillHdr_pushes hinv₂ hfill
  refine ⟨_, htxq, fun hl => ?_, fun hl => ?_, fun hstart hfits => ?_⟩
  · rw [hpos, Nat.add_sub_cancel_left]
    exact hhold.entriesBytes_long (hraw₁.symm ▸ hl) hinv₂.posMod hmod (hlay.symm ▸ hwithin)
  · have hnone : fillHdrCount s₂ = 0 ↔ s₃.built.pos = s₂.built.pos := by
      rw [← BitVec.toNat_inj, hpos]; omega
    rw [hhold.entriesBytes_fillHdr_short hinv₂ hlay (hraw₁.symm ▸ hl), hraw₁]
    exact if_congr hnone rfl rfl
  · have hzero : s₂.built.pos.toNat = 0 := by rw [hstart]; rfl
    have hcount : fillHdrCount s₂ = s₂.built.len.toNat := by
      rw [fillHdrCount, hzero]
      exact Nat.min_eq_left hfits
    refine ⟨BitVec.eq_of_toNat_eq (by rw [hpos, hzero, hcount, hlen₃, Nat.zero_add]), ?_⟩
    rw [hcount, ← hlay, hhold.entriesBytes_whole hstart, hraw₁]
    rfl

/-! ### Built once (R158) -/

/-- Every command but SET_HEADER leaves the header fields or, being an accepted BUILD_HEADER, zeroes them. -/
theorem exec_hdr_eq_or_zero {i : Instr} (hi : ∀ cl al db cmd addr, i ≠ .setHeader cl al db cmd addr)
    (h : exec i s = .next t) : t.hdr = s.hdr ∨ t.hdr = Header.zero := by
  cases i with
  | setHeader => exact absurd rfl (hi _ _ _ _ _)
  | buildHeader => rcases buildHeader_cases h with ⟨-, rfl⟩ | ⟨-, rfl⟩; exacts [.inr rfl, .inl rfl]
  | setEndian => rcases setEndian_cases h with ⟨-, rfl⟩ | ⟨-, rfl⟩ <;> exact .inl rfl
  | fillHdr => rcases fillHdr_cases h with ⟨-, rfl⟩ | ⟨-, rfl⟩ <;> exact .inl rfl
  | fillTx =>
    rcases fillTx_cases h with ⟨-, rfl⟩ | ⟨-, -, rfl⟩ | ⟨-, -, -, rfl⟩ | ⟨-, -, -, rfl⟩ <;> exact .inl rfl
  | drainRx =>
    rcases drainRx_cases h with ⟨-, rfl⟩ | ⟨-, -, rfl⟩ | ⟨-, -, -, rfl⟩ | ⟨-, -, -, rfl⟩ <;> exact .inl rfl
  | fifoClear => rw [fifoClear_cases h]; exact .inl rfl
  | tmrStart => rw [tmrStart_frame h]; exact .inl rfl
  | tmrPoll => rw [tmrPoll_frame h]; exact .inl rfl
  | readCsr => rcases readCsr_cases h with ⟨-, rfl⟩ | ⟨-, -, -, rfl⟩ | ⟨-, -, -, rfl⟩ <;> exact .inl rfl

/-- No step but a SET_HEADER's sets a header where none waits. -/
theorem agentStep_keeps_hdr_zero {e : Event} (he : e.setsHeader = false) (hs : s.hdr = Header.zero)
    (h : agentStep e s = .next t) : t.hdr = Header.zero := by
  cases e with
  | command c =>
    obtain ⟨-, ⟨i, hd, hx⟩ | ⟨_, -, rfl⟩⟩ := issueCommand_cases h
    · have hi (cl al db : Nat) (cmd : BitVec 16) (addr : Word) : i ≠ .setHeader cl al db cmd addr := by
        rintro rfl
        simp [Event.setsHeader, hd] at he
      rcases exec_hdr_eq_or_zero hi hx with hsame | hzero
      · exact hsame.trans hs
      · exact hzero
    · exact hs
  | blockReset => cases h; rfl
  | bufWrite => cases h; exact hs
  | shiftOut | rxPush | setBusy | tick => rw [environmentStep_frame rfl h]; exact hs

/-- A BUILD_HEADER that ends with OK consumes the header fields. -/
theorem buildHeader_hdr_of_ok (h : exec .buildHeader s = .next t) (hok : t.status = .ok) : t.hdr = Header.zero := by
  rcases buildHeader_cases h with ⟨-, rfl⟩ | ⟨-, rfl⟩
  · rfl
  · cases hok

/-- Settles O17: the first BUILD_HEADER zeroes the header fields, no event of the run sets them, and of zero fields the
empty header is built. -/
theorem headerBuiltExactlyOnce : Obligations.HeaderBuiltExactlyOnce := by
  intro s s₁ s₂ t es hbuild hok hes hrun hagain hok'
  have hzero : s₂.hdr = Header.zero :=
    runEvents_keeps (P := fun u => u.hdr = Header.zero)
      (fun e he _ _ hu hstep => agentStep_keeps_hdr_zero (hes e he) hu hstep) (buildHeader_hdr_of_ok hbuild hok) hrun
  rcases buildHeader_cases hagain with ⟨-, rfl⟩ | ⟨-, rfl⟩
  · rw [hzero]
    exact ⟨rfl, rfl, rfl, rfl, rfl, fun a => read_built_of_padded_le s₂.be Header.zero s₂.built.buf (Nat.zero_le a)⟩
  · cases hok'

/-! ### What the framing commands leave -/

/-- Settles O54: the cases of each command write only the fields left open. -/
theorem framingFrame : Obligations.FramingFrame := by
  refine ⟨fun cl al db cmd addr s t h => ?_, fun s t h => ?_, fun s t h => ?_⟩ <;>
    refine ⟨?_, exec_sameSurroundings h, ?_⟩
  · rcases setHeader_cases h with ⟨-, -, -, rfl⟩ | ⟨-, rfl⟩ <;> exact fun _ => rfl
  · rcases setHeader_cases h with ⟨-, -, -, rfl⟩ | ⟨-, rfl⟩ <;> exact ⟨rfl, rfl, rfl, rfl, rfl, rfl, rfl, rfl⟩
  · rcases buildHeader_cases h with ⟨-, rfl⟩ | ⟨-, rfl⟩ <;> exact fun _ => rfl
  · rcases buildHeader_cases h with ⟨-, rfl⟩ | ⟨-, rfl⟩ <;> exact ⟨rfl, rfl, rfl, rfl, rfl, rfl⟩
  · rcases fillHdr_cases h with ⟨-, rfl⟩ | ⟨-, rfl⟩ <;> exact fun _ => rfl
  · rcases fillHdr_cases h with ⟨-, rfl⟩ | ⟨-, rfl⟩ <;> exact ⟨rfl, rfl, rfl, rfl, rfl, rfl, rfl, rfl, rfl, rfl⟩

end Sys2Proof.Machine
end

section
/-! PROOF. What a FIFO holds by its level (10_state.md R31, R32; 43_fifo_bridge.md R195): only the last entry is
partial, so the number of bytes fixes how many entries there are and the count of each. -/

namespace Sys2Proof.Machine

variable {q : List Entry} {e : Entry} {k n : Nat}

/-! ### RXQ -/

theorem onlyLastPartial_cons_cons {e' : Entry} :
    onlyLastPartial (e :: e' :: q) ↔ e.count = 4 ∧ onlyLastPartial (e' :: q) := by
  simp [onlyLastPartial]

/-- Every entry takes one slot of four bytes, so a level of n bytes is ceil(n / 4) entries, and entry j holds what the
entries before it leave of it, at most four. -/
theorem fifo_counts_of_level (htail : onlyLastPartial q) (hcounts : countsLegal q) :
    q.length = (countSum q + 3) / 4 ∧
    ∀ (j : Nat) (e : Entry), q[j]? = some e → e.count = min 4 (countSum q - 4 * j) := by
  induction q with
  | nil => exact ⟨rfl, fun j e he => nomatch he⟩
  | cons e q ih =>
    obtain ⟨he, hq⟩ := List.forall_mem_cons.1 hcounts
    cases q with
    | nil =>
      refine ⟨by simp; omega, fun j e' he' => ?_⟩
      obtain ⟨rfl, rfl⟩ : j = 0 ∧ e = e' := by
        cases j with
        | zero => simpa using he'
        | succ j => simp at he'
      simp; omega
    | cons e₁ q =>
      obtain ⟨hfull, htail⟩ := onlyLastPartial_cons_cons.1 htail
      obtain ⟨hlength, hcount⟩ := ih htail hq
      rw [List.length_cons, countSum_cons, hfull, hlength]
      refine ⟨by omega, fun j e' he' => ?_⟩
      cases j with
      | zero =>
        obtain rfl : e = e' := by simpa using he'
        have := hq e₁ List.mem_cons_self
        simp only [countSum_cons]; omega
      | succ j =>
        have := hcount j e' (by simpa using he')
        omega

/-- R195: whole entries, and for a tail one more that holds the bytes asked of it. -/
theorem fifo_counts_of_le_level (htail : onlyLastPartial q) (hcounts : countsLegal q) (hn : n ≤ countSum q) :
    n / 4 ≤ q.length ∧ (∀ (j : Nat) (e : Entry), j < n / 4 → q[j]? = some e → e.count = 4) ∧
    (n % 4 ≠ 0 → ∃ e, q[n / 4]? = some e ∧ n % 4 ≤ e.count) := by
  obtain ⟨hlength, hcount⟩ := fifo_counts_of_level htail hcounts
  refine ⟨by omega, fun j e hj he => ?_, fun hmod => ?_⟩
  · have := hcount j e he
    omega
  · have hlt : n / 4 < q.length := by omega
    refine ⟨q[n / 4], List.getElem?_eq_getElem hlt, ?_⟩
    have := hcount _ _ (List.getElem?_eq_getElem hlt)
    omega

/-- Of full entries DRAIN_RX takes every byte. -/
theorem entriesBytes_of_full (be : Bool) (h : ∀ e ∈ q, e.count = 4) :
    (q.flatMap fun e => unpack be e.word 4) = entriesBytes be q :=
  List.flatMap_congr fun e he => by rw [Entry.bytes, h e he]

/-- The bytes DRAIN_RX takes are the first n of RXQ's byte sequence (R192, R195). -/
theorem drainedBytes_eq_take (be : Bool) (htail : onlyLastPartial q) (hcounts : countsLegal q) (hn : n ≤ countSum q) :
    drainedBytes be q n = (entriesBytes be q).take n := by
  obtain ⟨hlength, hwhole, hpartial⟩ := fifo_counts_of_le_level htail hcounts hn
  have hfull : ∀ e ∈ q.take (n / 4), e.count = 4 := fun e he => by
    obtain ⟨j, hj⟩ := List.mem_iff_getElem?.1 he
    rw [List.getElem?_take] at hj
    split at hj
    · exact hwhole j e ‹_› hj
    · cases hj
  have hbytes : (entriesBytes be (q.take (n / 4))).length = 4 * (n / 4) := by
    rw [entriesBytes_length, countSum_full hfull, List.length_take_of_le hlength]
  have hsplit : entriesBytes be q = entriesBytes be (q.take (n / 4)) ++ entriesBytes be (q.drop (n / 4)) := by
    rw [← entriesBytes_append, List.take_append_drop]
  rw [drainedBytes, entriesBytes_of_full be hfull, hsplit, List.take_append, hbytes,
    List.take_of_length_le (l := entriesBytes be (q.take (n / 4))) (by omega), show n - 4 * (n / 4) = n % 4 by omega]
  congr 1
  split
  · rename_i hzero
    rw [hzero, List.take_zero]
  · rename_i hne
    obtain ⟨e, he, hle⟩ := hpartial hne
    obtain ⟨hlt, rfl⟩ := List.getElem?_eq_some_iff.1 he
    rw [List.drop_eq_getElem_cons hlt, entriesBytes_cons, List.take_append_of_le_length (by simpa using hle), he]
    rfl

theorem drainedBytes_length (be : Bool) (htail : onlyLastPartial q) (hcounts : countsLegal q) (hn : n ≤ countSum q) :
    (drainedBytes be q n).length = n := by
  rw [drainedBytes_eq_take be htail hcounts hn, List.length_take_of_le (by rwa [entriesBytes_length])]

/-- Where only the last entry may be partial, the entries before another one are full, so that one may be received
(R267). -/
theorem tailPartial_eq_false_of_append_cons {es : List Entry} (h : onlyLastPartial (q ++ e :: es)) :
    tailPartial q = false := by
  have hfull : ∀ x ∈ q, x.count = 4 := fun x hx => h x (by
    rw [List.dropLast_append_of_ne_nil (List.cons_ne_nil e es)]
    exact List.mem_append_left _ hx)
  unfold tailPartial
  split
  · rfl
  · rename_i x hlast
    simpa using hfull x (List.mem_of_getLast? hlast)

/-! ### The entries FILL_TX packs -/

theorem readBuf_append (m : Memory) (a : Word) (off i j : Nat) :
    readBuf m a off i ++ readBuf m a (off + i) j = readBuf m a off (i + j) := by
  simp only [readBuf, List.range_add, List.map_append, List.map_map, Nat.add_assoc, Function.comp_def]

/-- Consecutive groups of four bytes of a buffer. -/
theorem flatMap_readBuf (m : Memory) (a : Word) (k : Nat) :
    ((List.range k).flatMap fun j => readBuf m a (4 * j) 4) = readBuf m a 0 (4 * k) := by
  induction k with
  | zero => rfl
  | succ k ih =>
    rw [List.range_succ, List.flatMap_append, ih, List.flatMap_singleton, Nat.mul_succ, ← readBuf_append, Nat.zero_add]

/-- A packed entry carries the bytes packed, in either byte order (R68). -/
theorem entryBytes_packed (be : Bool) (m : Memory) (a : Word) (off : Nat) (hk : k ≤ 4) :
    Entry.bytes be ⟨pack be (readBuf m a off k), k⟩ = readBuf m a off k := by
  simpa [Entry.bytes] using unpack_pack (b := readBuf m a off k) be (by simpa using hk)

/-- The byte sequence of the packed entries is the buffer's (R68, R70). -/
theorem entriesBytes_packedEntries (be : Bool) (m : Memory) (a : Word) (n : Nat) :
    entriesBytes be (packedEntries be m a n) = readBuf m a 0 n := by
  have hwhole : entriesBytes be ((List.range (n / 4)).map fun j => ⟨pack be (readBuf m a (4 * j) 4), 4⟩) =
      readBuf m a 0 (4 * (n / 4)) := by
    rw [← flatMap_readBuf, entriesBytes, List.flatMap_map]
    exact List.flatMap_congr fun j _ => entryBytes_packed be m a _ le_rfl
  have htail : entriesBytes be (if n % 4 = 0 then [] else
      [{ word := pack be (readBuf m a (4 * (n / 4)) (n % 4)), count := n % 4 }]) =
      readBuf m a (4 * (n / 4)) (n % 4) := by
    split
    · rename_i hzero; rw [hzero]; rfl
    · rw [entriesBytes_cons, entriesBytes_nil, List.append_nil]
      exact entryBytes_packed be m a _ (by omega)
  rw [packedEntries, entriesBytes_append, hwhole, htail]
  simpa [Nat.div_add_mod] using readBuf_append m a 0 (4 * (n / 4)) (n % 4)

theorem countSum_packedEntries (be : Bool) (m : Memory) (a : Word) (n : Nat) :
    countSum (packedEntries be m a n) = n := by
  rw [← entriesBytes_length be, entriesBytes_packedEntries, readBuf_length]

theorem packedEntries_onlyLastPartial (be : Bool) (m : Memory) (a : Word) (n : Nat) :
    onlyLastPartial (packedEntries be m a n) := fun e he => by
  obtain ⟨j, hj⟩ := List.mem_iff_getElem?.1 he
  rw [List.getElem?_dropLast, (packedEntries_spec be m a n).1] at hj
  split at hj
  · obtain ⟨-, hcount, -⟩ := packedEntries_getElem? hj
    omega
  · cases hj

end Sys2Proof.Machine
end

section
/-! PROOF. The FIFO bridge (43_fifo_bridge.md R191 to R196): an equation per outcome of FILL_TX and DRAIN_RX, the bytes
they carry, that TXQ does not overflow, what they leave unchanged, and one round through the loopback. -/

namespace Sys2Proof.Machine

variable {s t : State} {src dst : Word} {len remaining n : Nat}

/-! ### FILL_TX (R191) -/

theorem selectOp_fillTx : selectOp 0x00000005 = some .fillTx := by decide

/-- The state FILL_TX leaves when it takes `n` bytes. -/
def filledTx (src : Word) (n : Nat) (s : State) : State :=
  finish .ok (BitVec.ofNat 32 n) { s with txq := s.txq ++ packedEntries s.be s.mem src n }

theorem exec_fillTx_of_null (h : 0 < len ∧ src = 0) : exec (.fillTx src len) s = .next (finish .invalidParam 0 s) :=
  if_pos (nullBuffer_iff.2 h)

theorem exec_fillTx_of_unsent (hnull : ¬ (0 < len ∧ src = 0)) (h : s.built.pos.toNat < s.built.len.toNat) :
    exec (.fillTx src len) s = .next (finish .alreadyBusy 0 s) :=
  (if_neg (mt nullBuffer_iff.1 hnull)).trans (if_pos (headerUnsent_iff.2 h))

theorem exec_fillTx_of_readable (hnull : ¬ (0 < len ∧ src = 0)) (hsent : ¬ s.built.pos.toNat < s.built.len.toNat)
    (h : ∀ i, i < fillTxCount len s → admitsRead s.cfg (bufAddr src i) = true) :
    exec (.fillTx src len) s = .next (filledTx src (fillTxCount len s) s) :=
  (if_neg (mt nullBuffer_iff.1 hnull)).trans
    ((if_neg (mt headerUnsent_iff.1 hsent)).trans (if_pos (bufReadable_iff.2 h)))

/-- RESULT holds the number of bytes FILL_TX takes. -/
theorem Invariants.fillTxResult_toNat (h : Invariants s) (len : Nat) :
    (BitVec.ofNat 32 (fillTxCount len s)).toNat = fillTxCount len s :=
  operand_toNat ((fillTxCount_spec h len).2.trans_lt (by decide))

/-- Settles O21: the two refusals in their order, else the packed entries, as many bytes as are asked for and fit. -/
theorem fillTxResult : Obligations.FillTxResult := by
  refine ⟨fun a b => decode_of_select (c := ⟨_, a, b⟩) selectOp_fillTx,
    fun src len s h0 h => exec_fillTx_of_null ⟨h0, h⟩, fun src len s => exec_fillTx_of_unsent, ?_⟩
  rintro src len n s hinv hnull hsent rfl hread
  exact ⟨_, _, exec_fillTx_of_readable hnull hsent hread, hinv.fillTxResult_toNat len, (packedEntries_spec ..).1,
    fun j e he => (packedEntries_getElem? he).2⟩

/-- Settles O22: only an accepted FILL_TX ends with OK and no bus error, and its entries unpack to what was packed. -/
theorem fillTxCarriesBufferBytes : Obligations.FillTxCarriesBufferBytes := by
  intro src len s t hinv h hok hfault
  rcases fillTx_cases h with ⟨-, rfl⟩ | ⟨-, -, rfl⟩ | ⟨-, -, -, rfl⟩ | ⟨-, -, -, rfl⟩
  · cases hok
  · cases hok
  · cases hfault
  · refine ⟨_, rfl, ?_⟩
    rw [entriesBytes_packedEntries, finish_result, if_pos rfl, hinv.fillTxResult_toNat]
    simp only [readBuf, bufAddr, Nat.zero_add]

/-! ### DRAIN_RX (R192, R195) -/

theorem selectOp_drainRx : selectOp 0x00000006 = some .drainRx := by decide

/-- The state DRAIN_RX leaves when it takes `n` bytes, none included. -/
def drainedRx (dst : Word) (n : Nat) (s : State) : State :=
  finish .ok (BitVec.ofNat 32 n)
    { s with
      mem := writeBuf s.mem dst 0 (drainedBytes s.be s.rxq n)
      rxq := drainedRest s.rxq n
      rxInvalidBits := if n = 0 then s.rxInvalidBits else 0 }

theorem exec_drainRx_of_null (h : 0 < remaining ∧ dst = 0) :
    exec (.drainRx dst remaining) s = .next (finish .invalidParam 0 s) :=
  if_pos (nullBuffer_iff.2 h)

theorem exec_drainRx_of_none (hnull : ¬ (0 < remaining ∧ dst = 0)) (h : drainRxCount remaining s = 0) :
    exec (.drainRx dst remaining) s = .next (finish .ok 0 s) :=
  (if_neg (mt nullBuffer_iff.1 hnull)).trans (if_pos h)

theorem exec_drainRx_of_writable (hnull : ¬ (0 < remaining ∧ dst = 0))
    (h : ∀ i, i < drainRxCount remaining s → admitsWrite s.cfg (bufAddr dst i) = true) :
    exec (.drainRx dst remaining) s = .next (drainedRx dst (drainRxCount remaining s) s) := by
  by_cases hzero : drainRxCount remaining s = 0
  · rw [exec_drainRx_of_none hnull hzero, hzero]
    rfl
  · rw [drainedRx, if_neg hzero]
    exact (if_neg (mt nullBuffer_iff.1 hnull)).trans ((if_neg hzero).trans (if_pos (bufWritable_iff.2 h)))

/-- RX_LEVEL fits RESULT. -/
theorem Invariants.rxLevel_lt (h : Invariants s) : s.rxLevel < 2 ^ 32 := by
  obtain ⟨-, -, hdepth, -⟩ := h.cfg
  have := h.rxLevel
  omega

theorem drainRxCount_le (remaining : Nat) (s : State) : drainRxCount remaining s ≤ s.rxLevel := Nat.min_le_left ..

/-- RESULT holds the number of bytes DRAIN_RX takes. -/
theorem Invariants.drainRxResult_toNat (h : Invariants s) (hn : n ≤ s.rxLevel) : (BitVec.ofNat 32 n).toNat = n :=
  operand_toNat (hn.trans_lt h.rxLevel_lt)

/-- The buffer drained to begins with RXQ's byte sequence. -/
theorem Invariants.read_drained (h : Invariants s) (dst : Word) (hn : n ≤ s.rxLevel) {i : Nat} (hi : i < n) :
    some (Memory.read (writeBuf s.mem dst 0 (drainedBytes s.be s.rxq n)) (bufAddr dst i)) =
      (entriesBytes s.be s.rxq)[i]? := by
  have hlength := drainedBytes_length s.be h.rxTail h.rxCounts hn
  have hread := read_writeBuf_getElem h.mem dst 0 (drainedBytes s.be s.rxq n)
    (by have := h.rxLevel_lt; omega) (i := i) (by omega)
  rw [Nat.zero_add] at hread
  rw [hread, ← List.getElem?_eq_getElem, drainedBytes_eq_take s.be h.rxTail h.rxCounts hn, List.getElem?_take_of_lt hi]

/-- No other byte is stored to. -/
theorem Invariants.read_drained_of_ne (h : Invariants s) (hn : n ≤ s.rxLevel) {a : Nat}
    (ha : ∀ i, i < n → a ≠ bufAddr dst i) :
    Memory.read (writeBuf s.mem dst 0 (drainedBytes s.be s.rxq n)) a = Memory.read s.mem a :=
  read_writeBuf_of_ne h.mem dst 0 _ fun i hi => by
    rw [drainedBytes_length s.be h.rxTail h.rxCounts hn] at hi
    rw [Nat.zero_add]
    exact ha i hi

/-- Settles O23: the refusal, the no-op, and the drain of the bytes there are and there is room for. -/
theorem drainRxResult : Obligations.DrainRxResult := by
  refine ⟨fun a b => decode_of_select (c := ⟨_, a, b⟩) selectOp_drainRx,
    fun dst remaining s h0 h => exec_drainRx_of_null ⟨h0, h⟩, fun dst remaining s => exec_drainRx_of_none, ?_⟩
  rintro dst remaining n s hinv hnull (rfl : n = drainRxCount remaining s) hne hwrite
  have hx := exec_drainRx_of_writable hnull hwrite
  rw [drainedRx, if_neg hne] at hx
  have hle := drainRxCount_le remaining s
  exact ⟨_, _, hx, hinv.drainRxResult_toNat hle, fun i hi => hinv.read_drained dst hle hi,
    fun a ha => hinv.read_drained_of_ne hle ha⟩

/-- Settles O24: RXQ's level fixes its entries, and DRAIN_RX pops ceil(n / 4) of them. -/
theorem drainPopsExpectedEntries : Obligations.DrainPopsExpectedEntries := by
  refine ⟨fun s n hinv hn => fifo_counts_of_le_level hinv.rxTail hinv.rxCounts hn, ?_⟩
  rintro dst remaining n s hinv hnull (rfl : n = drainRxCount remaining s) hwrite
  have hle := drainRxCount_le remaining s
  obtain ⟨-, hwhole, hpartial⟩ := fifo_counts_of_le_level hinv.rxTail hinv.rxCounts hle
  obtain ⟨hlength, -⟩ := fifo_counts_of_level hinv.rxTail hinv.rxCounts
  have hpopped (j : Nat) (hj : j < (drainRxCount remaining s + 3) / 4) :
      (s.rxq.take ((drainRxCount remaining s + 3) / 4))[j]? = s.rxq[j]? := List.getElem?_take_of_lt hj
  have hroom : (drainRxCount remaining s + 3) / 4 ≤ s.rxq.length :=
    hlength ▸ Nat.div_le_div_right (Nat.add_le_add_right hle 3)
  refine ⟨_, _, exec_drainRx_of_writable hnull hwrite, (List.take_append_drop _ _).symm, List.length_take_of_le hroom,
    fun j e hj he => ?_, fun hmod => ?_⟩
  · exact hwhole j e hj (by rwa [← hpopped j (by omega)])
  · obtain ⟨e, he, hcount⟩ := hpartial hmod
    exact ⟨e, (hpopped _ (by omega)).trans he, hcount⟩

/-! ### FIFO_CLEAR (R193) -/

theorem selectOp_fifoClear : selectOp 0x00000007 = some .fifoClear := by decide

/-- Settles O25: FIFO_CLEAR has one outcome, whatever the state. -/
theorem fifoClearResult : Obligations.FifoClearResult :=
  ⟨fun a b => decode_of_select (c := ⟨_, a, b⟩) selectOp_fifoClear, fun _ => rfl⟩

/-! ### No overflow (R194) -/

/-- Settles O26: the invariants hold after the command and bound TX_LEVEL, and FIFO_DEPTH stays. -/
theorem transmitFifoNeverOverflows : Obligations.TransmitFifoNeverOverflows := by
  intro i s t hinv h
  have hlevel : 4 * t.txq.length ≤ t.cfg.fifoDepth := (exec_keeps_invariants hinv h).txLevel
  have hcfg := exec_cfg h
  exact ⟨hlevel, by rw [hcfg] at hlevel; omega⟩

/-! ### One round through the loopback (R196, R271) -/

/-- One transmit step in the loopback configuration, where RXQ has room for the entry and no partial one last. -/
theorem shiftOut_loopback {e : Entry} {es : List Entry} (hloop : s.cfg.loopback = true) (hq : s.txq = e :: es)
    (htail : tailPartial s.rxq = false) (hroom : s.rxLevel + e.count ≤ s.cfg.fifoDepth) :
    shiftOut s = .next { s with txq := es, rxq := s.rxq ++ [e] } := by
  have hreceive : receive e { s with txq := es } = { s with txq := es, rxq := s.rxq ++ [e] } := if_pos hroom
  simp [shiftOut, hq, hloop, htail, hreceive]

/-- As many transmit steps as TXQ has entries move all of it to RXQ. -/
theorem runEvents_shiftOut_loopback {q : List Entry} (hloop : s.cfg.loopback = true) (hq : s.txq = q)
    (htail : onlyLastPartial (s.rxq ++ q)) (hroom : countSum (s.rxq ++ q) ≤ s.cfg.fifoDepth) :
    runEvents (List.replicate q.length .shiftOut) s = .next { s with txq := [], rxq := s.rxq ++ q } := by
  induction q generalizing s with
  | nil =>
    have hsame : { s with txq := [], rxq := s.rxq ++ [] } = s := by rw [List.append_nil, ← hq]
    rw [hsame]
    rfl
  | cons e es ih =>
    have hfits : s.rxLevel + e.count ≤ s.cfg.fifoDepth := by
      simp only [countSum_append, countSum_cons] at hroom
      simp only [State.rxLevel]; omega
    have hstep : agentStep .shiftOut s = .next { s with txq := es, rxq := s.rxq ++ [e] } :=
      shiftOut_loopback hloop hq (tailPartial_eq_false_of_append_cons htail) hfits
    rw [List.append_cons] at htail hroom ⊢
    rw [List.length_cons, List.replicate_succ, runEvents_cons, hstep, andThen_next]
    exact ih (s := { s with txq := es, rxq := s.rxq ++ [e] }) hloop rfl htail hroom

/-- The state after FILL_TX of `n` bytes into empty FIFOs and the transmit steps of its entries. -/
def loopedTx (src : Word) (n : Nat) (s : State) : State :=
  { filledTx src n s with txq := [], rxq := packedEntries s.be s.mem src n }

theorem runEvents_filledTx (hloop : s.cfg.loopback = true) (htx : s.txq = []) (hrx : s.rxq = [])
    (hroom : n ≤ s.cfg.fifoDepth) :
    runEvents (List.replicate (filledTx src n s).txq.length .shiftOut) (filledTx src n s) =
      .next (loopedTx src n s) := by
  have htxq : (filledTx src n s).txq = packedEntries s.be s.mem src n := congrArg (· ++ _) htx
  have hrxq : (filledTx src n s).rxq = [] := hrx
  have hrun := runEvents_shiftOut_loopback (s := filledTx src n s) hloop htxq
  rw [hrxq, List.nil_append, countSum_packedEntries] at hrun
  rw [htxq]
  exact hrun (packedEntries_onlyLastPartial _ _ _ _) hroom

theorem rxLevel_loopedTx (src : Word) (n : Nat) (s : State) : (loopedTx src n s).rxLevel = n :=
  countSum_packedEntries ..

/-- What drains after the loopback is the buffer FILL_TX took its bytes from. -/
theorem read_drained_loopedTx (h : Invariants (loopedTx src n s)) (dst : Word) {i : Nat} (hi : i < n) :
    Memory.read (drainedRx dst n (loopedTx src n s)).mem (bufAddr dst i) = Memory.read s.mem (bufAddr src i) := by
  have hbytes : entriesBytes (loopedTx src n s).be (loopedTx src n s).rxq = readBuf s.mem src 0 n :=
    entriesBytes_packedEntries ..
  have hread := h.read_drained dst (rxLevel_loopedTx src n s).ge hi
  rw [hbytes, readBuf_getElem? hi, Nat.zero_add] at hread
  exact Option.some.inj hread

/-- Settles O27: the packed entries pass through the loopback whole, and drain as the bytes they were packed from. -/
theorem loopbackRoundTrip : Obligations.LoopbackRoundTrip := by
  intro src dst len remaining n s hinv hloop htx hrx hsent hsrc hdst hn hcap hread hwrite
  obtain rfl : n = fillTxCount len s := by simpa [fillTxCount, State.txFree, State.txLevel, htx] using hn
  have hfill := exec_fillTx_of_readable (fun h => hsrc h.2) hsent hread
  have hshift := runEvents_filledTx (src := src) hloop htx hrx (hn.trans_le (Nat.min_le_right ..))
  have hinv₂ := runEvents_keeps (P := Invariants) (fun _ _ _ _ => agentStep_keeps_invariants)
    (fillTx_keeps_invariants hinv hfill) hshift
  have hcount : drainRxCount remaining (loopedTx src (fillTxCount len s) s) = fillTxCount len s := by
    rw [drainRxCount, rxLevel_loopedTx, Nat.min_eq_left hcap]
  have hdrain := exec_drainRx_of_writable (s := loopedTx src (fillTxCount len s) s) (fun h => hdst h.2)
    (hcount.symm ▸ hwrite)
  rw [hcount] at hdrain
  exact ⟨_, _, _, hfill, hshift, hdrain, rfl, hinv.fillTxResult_toNat len, rfl, hinv.fillTxResult_toNat len, rfl,
    List.drop_eq_nil_of_le (packedEntries_spec ..).1.le, rfl, rfl, fun i hi => read_drained_loopedTx hinv₂ dst hi⟩

/-! ### What the bridge leaves -/

/-- Settles O55: the cases of each command write only the fields left open, and DRAIN_RX's bytes end at its count. -/
theorem fifoBridgeFrame : Obligations.FifoBridgeFrame := by
  refine ⟨fun src len s t h => ⟨?_, exec_sameSurroundings h, ?_⟩,
    fun dst remaining s t hinv h => ⟨?_, exec_sameSurroundings h, ?_⟩, fun s t h => ⟨?_, exec_sameSurroundings h, ?_⟩⟩
  · rcases fillTx_cases h with ⟨-, rfl⟩ | ⟨-, -, rfl⟩ | ⟨-, -, -, rfl⟩ | ⟨-, -, -, rfl⟩ <;> exact fun _ => rfl
  · rcases fillTx_cases h with ⟨-, rfl⟩ | ⟨-, -, rfl⟩ | ⟨-, -, -, rfl⟩ | ⟨-, -, -, rfl⟩ <;>
      refine ⟨rfl, rfl, rfl, rfl, rfl, rfl, rfl, ?_⟩
    · exact List.prefix_refl _
    · exact List.prefix_refl _
    · exact List.prefix_refl _
    · exact List.prefix_append ..
  · rcases drainRx_cases h with ⟨-, rfl⟩ | ⟨-, -, rfl⟩ | ⟨-, -, -, rfl⟩ | ⟨-, -, -, rfl⟩
    · exact fun _ _ => rfl
    · exact fun _ _ => rfl
    · exact fun _ _ => rfl
    · exact fun a ha => hinv.read_drained_of_ne (drainRxCount_le remaining s) ha
  · rcases drainRx_cases h with ⟨-, rfl⟩ | ⟨-, -, rfl⟩ | ⟨-, -, -, rfl⟩ | ⟨-, -, -, rfl⟩ <;>
      refine ⟨rfl, rfl, rfl, rfl, rfl, rfl, ?_⟩
    · exact List.suffix_refl _
    · exact List.suffix_refl _
    · exact List.suffix_refl _
    · exact List.drop_suffix ..
  · rw [fifoClear_cases h]; exact fun _ => rfl
  · rw [fifoClear_cases h]; exact ⟨rfl, rfl, rfl, rfl, rfl, rfl, rfl, rfl⟩

end Sys2Proof.Machine
end

section
/-! PROOF. Configuration and register access (44_control.md R230, R231): the outcomes of SET_ENDIAN and READ_CSR, and
the value of each register as the concatenation of its fields (10_state.md R38). -/

namespace Sys2Proof.Machine

variable {s : State} {idx j : Nat} {reg : Csr} {v : Word}

/-! ### SET_ENDIAN (R230) -/

theorem exec_setEndian_of_inFlight {e : Bool}
    (h : s.txq ≠ [] ∨ s.rxq ≠ [] ∨ s.built.pos.toNat < s.built.len.toNat) :
    exec (.setEndian e) s = .next (finish .alreadyBusy 0 s) :=
  if_pos (inFlight_iff.2 h)

theorem exec_setEndian_of_not_inFlight {e : Bool}
    (h : ¬ (s.txq ≠ [] ∨ s.rxq ≠ [] ∨ s.built.pos.toNat < s.built.len.toNat)) :
    exec (.setEndian e) s = .next (finish .ok 0 { s with be := e }) :=
  if_neg (mt inFlight_iff.1 h)

/-- Settles O28: the refusal's condition is that data is in flight, and its complement that nothing is. -/
theorem setEndianResult : Obligations.SetEndianResult := by
  refine ⟨fun c h => decode_of_select (op := .setEndian) (selectOp_eq_some.2 h),
    fun e s => exec_setEndian_of_inFlight, fun e s htx hrx hsent => exec_setEndian_of_not_inFlight ?_⟩
  rintro (h | h | h)
  · exact h htx
  · exact h hrx
  · exact hsent h

/-! ### The outcomes of READ_CSR (R231) -/

theorem decode_readCsr {c : Command} (h : c.cw &&& 0xFF0000FF = 0x0000000A) :
    decode c = .ok (.readCsr (c.cw.toNat / 2 ^ 8 % 2 ^ 16)) := by
  rw [decode_of_select (op := .readCsr) (selectOp_eq_some.2 h), operandsOf, bitField_eq]

theorem exec_readCsr_of_unassigned (hidx : Csr.ofIndex idx = none) :
    exec (.readCsr idx) s = .next (finish .invalidParam 0 s) := by
  simp only [exec, execReadCsr, hidx, raiseStatus_eq]

theorem exec_readCsr_of_unspecified (hidx : Csr.ofIndex idx = some reg) (hfree : csrUnspecified s reg = true) :
    exec (.readCsr idx) s = .next (finish .ok (Config.freeWord s.draws) { s with draws := s.draws + 1 }) := by
  simp only [exec, execReadCsr, hidx, hfree, if_true]

theorem exec_readCsr_of_csrValue (reg : Csr) (hidx : Csr.ofIndex idx = some reg) (hgiven : csrUnspecified s reg = false)
    (hv : csrValue s reg = v) : exec (.readCsr idx) s = .next (finish .ok v s) := by
  simp [exec, execReadCsr, hidx, hgiven, hv]

/-! ### Indexes (R38) -/

theorem ofIndex_hdrBufWord (h : j < 2048) : Csr.ofIndex (0x1000 + j) = some (.hdrBufWord j) := by
  rw [Csr.ofIndex, if_neg (by omega), if_pos (by omega), Nat.add_sub_cancel_left]

theorem ofIndex_unassigned (h : (0x0013 ≤ idx ∧ idx < 0x1000) ∨ 0x1800 ≤ idx) : Csr.ofIndex idx = none := by
  rcases h with ⟨hlow, hwindow⟩ | hhigh
  · rw [Csr.ofIndex, if_pos hwindow]
    exact List.getElem?_eq_none hlow
  · rw [Csr.ofIndex, if_neg (by omega), if_neg (by omega)]

/-! ### Register values as concatenations (R38) -/

/-- A field alone at bit 0. -/
theorem setWidth_eq_zero_append (m : Nat) {n : Nat} (x : BitVec n) : x.setWidth (m + n) = 0#m ++ x := by
  rw [← BitVec.setWidth_eq (0#m ++ x), BitVec.setWidth_append_eq_shiftLeft_setWidth_or]
  simp

/-- Two fields with `g` bits 0 between them, from their concatenation to their places. -/
theorem setWidth_append_zero_append {k g n : Nat} (w : Nat) (x : BitVec k) (y : BitVec n) :
    (x ++ 0#g ++ y).setWidth w = y.setWidth w ||| x.setWidth w <<< (n + g) := by
  rw [BitVec.setWidth_append_append_eq_shiftLeft_setWidth_or, BitVec.setWidth_zero, BitVec.zero_shiftLeft,
    BitVec.or_zero, BitVec.or_comm, Nat.add_comm g n]

theorem csrValue_hdrCtrl (s : State) :
    csrValue s .hdrCtrl = s.hdr.dummyBits ++ 0#9 ++ s.hdr.addrLen ++ 0#2 ++ s.hdr.cmdLen := by
  rw [← BitVec.setWidth_eq (_ ++ 0#2 ++ s.hdr.cmdLen), setWidth_append_zero_append, setWidth_append_zero_append,
    BitVec.shiftLeft_or_distrib, ← BitVec.shiftLeft_add, ← BitVec.or_assoc]
  rfl

theorem csrValue_tmrCtrl (s : State) : csrValue s .tmrCtrl = 0#27 ++ s.tmr.mode.code ++ 0#2 ++ s.tmr.state.code := by
  rw [← setWidth_eq_zero_append, ← BitVec.setWidth_eq (_ ++ 0#2 ++ s.tmr.state.code), setWidth_append_zero_append,
    BitVec.setWidth_setWidth (by decide)]
  rfl

/-- A number of bytes up to FIFO_DEPTH fits its 16 bits (R5, R38). -/
theorem Invariants.setWidth_ofNat (h : Invariants s) {n : Nat} (hn : n ≤ s.cfg.fifoDepth) :
    (BitVec.ofNat 16 n).setWidth 32 = BitVec.ofNat 32 n := by
  have hdepth : s.cfg.fifoDepth ≤ 65532 := h.cfg.2.2.1
  apply BitVec.eq_of_toNat_eq
  simp only [BitVec.toNat_setWidth, BitVec.toNat_ofNat]
  omega

/-- An HDR_BUF word is its four bytes, the lowest address in the lowest byte (R38, R69). -/
theorem csrValue_hdrBufWord (s : State) (j : Nat) :
    csrValue s (.hdrBufWord j) = Memory.read s.built.buf (4 * j + 3) ++ Memory.read s.built.buf (4 * j + 2) ++
      Memory.read s.built.buf (4 * j + 1) ++ Memory.read s.built.buf (4 * j) :=
  packLow_four _ _ _ _

/-- Settles O29: each index's register and its value; in the HDR_BUF window HDR_LEN decides whether there is one. -/
theorem readCsrResult : Obligations.ReadCsrResult := by
  refine ⟨fun c => decode_readCsr,
    fun s hinv => ⟨?_, fun j hj hlen => ?_, fun j hj hlen => ?_, fun idx hidx => ?_⟩⟩
  · simp only [List.forall_mem_cons]
    exact ⟨
      exec_readCsr_of_csrValue .cfg rfl rfl (setWidth_eq_zero_append 31 _),
      exec_readCsr_of_csrValue .hdrCmd rfl rfl (setWidth_eq_zero_append 16 _),
      exec_readCsr_of_csrValue .hdrAddr rfl rfl rfl,
      exec_readCsr_of_csrValue .hdrCtrl rfl rfl (csrValue_hdrCtrl s),
      exec_readCsr_of_csrValue .rxInvalidBits rfl rfl (setWidth_eq_zero_append 16 _),
      exec_readCsr_of_csrValue .hdrLen rfl rfl (setWidth_eq_zero_append 18 _),
      exec_readCsr_of_csrValue .hdrPos rfl rfl (setWidth_eq_zero_append 18 _),
      exec_readCsr_of_csrValue .hdrRaw rfl rfl (setWidth_eq_zero_append 18 _),
      exec_readCsr_of_csrValue .txLevel rfl rfl (hinv.setWidth_ofNat hinv.txLevel),
      exec_readCsr_of_csrValue .rxLevel rfl rfl (hinv.setWidth_ofNat hinv.rxLevel),
      exec_readCsr_of_csrValue .tmrCtrl rfl rfl (csrValue_tmrCtrl s),
      exec_readCsr_of_csrValue .tmrStartTick rfl rfl rfl,
      exec_readCsr_of_csrValue .tmrBudget rfl rfl rfl,
      exec_readCsr_of_csrValue .tmrCross rfl rfl rfl,
      exec_readCsr_of_csrValue .tmrPrevTick rfl rfl rfl,
      exec_readCsr_of_csrValue .paramFifoDepth rfl rfl (hinv.setWidth_ofNat le_rfl),
      exec_readCsr_of_csrValue .paramTickMax rfl rfl rfl,
      exec_readCsr_of_csrValue .tick rfl rfl rfl,
      exec_readCsr_of_csrValue .busy rfl rfl (setWidth_eq_zero_append 31 _),
      List.forall_mem_nil _⟩
  · exact exec_readCsr_of_csrValue (.hdrBufWord j) (ofIndex_hdrBufWord hj) (decide_eq_false (Nat.not_le.2 hlen))
      (csrValue_hdrBufWord s j)
  · exact ⟨_, _, exec_readCsr_of_unspecified (ofIndex_hdrBufWord hj) (decide_eq_true hlen)⟩
  · exact exec_readCsr_of_unassigned (ofIndex_unassigned hidx)

end Sys2Proof.Machine
end

section
/-! PROOF. Status codes (60_exceptions.md R252 to R255): how a command that completes can end, said once for all ten,
and that decoding and the operand checks come before everything else. -/

namespace Sys2Proof.Machine

variable {s t : State} {i : Instr}

/-! ### How a command ends -/

/-- The table of R254, a row per command. -/
@[simp] def endStatuses : Instr → List Status
  | .setHeader .. | .drainRx .. | .tmrStart .. | .readCsr .. => [.ok, .invalidParam]
  | .setEndian .. | .buildHeader => [.ok, .alreadyBusy]
  | .fillHdr | .fifoClear => [.ok]
  | .fillTx .. => [.ok, .invalidParam, .alreadyBusy]
  | .tmrPoll => [.ok, .timeout, .illegalCommand]

/-- The state a command that meets no bus error leaves: after OK any state; after an error of its row the state before,
STATUS and RESULT excepted; after a TIMEOUT, which only TMR_POLL has, with the comparator's two registers excepted too
(R253). -/
inductive Ending (i : Instr) (s : State) : State → Prop
  | ok (r : Word) (u : State) : Ending i s (finish .ok r u)
  | error {st : Status} (hrow : st ∈ endStatuses i) (hst : st ≠ .timeout) : Ending i s (finish st 0 s)
  | timeout (hi : i = .tmrPoll) (p : Word) :
      Ending i s (finish .timeout 0 { s with tmr := { s.tmr with state := .doneTimeout, prevTick := p } })

theorem tmrPoll_ending (h : exec .tmrPoll s = .next t) : Ending .tmrPoll s t := by
  rcases tmrPoll_cases h with
    ⟨-, rfl⟩ | ⟨-, rfl⟩ | ⟨hdone, rfl⟩ | ⟨-, -, rfl⟩ | ⟨-, -, -, rfl⟩ | ⟨-, -, -, rfl⟩ | ⟨-, -, -, -, -, rfl⟩
  · exact .error (by simp) (by simp)
  · exact .ok _ _
  · have hsame : s = { s with tmr := { s.tmr with state := .doneTimeout, prevTick := s.tmr.prevTick } } := by
      rw [← hdone]
    rw [hsame]
    exact .timeout rfl _
  · exact .ok _ _
  · exact .timeout rfl _
  · exact .ok _ _
  · exact .ok _ _

/-- Every command's cases are endings, but for the bus error, which writes no STATUS (R64). -/
theorem exec_ending (h : exec i s = .next t) (hb : t.busFault = false) : Ending i s t := by
  cases i with
  | setHeader =>
    rcases setHeader_cases h with ⟨-, -, -, rfl⟩ | ⟨-, rfl⟩
    · exact .ok _ _
    · exact .error (by simp) (by simp)
  | setEndian =>
    rcases setEndian_cases h with ⟨-, rfl⟩ | ⟨-, rfl⟩
    · exact .ok _ _
    · exact .error (by simp) (by simp)
  | buildHeader =>
    rcases buildHeader_cases h with ⟨-, rfl⟩ | ⟨-, rfl⟩
    · exact .ok _ _
    · exact .error (by simp) (by simp)
  | fillHdr => rcases fillHdr_cases h with ⟨-, rfl⟩ | ⟨-, rfl⟩ <;> exact .ok _ _
  | fillTx =>
    rcases fillTx_cases h with ⟨-, rfl⟩ | ⟨-, -, rfl⟩ | ⟨-, -, -, rfl⟩ | ⟨-, -, -, rfl⟩
    · exact .error (by simp) (by simp)
    · exact .error (by simp) (by simp)
    · cases hb
    · exact .ok _ _
  | drainRx =>
    rcases drainRx_cases h with ⟨-, rfl⟩ | ⟨-, -, rfl⟩ | ⟨-, -, -, rfl⟩ | ⟨-, -, -, rfl⟩
    · exact .error (by simp) (by simp)
    · exact .ok _ _
    · cases hb
    · exact .ok _ _
  | fifoClear => rw [fifoClear_cases h]; exact .ok _ _
  | tmrStart =>
    rcases tmrStart_cases h with ⟨-, -, -, rfl⟩ | ⟨-, rfl⟩
    · exact .ok _ _
    · exact .error (by simp) (by simp)
  | tmrPoll => exact tmrPoll_ending h
  | readCsr =>
    rcases readCsr_cases h with ⟨-, rfl⟩ | ⟨-, -, -, rfl⟩ | ⟨-, -, -, rfl⟩
    · exact .error (by simp) (by simp)
    · exact .ok _ _
    · exact .ok _ _

theorem Ending.result_eq_zero (h : Ending i s t) (hst : t.status ≠ .ok) : t.result = 0 := by
  cases h with
  | ok => exact absurd rfl hst
  | error => exact ite_self 0
  | timeout => rfl

theorem Ending.status_mem (h : Ending i s t) : t.status ∈ endStatuses i := by
  cases h with
  | ok => cases i <;> simp
  | error hrow => exact hrow
  | timeout hi => subst hi; simp

theorem finish_zero (st : Status) (s : State) : finish st 0 s = { s with status := st, result := 0 } := by
  rw [finish_eq, ite_self]

theorem Ending.eq_of_error (h : Ending i s t)
    (hst : t.status = .invalidParam ∨ t.status = .alreadyBusy ∨ t.status = .illegalCommand) :
    t = { s with status := t.status, result := 0 } := by
  cases h with
  | ok | timeout => simp at hst
  | error => exact finish_zero _ s

theorem Ending.eq_of_timeout (h : Ending i s t) (hst : t.status = .timeout) :
    i = .tmrPoll ∧
    t = { s with
          tmr := { s.tmr with state := .doneTimeout, prevTick := t.tmr.prevTick }, status := .timeout, result := 0 } := by
  cases h with
  | ok => cases hst
  | error _ hne => exact absurd hst hne
  | timeout hi => exact ⟨hi, rfl⟩

/-! ### The statements -/

/-- Settles O37: of the endings only OK has a RESULT of its own. -/
theorem resultZeroOnError : Obligations.ResultZeroOnError :=
  fun _ _ _ h hb => (exec_ending h hb).result_eq_zero

/-- Settles O38: a decoded command by its ending; a word the decoder rejects ends with ILLEGAL_COMMAND. -/
theorem errorsArePrecise : Obligations.ErrorsArePrecise := by
  intro c s t h hb
  obtain ⟨-, ⟨i, hd, hx⟩ | ⟨e, -, rfl⟩⟩ := issueCommand_cases h
  · have hend := exec_ending hx hb
    refine ⟨hend.eq_of_error, fun hst => ?_⟩
    obtain ⟨rfl, ht⟩ := hend.eq_of_timeout hst
    exact ⟨hd, ht⟩
  · exact ⟨fun _ => rfl, fun hst => nomatch hst⟩

/-- A rejected word's status, whatever the state it is issued in (R99). -/
theorem issueCommand_status_of_error {c : Command} {e : Reject} (hd : decode c = .error e)
    (h : issueCommand c s = .next t) : t.status = .illegalCommand := by
  obtain ⟨-, ⟨i, hok, -⟩ | ⟨-, -, rfl⟩⟩ := issueCommand_cases h
  · cases hd.symm.trans hok
  · rfl

/-- Settles O39: a word that selects no row is rejected, and each ending's status is in the command's row. -/
theorem statusesPerCommand : Obligations.StatusesPerCommand := by
  refine ⟨fun c s t hsel h => ?_, fun i s t h hb => ?_⟩
  · obtain ⟨e, hd⟩ := selectOp_eq_none.1 hsel
    exact issueCommand_status_of_error hd h
  · have hrow := (exec_ending h hb).status_mem
    cases i <;> exact hrow

/-- Settles O40: a null source is refused whatever the header's state, and a rejected word before any check. -/
theorem operandChecksComeFirst : Obligations.OperandChecksComeFirst :=
  ⟨fun _ _ _ hlen hsrc _ => exec_fillTx_of_null ⟨hlen, hsrc⟩, fun _ _ _ _ => issueCommand_status_of_error⟩

end Sys2Proof.Machine
end

section
/-! PROOF. The environment agents' steps (60_exceptions.md R265 to R271): when the Shift Engine's steps are enabled,
what a received entry does where RXQ has room for it and where it has none, and TICK after so many Tick Counter steps. -/

namespace Sys2Proof.Machine

variable {s : State} {e : Entry} {es q : List Entry} {w : Word} {c : Nat}

/-! ### The busy step and the Tick Counter (R269, R270) -/

/-- TICK after `n` steps, the parameters being legal and TICK below R; nothing else changes. -/
theorem runEvents_ticks (n : Nat) (h : Invariants s) :
    ∃ k : Word, runEvents (List.replicate n .tick) s = .next { s with tick := k } ∧
      k.toNat = (s.tick.toNat + n) % s.cfg.tickReload := by
  induction n generalizing s with
  | zero => exact ⟨s.tick, rfl, (Nat.mod_eq_of_lt h.tick).symm⟩
  | succ n ih =>
    obtain ⟨k, hrun, hk⟩ := ih h.tickStep
    refine ⟨k, hrun, ?_⟩
    rw [hk, h.tickStep_toNat, tickStep_cfg, Nat.mod_add_mod, Nat.add_assoc, Nat.add_comm 1 n]

/-- Settles O45: the busy step by its definition, the ticks by induction on their number. -/
theorem busyAndTickSteps : Obligations.BusyAndTickSteps :=
  ⟨fun _ _ => rfl, fun n _ => runEvents_ticks n⟩

/-! ### What the environment leaves (R265) -/

/-- Settles O41: each environment agent's step keeps the frame. -/
theorem environmentTouchesOnly : Obligations.EnvironmentTouchesOnly :=
  fun _ _ _ => environmentStep_frame

/-! ### Transmit (R266) -/

theorem shiftOut_of_empty (hq : s.txq = []) : shiftOut s = .refused .shiftOutEmpty := by
  simp only [shiftOut, hq]

theorem shiftOut_of_cons (hloop : s.cfg.loopback = false) (hq : s.txq = e :: es) :
    shiftOut s = .next { s with txq := es } := by
  simp [shiftOut, hq, hloop]

/-- Settles O42: TXQ has a head entry, which goes, or none. -/
theorem transmitStep : Obligations.TransmitStep :=
  fun _ hloop => ⟨fun _ _ => shiftOut_of_cons hloop, shiftOut_of_empty⟩

/-! ### Receive (R267, R268) -/

theorem tailPartial_of_full (h : q = [] ∨ ∃ e, q.getLast? = some e ∧ e.count = 4) : tailPartial q = false := by
  rcases h with rfl | ⟨e, hlast, hcount⟩
  · rfl
  · simp [tailPartial, hlast, hcount]

theorem tailPartial_of_partial (hlast : q.getLast? = some e) (hcount : e.count ≠ 4) : tailPartial q = true := by
  simp [tailPartial, hlast, hcount]

theorem receive_of_room (h : s.rxLevel + e.count ≤ s.cfg.fifoDepth) : receive e s = { s with rxq := s.rxq ++ [e] } :=
  if_pos h

theorem receive_of_no_room (h : s.cfg.fifoDepth < s.rxLevel + e.count) : receive e s = { s with rxOverflow := true } :=
  if_neg h.not_ge

theorem rxPush_of_count (hloop : s.cfg.loopback = false) (h1 : 1 ≤ c) (h4 : c ≤ 4) :
    rxPush w c s = if tailPartial s.rxq then .refused .pushAfterPartial else .next (receive ⟨w, c⟩ s) := by
  rw [rxPush, if_neg (Bool.eq_false_iff.1 hloop), if_neg (by omega)]

/-- Settles O43: the last entry decides whether the step is enabled, and the room what it does. -/
theorem receiveStep : Obligations.ReceiveStep := by
  intro w c s hloop h1 h4
  have hstep : agentStep (.rxPush w c) s = _ := rxPush_of_count hloop h1 h4
  refine ⟨fun hq => ?_, fun e hlast hcount => ?_⟩
  · rw [hstep, tailPartial_of_full hq]
    exact ⟨fun hroom => congrArg Host.Outcome.next (receive_of_room hroom),
      fun hover => congrArg Host.Outcome.next (receive_of_no_room hover)⟩
  · rw [hstep, tailPartial_of_partial hlast hcount]
    rfl

/-! ### Loopback (R271) -/

theorem shiftOut_of_loopback (hloop : s.cfg.loopback = true) (hq : s.txq = e :: es) :
    shiftOut s = if tailPartial s.rxq then .refused .pushAfterPartial else .next (receive e { s with txq := es }) := by
  simp only [shiftOut, hq, hloop, if_true]

/-- Settles O44: as the receive step, with TXQ's head entry, which leaves TXQ even where RXQ has no room (log 10). -/
theorem loopbackStep : Obligations.LoopbackStep := by
  intro e rest s hloop hq
  have hstep : agentStep .shiftOut s = _ := shiftOut_of_loopback hloop hq
  refine ⟨fun hrx => ⟨shiftOut_loopback hloop hq (tailPartial_of_full hrx), fun hover => ?_⟩,
    fun e' hlast hcount => ⟨.pushAfterPartial, ?_⟩⟩
  · rw [hstep, tailPartial_of_full hrx]
    exact congrArg Host.Outcome.next (receive_of_no_room hover)
  · rw [hstep, tailPartial_of_partial hlast hcount]
    rfl

end Sys2Proof.Machine
end

section
/-! PROOF. Reset of the block (70_reset_and_hazards.md R280): what it leaves, and that nothing else returns TMR_STATE to
IDLE. -/

namespace Sys2Proof.Machine

variable {s t : State}

/-- A wait that TMR_POLL ends goes to one of the DONE states; its other endings leave TMR_STATE (R123). -/
theorem idle_of_tmrPoll_idle (h : exec .tmrPoll s = .next t) (hidle : t.tmr.state = .idle) : s.tmr.state = .idle := by
  rcases tmrPoll_cases h with
    ⟨-, rfl⟩ | ⟨-, rfl⟩ | ⟨-, rfl⟩ | ⟨-, -, rfl⟩ | ⟨-, -, -, rfl⟩ | ⟨-, -, -, rfl⟩ | ⟨-, -, -, -, -, rfl⟩
  · exact hidle
  · exact hidle
  · exact hidle
  · cases hidle
  · cases hidle
  · exact hidle
  · exact hidle

/-- An accepted TMR_START goes to RUNNING, a refused one leaves TMR_STATE (R122). -/
theorem idle_of_tmrStart_idle {T c : Nat} (h : exec (.tmrStart T c) s = .next t) (hidle : t.tmr.state = .idle) :
    s.tmr.state = .idle := by
  rcases tmrStart_cases h with ⟨-, -, -, rfl⟩ | ⟨-, rfl⟩
  · cases hidle
  · exact hidle

/-- What restarts the comparator is a reset, or a command that decodes to TMR_START. -/
theorem Event.eq_of_restartsTimer {e : Event} (he : e.restartsTimer = true) :
    e = .blockReset ∨ ∃ c T k, e = .command c ∧ decode c = .ok (.tmrStart T k) := by
  cases e with
  | command c =>
    simp only [Event.restartsTimer] at he
    split at he
    · exact .inr ⟨c, _, _, rfl, ‹_›⟩
    · cases he
  | blockReset => exact .inl rfl
  | shiftOut | rxPush | setBusy | tick | bufWrite => cases he

/-- A step that restarts the comparator is a reset or a TMR_START; any other leaves it or polls it. -/
theorem idle_or_blockReset_of_agentStep_idle {e : Event} (h : agentStep e s = .next t) (hidle : t.tmr.state = .idle) :
    s.tmr.state = .idle ∨ e = .blockReset := by
  cases he : e.restartsTimer with
  | false =>
    obtain ⟨-, hsame | hpoll, -⟩ := agentStep_timer h he
    · exact .inl (hsame ▸ hidle)
    · exact .inl (idle_of_tmrPoll_idle hpoll hidle)
  | true =>
    rcases Event.eq_of_restartsTimer he with rfl | ⟨c, T, k, rfl, hd⟩
    · exact .inr rfl
    · obtain ⟨hb, -⟩ := issueCommand_cases h
      exact .inl (idle_of_tmrStart_idle ((issueCommand_of_decode hb hd).symm.trans h) hidle)

/-- Settles O46: no step but a reset enters IDLE, and a reset writes the values of R40's table. -/
theorem blockResetResult : Obligations.BlockResetResult :=
  ⟨fun _ _ _ => idle_or_blockReset_of_agentStep_idle, fun _ => ⟨Built.zero.buf, rfl⟩⟩

end Sys2Proof.Machine
end
